-- ==== Sys2Proof/Word.lean ====
section
/-! DEFINITION. The widths of 00_scope.md R8: u8, u16, u32 and the hex-digit flag of R67. A bit and a raw line level are Bool: low is 0 is false, high is 1 is true (decision D1). -/

namespace Sys2Proof

/-- A host byte, a wire byte, a target byte: u8 of R8. -/
abbrev Byte := BitVec 8

/-- A count or a 16-bit RegisterValue: u16 of R8. -/
abbrev Word := BitVec 16

/-- A 32-bit RegisterValue: u32 of R8. -/
abbrev Quad := BitVec 32

/-- A value of one hex digit: the flag of command `r` (R67). -/
abbrev Nibble := BitVec 4

end Sys2Proof
end

