-- ==== Sys2Proof/Config.lean ====
section
/-! DEFINITION. The constants of 00_scope.md R6, the parameters of R7 as one record, and the free values (opaque constants without a body: no proof can see their value). -/

namespace Sys2Proof.Config

/-! ### Constants the source fixes (R6) -/

/-- BUF_CAP: capacity of each raw bit buffer, in bits. -/
abbrev bufCap : Nat := 4096
/-- SYM_LEN: raw bits per baked bit. -/
abbrev symLen : Nat := 5
/-- ONE_LOW: length of the low-run of a logical 1. -/
abbrev oneLow : Nat := 4
/-- ONE_HIGH: length of the high-run of a logical 1. -/
abbrev oneHigh : Nat := 1
/-- ZERO_LOW: length of the low-run of a logical 0. -/
abbrev zeroLow : Nat := 1
/-- ZERO_HIGH: length of the high-run of a logical 0. -/
abbrev zeroHigh : Nat := 4
/-- MARK_CMD: marker bit of a command byte. -/
abbrev markCmd : Bool := true
/-- MARK_DATA: marker bit of a data byte. -/
abbrev markData : Bool := false
/-- FRAME_BIT: trailing framing baked bit of every byte. -/
abbrev frameBit : Bool := false
/-- START: the start-of-transaction command byte. -/
def start : Byte := 0x5a
/-- END: the end-of-transaction command byte. -/
def finish : Byte := 0xff
/-- MODE_READ: "read, auto-increment". -/
def modeRead : Byte := 0x80
/-- MODE_WRITE: "write, auto-increment". -/
def modeWrite : Byte := 0x00
/-- IDLE_BITS: low bits appended to clock a read byte. -/
abbrev idleBitCount : Nat := 4
/-- RX_MARGIN: inbound raw bits requested per decoded byte. -/
def rxMargin : Nat := 100
/-- ADDR_WIDTH: bits of a target address. -/
abbrev addrWidth : Nat := 16
/-- DebugAddress: a target address (R6, R30). -/
abbrev Address := BitVec addrWidth
/-- ID_ADDR: the identity register (word). -/
def idAddr : Address := 0x007e
/-- ID_EXPECT: the expected identity value. -/
def idExpect : Word := 0x5316
/-- SW_DATA: the swire data register; the block does nothing with it (R38). -/
def swDataAddr : Address := 0x00b0
/-- The swire ctrl1 register; the block does nothing with it (R37, R38). -/
def swCtrl1Addr : Address := 0x00b1
/-- CLKDIV_ADDR: the clk-div register, third of the four swire registers (R37). -/
def clkDivAddr : Address := 0x00b2
/-- SW_ID: the swire id register; the block does nothing with it (R38). -/
def swIdAddr : Address := 0x00b3
/-- TMRCTL_ADDR: the timer-control register (dword). -/
def tmrCtlAddr : Address := 0x0620
/-- The bit of timer-control that enables the watchdog; `init` clears it with all the others (R6, R226). -/
def watchdogBit : Nat := 23
/-- RUNSTATE_ADDR: the debug run-state register. -/
def runStateAddr : Address := 0x0602
/-- HALT_VALUE: the run-state value that halts the target. -/
def haltValue : Byte := 0x05
/-- DIV_FIRST: the first clock divider tried by the speed scan. -/
def divFirst : Nat := 3

end Sys2Proof.Config

namespace Sys2Proof

/-- TRUNC_POLICY of R7: what a truncated decode returns (R92, D6). -/
inductive TruncPolicy where
  | earlyReturn
  | zeroFill
  deriving DecidableEq, Repr

/-- The parameters of R7. "A model takes each as an argument": they are a field of State that no step changes, so a
statement about every state is about every value of them (log 1). DIAG is a function and stands below as a free value. -/
structure Params where
  /-- DIV_LAST, `3 <= DIV_LAST <= 127` -/
  divLast : Nat
  /-- DIV_STEP, positive -/
  divStep : Nat
  /-- RESET_HOLD, a duration in a unit no source gives -/
  resetHold : Nat
  /-- EOL, the bytes that end a reply line -/
  eol : List Byte
  /-- BANNER, the greeting's bytes -/
  banner : List Byte
  /-- TRUNC_POLICY -/
  truncPolicy : TruncPolicy
  /-- ENFORCE_SEQUENCE -/
  enforceSequence : Bool
  deriving DecidableEq, Repr

/-- The ranges R7 gives the parameters. -/
def Params.legal (p : Params) : Bool :=
  decide (Config.divFirst ≤ p.divLast) && decide (p.divLast ≤ 127) && decide (0 < p.divStep)

/-- What a diagnostic line is about: the two contexts of R161. -/
inductive DiagContext where
  | identity (id : Word)
  | unrecognized (verb : Byte)
  deriving DecidableEq, Repr

end Sys2Proof

namespace Sys2Proof.Config

/-! ### Free values -/

/-- Whether the engine ever completes a Transport call whose answer `State.answers` does not hold (R102, U4), by draw. -/
opaque completes : Nat → Bool
/-- The captured bit `i` of a call that `State.answers` does not give (R103: "any M bits"), by draw. -/
opaque capturedBit : Nat → Nat → Bool
/-- A sample of the presence signal that `State.presence` does not give (R152), by draw. -/
opaque present : Nat → Bool
/-- The OPEN end of the divider range at reset: DIV_LAST is 3 plus this (R7, U12). -/
opaque divRange : Fin 125
/-- The OPEN RESET_HOLD at reset (R7, D14). -/
opaque resetHold : Nat
/-- The OPEN BANNER at reset (R7, D23). -/
opaque banner : List Byte
/-- The text DIAG gives for a context (R161, U10); `diagText` of Machine/Operands.lean makes it a line without EOL. -/
opaque diagText : DiagContext → List Byte
/-- out.buf after block reset: "unspecified (every bit)" (R25, U6). -/
opaque outBufAtReset : Vector Bool bufCap
/-- in.buf after block reset: "unspecified (every bit)" (R25, U6). -/
opaque inBufAtReset : Vector Bool bufCap
/-- The reset line after block reset: "unspecified" (R25, U7). -/
opaque rstAtReset : Bool

end Sys2Proof.Config
end

