-- ==== Sys2Proof/Syntax.lean ====
section
/-! DEFINITION. Instr: one constructor per row of spec/opcode_table.json, in the table's order. An instruction is an operation of R5 (decision D25). -/

namespace Sys2Proof

/-- The operations of the block. Layer L0 is the line code, L1 the register transactions, L2 the sequencer (R5). -/
inductive Instr where
  /-- `write_raw_bit(bit)`, R80 -/
  | writeRawBit (bit : Bool)
  /-- `write_baked_bit(1)`, R81 -/
  | writeBakedOne
  /-- `write_baked_bit(0)`, R81 -/
  | writeBakedZero
  /-- `write_byte(b)`, R82 -/
  | writeByte (b : Byte)
  /-- `write_cmd_byte(b)`, R83 -/
  | writeCmdByte (b : Byte)
  /-- `write_data_byte(b)`, R84 -/
  | writeDataByte (b : Byte)
  /-- `write_data_word(w)`, R85 -/
  | writeDataWord (w : Word)
  /-- `reset_out()`, R86 -/
  | resetOut
  /-- `decode_byte()`, R90 -/
  | decodeByte
  /-- `Transport(N, M)`, the external operation of R100 -/
  | transport (n m : Nat)
  /-- `read_first(address)`, R111 -/
  | readFirst (address : Config.Address)
  /-- `read_next()`, R112 -/
  | readNext
  /-- `finish_reading()`, R113 -/
  | finishReading
  /-- `write_first(address, value)`, R114 -/
  | writeFirst (address : Config.Address) (value : Byte)
  /-- `write_next(value)`, R115 -/
  | writeNext (value : Byte)
  /-- `finish_writing()`, R116 -/
  | finishWriting
  /-- `read_single_byte(address)`, R120 -/
  | readSingleByte (address : Config.Address)
  /-- `read_single_word(address)`, R121 -/
  | readSingleWord (address : Config.Address)
  /-- `write_single_byte(address, v)`, R122 -/
  | writeSingleByte (address : Config.Address) (value : Byte)
  /-- `write_single_word(address, v)`, R123 -/
  | writeSingleWord (address : Config.Address) (value : Word)
  /-- `write_single_quad(address, v)`, R124 -/
  | writeSingleQuad (address : Config.Address) (value : Quad)
  /-- `init()`, R140 -/
  | init
  /-- host command `i`, R155 -/
  | cmdInit
  /-- host command `r` with its flag digit, R156 -/
  | cmdReset (flag : Nibble)
  /-- host command `s`, R157 -/
  | cmdShow
  /-- host command `R` with its address and count fields, R158 -/
  | cmdRead (address : Config.Address) (count : Word)
  /-- host command `W` with its address and count fields, R159. Its payload is no operand: "the payload is never held
  whole" (R162), each byte is read from the host stream just before it is sent (log 18) -/
  | cmdWrite (address : Config.Address) (count : Word)
  /-- any other verb byte, R160 -/
  | cmdOther (verb : Byte)
  deriving DecidableEq, Repr

end Sys2Proof
end

