-- ==== Sys2Proof/Machine/State.lean ====
section
/-! DEFINITION. The state of the block (10_state.md R10 to R25) as plain data, the reasons a step stops, and the state after block reset. -/

namespace Sys2Proof.Machine

/-- `conn` of R15. It gates nothing. -/
inductive Conn where
  | disconnected
  | resetting
  | scanningSpeed
  | connected
  deriving DecidableEq, Repr

/-- `txn` of R16. -/
inductive Txn where
  | idle
  | reading
  | writing
  | closed
  deriving DecidableEq, Repr

/-- The six primitive L1 operations, the columns of R110's table. -/
inductive Primitive where
  | readFirst
  | readNext
  | finishReading
  | writeFirst
  | writeNext
  | finishWriting
  deriving DecidableEq, Repr

/-- What the WireTransport answers to one call (R100, R102, R103). -/
inductive Answer where
  /-- completion is never signalled -/
  | stalls
  /-- both completions are signalled; the captured bits in order, as far as the list goes (bits beyond it are free) -/
  | completes (bits : List Bool)
  deriving DecidableEq, Repr

/-- What the outside of the block can see it do, apart from its replies. -/
inductive Event where
  /-- one completed Transport call: the N bits sent and the M bits captured (R105) -/
  | wire (sent captured : List Bool)
  /-- the reset line is driven to a level (R17) -/
  | setRst (level : Bool)
  /-- `Delay(t)` (R8, R141) -/
  | delay (t : Nat)
  deriving DecidableEq, Repr

/-- One HostPut (R151). EOL, DIAG and BANNER are parameters, so their puts are kept by name; `Put.bytes` of
Machine/Operands.lean gives the bytes (log 11). -/
inductive Put where
  /-- literal bytes: a status character, the two digits of a payload byte -/
  | text (bytes : List Byte)
  /-- EOL -/
  | eol
  /-- `#` and the text DIAG gives (R161) -/
  | diag (c : DiagContext)
  /-- BANNER (R152) -/
  | banner
  deriving DecidableEq, Repr

/-- What a directly called operation hands back to its caller (log 9). -/
inductive Ret where
  /-- nothing has been called yet, or the call is still running -/
  | none
  /-- it returned, without a result -/
  | done
  | byte (v : Byte)
  | word (v : Word)
  /-- `init`: success or failure (R140) -/
  | initResult (success : Bool)
  /-- SequenceError(op, txn) (R117, R185) -/
  | sequenceError (op : Primitive) (txn : Txn)
  deriving DecidableEq, Repr

/-- Whether the block can take a step (R198: it is "always either executing an operation, polling the transport, or
blocked in HostGet"). -/
inductive Blocked where
  | running
  /-- inside a Transport call that never completes (R102, R181) -/
  | inTransport
  /-- inside HostGet, with no host byte to come (R150, U14) -/
  | inHostGet
  deriving DecidableEq, Repr

/-- The machine's state. The first nine fields are the block's whole state of R10; `params` are the parameters of R7;
the rest are the block's inputs and outputs and the model's own bookkeeping (INVENTORY.md, State). -/
structure State where
  /-- out.buf (R11) -/
  outBuf : Vector Bool Config.bufCap
  /-- out.cur (R11, R12) -/
  outCur : Nat
  /-- in.buf (R13) -/
  inBuf : Vector Bool Config.bufCap
  /-- in.len (R13) -/
  inLen : Nat
  /-- in.pos (R14) -/
  inPos : Nat
  /-- conn (R15) -/
  conn : Conn
  /-- txn (R16) -/
  txn : Txn
  /-- rst: false is level 0, asserted; true is level 1, deasserted (R17) -/
  rst : Bool
  /-- greeted (R22) -/
  greeted : Bool
  /-- the parameters of R7 (log 1) -/
  params : Params
  /-- the host bytes not yet read (R21, R150; log 6) -/
  hostIn : List Byte
  /-- the coming samples of the presence signal (R152; log 7) -/
  presence : List Bool
  /-- the coming answers of the WireTransport (R103; log 4) -/
  answers : List Answer
  /-- the operations a direct caller has called, first one first (D24; log 8) -/
  calls : List Instr
  /-- the reply stream, one entry per HostPut, oldest first (R21, R151) -/
  hostOut : List Put
  /-- completed Transport calls, reset-line writes and delays, oldest first (R105; log 12) -/
  trace : List Event
  /-- what the last called operation handed back (log 9) -/
  ret : Ret
  /-- whether the block can take a step (R198) -/
  blocked : Blocked
  /-- how many free values have been drawn (log 4) -/
  draws : Nat
  deriving DecidableEq, Repr

/-- Why a step takes no state: the block is stuck for good. Both are safe: the spec says the block never goes on. -/
inductive Fault where
  /-- raised by `step` where the block is inside a Transport call that never completes (R102, R181: "a hang"); safe -/
  | transportStall
  /-- raised by `step` where the block waits in HostGet and the host sends nothing more (R150, U14: "stuck"); safe -/
  | hostStreamDry
  deriving DecidableEq, Repr

/-- What the model gives no meaning. -/
inductive Refusal where
  /-- an instruction that has no meaning yet, raised by `exec`; safe -/
  | notModelled (mnemonic : String)
  /-- HostArgumentError, raised by the dispatcher and by `W`: a byte that is no hex digit where one is needed; "a model
  refuses such a host stream" (R73, R186, U8); safe -/
  | hostArgumentError (b : Byte)
  /-- raised by `Transport(N, M)` called outside "requires 0 <= N <= out.cur <= 4096 and 0 <= M <= 4096" (R100): it would
  send bits "a model must not let ... be read" (R227); safe -/
  | transportRequires (n m : Nat)
  /-- raised by `step` on a pending call that is no operation call: an ill-formed term, or a host command, which reaches
  the block through the host stream only (R153, D24); safe -/
  | notCallable (i : Instr)
  deriving DecidableEq, Repr

/-- Why an operation ends before its last statement. Everything before that point has happened and nothing after it
(R190). -/
inductive Stop where
  /-- the Transport call never completes (R181) -/
  | stall
  /-- HostGet waits for a byte that never comes (R150) -/
  | hostDry
  /-- the L1 primitive was refused by R110 (R117) -/
  | sequenceError
  /-- HostArgumentError (R186) -/
  | badDigit (b : Byte)
  deriving DecidableEq, Repr

/-- How an operation ends: with a result, or stopped. -/
inductive Res (α : Type) where
  | done (a : α) (s : State)
  | stopped (e : Stop) (s : State)

/-- The parameters after reset: the spec's defaults, and a free value for each OPEN one (R7; log 1, 2). -/
def Params.atReset : Params where
  divLast := Config.divFirst + Config.divRange.val
  divStep := 1
  resetHold := Config.resetHold
  eol := [0x0a]
  banner := Config.banner
  truncPolicy := .earlyReturn
  enforceSequence := true

/-- The block right after block reset (R25, R211). -/
def State.reset : State where
  outBuf := Config.outBufAtReset
  outCur := 0
  inBuf := Config.inBufAtReset
  inLen := 0
  inPos := 0
  conn := .disconnected
  txn := .idle
  rst := Config.rstAtReset
  greeted := false
  params := Params.atReset
  hostIn := []
  presence := []
  answers := []
  calls := []
  hostOut := []
  trace := []
  ret := .none
  blocked := .running
  draws := 0

end Sys2Proof.Machine
end

