-- ==== Sys2Proof/Machine/Flags.lean ====
section
/-! DEFINITION. The block has no condition codes (R19). What stands in their place is `txn` and its admission table (R110). -/

namespace Sys2Proof.Machine

/-- R110's table: whether a primitive is admitted in a transaction state. Closed admits what Idle admits. -/
def Txn.admits : Txn → Primitive → Bool
  | .idle, .readFirst => true
  | .idle, .readNext => false
  | .idle, .finishReading => false
  | .idle, .writeFirst => true
  | .idle, .writeNext => false
  | .idle, .finishWriting => false
  | .closed, .readFirst => true
  | .closed, .readNext => false
  | .closed, .finishReading => false
  | .closed, .writeFirst => true
  | .closed, .writeNext => false
  | .closed, .finishWriting => false
  | .reading, .readFirst => false
  | .reading, .readNext => true
  | .reading, .finishReading => true
  | .reading, .writeFirst => false
  | .reading, .writeNext => false
  | .reading, .finishWriting => false
  | .writing, .readFirst => false
  | .writing, .readNext => false
  | .writing, .finishReading => false
  | .writing, .writeFirst => false
  | .writing, .writeNext => true
  | .writing, .finishWriting => true

/-- Whether a primitive may run: "With ENFORCE_SEQUENCE = false the table is void" (R110). -/
def State.mayRun (s : State) (op : Primitive) : Bool := !s.params.enforceSequence || s.txn.admits op

end Sys2Proof.Machine
end

