-- ==== Sys2Proof/WellFormed.lean ====
section
/-! DEFINITION. Which terms of Instr are instructions: the operand ranges the spec gives beyond the operands' widths. -/

namespace Sys2Proof

/-- The five verb bytes of R71: `R`, `W`, `i`, `r`, `s`. -/
def verbs : List Byte := [0x52, 0x57, 0x69, 0x72, 0x73]

/-- Operand ranges. `Transport`: "N > 4096 or M > 4096 cannot be expressed" (R104, D28). The unrecognized verb is any
byte but the five verbs (R71). Every other operand may be any value of its width (R31, R36). -/
def Instr.wellFormed : Instr → Bool
  | .transport n m => decide (n ≤ Config.bufCap) && decide (m ≤ Config.bufCap)
  | .cmdOther verb => !verbs.contains verb
  | .writeRawBit _ => true
  | .writeBakedOne => true
  | .writeBakedZero => true
  | .writeByte _ => true
  | .writeCmdByte _ => true
  | .writeDataByte _ => true
  | .writeDataWord _ => true
  | .resetOut => true
  | .decodeByte => true
  | .readFirst _ => true
  | .readNext => true
  | .finishReading => true
  | .writeFirst _ _ => true
  | .writeNext _ => true
  | .finishWriting => true
  | .readSingleByte _ => true
  | .readSingleWord _ => true
  | .writeSingleByte _ _ => true
  | .writeSingleWord _ _ => true
  | .writeSingleQuad _ _ => true
  | .init => true
  | .cmdInit => true
  | .cmdReset _ => true
  | .cmdShow => true
  | .cmdRead _ _ => true
  | .cmdWrite _ _ => true

/-- Whether an instruction is a host command (L2 host command rows of the table): those reach the block through the host
stream only (R150, R153). The others are called (D24). -/
def Instr.isHostCommand : Instr → Bool
  | .cmdInit => true
  | .cmdReset _ => true
  | .cmdShow => true
  | .cmdRead _ _ => true
  | .cmdWrite _ _ => true
  | .cmdOther _ => true
  | .writeRawBit _ => false
  | .writeBakedOne => false
  | .writeBakedZero => false
  | .writeByte _ => false
  | .writeCmdByte _ => false
  | .writeDataByte _ => false
  | .writeDataWord _ => false
  | .resetOut => false
  | .decodeByte => false
  | .transport _ _ => false
  | .readFirst _ => false
  | .readNext => false
  | .finishReading => false
  | .writeFirst _ _ => false
  | .writeNext _ => false
  | .finishWriting => false
  | .readSingleByte _ => false
  | .readSingleWord _ => false
  | .writeSingleByte _ _ => false
  | .writeSingleWord _ _ => false
  | .writeSingleQuad _ _ => false
  | .init => false

end Sys2Proof
end

