-- ==== Sys2Proof/Decode.lean ====
section
/-! DEFINITION. The two languages of 30_encoding.md. First the host language (R64 to R73): `decode` reads one command from the front of the host stream, total on any bytes. Then the wire language (R50 to R63): the bits each operation sends, and a decoder of them. Then `encode` for every instruction, and the words of spec/opcode_table.json. -/

namespace Sys2Proof

/-! ### Hex fields (R65) -/

/-- The value of an ASCII hex digit; both cases are accepted on input (R65, D16). -/
def hexValue (c : Byte) : Option Nat :=
  if 0x30 ≤ c.toNat ∧ c.toNat ≤ 0x39 then some (c.toNat - 0x30)
  else if 0x61 ≤ c.toNat ∧ c.toNat ≤ 0x66 then some (c.toNat - 0x57)
  else if 0x41 ≤ c.toNat ∧ c.toNat ≤ 0x46 then some (c.toNat - 0x37)
  else none

/-- The lower-case ASCII hex digit of a value below 16 (R65: "Replies use lower case only"). -/
def hexDigit (n : Nat) : Byte :=
  if n < 10 then BitVec.ofNat 8 (0x30 + n) else BitVec.ofNat 8 (0x57 + n)

/-- What reading a hex field from a stream gives: its value and the rest, a stream that runs dry inside it (R150), or a
byte that is no digit (R73). -/
inductive HexRead where
  | value (v : Nat) (rest : List Byte)
  | dry
  | bad (b : Byte)
  deriving DecidableEq, Repr

/-- `hex(k)` of R154 from the value `v` on: `v <- v * 16 + digit(c)`, `k` times. -/
def hexFrom (v : Nat) : Nat → List Byte → HexRead
  | 0, bytes => .value v bytes
  | _ + 1, [] => .dry
  | k + 1, c :: bytes =>
    match hexValue c with
    | none => .bad c
    | some d => hexFrom (v * 16 + d) k bytes

/-- `hex(k)` of R154. -/
def readHex (k : Nat) (bytes : List Byte) : HexRead := hexFrom 0 k bytes

/-- The `k` digits of a value, most significant nibble first (R65). -/
def hexField : Nat → Nat → List Byte
  | 0, _ => []
  | k + 1, v => hexDigit (v / 16 ^ k % 16) :: hexField k v

/-! ### The host language (R64 to R72) -/

/-- What the front of the host stream holds. -/
inductive Decoded where
  /-- a command and the bytes after it (of `W`: after its count field, R159) -/
  | command (i : Instr) (rest : List Byte)
  /-- the stream runs dry before the command's fields are complete: the block waits in HostGet (R150) -/
  | dry
  /-- a byte that is no hex digit where one is needed: HostArgumentError (R73, R186) -/
  | badDigit (b : Byte)
  deriving DecidableEq, Repr

/-- Go on after a hex field. -/
def HexRead.next (h : HexRead) (f : Nat → List Byte → Decoded) : Decoded :=
  match h with
  | .value v rest => f v rest
  | .dry => .dry
  | .bad b => .badDigit b

/-- The address and count fields of `R` and `W` (R69, R70). -/
def decodeBlock (make : Config.Address → Word → Instr) (args : List Byte) : Decoded :=
  (readHex 4 args).next fun a args =>
    (readHex 4 args).next fun n rest =>
      .command (make (BitVec.ofNat 16 a) (BitVec.ofNat 16 n)) rest

/-- The command at the front of the host stream: one verb byte, then the fields the verb determines (R66 to R72). -/
def decode : List Byte → Decoded
  | [] => .dry
  | verb :: args =>
    if verb = 0x69 then .command .cmdInit args
    else if verb = 0x72 then (readHex 1 args).next fun f rest => .command (.cmdReset (BitVec.ofNat 4 f)) rest
    else if verb = 0x73 then .command .cmdShow args
    else if verb = 0x52 then decodeBlock .cmdRead args
    else if verb = 0x57 then decodeBlock .cmdWrite args
    else .command (.cmdOther verb) args

/-! ### The wire language: the bits of symbols, bytes and frames (R50 to R60) -/

/-- A symbol: logical 1 is `00001`, logical 0 is `01111` (R51), a low-run and then a high-run (R6). -/
def symbolBits : Bool → List Bool
  | true => List.replicate Config.oneLow false ++ List.replicate Config.oneHigh true
  | false => List.replicate Config.zeroLow false ++ List.replicate Config.zeroHigh true

/-- The bits of a byte, most significant first (R35). -/
def msbFirst (b : Byte) : List Bool :=
  [b.getLsbD 7, b.getLsbD 6, b.getLsbD 5, b.getLsbD 4, b.getLsbD 3, b.getLsbD 2, b.getLsbD 1, b.getLsbD 0]

/-- The byte whose bits, most significant first, are given. -/
def ofMsbFirst (bits : List Bool) : Byte :=
  bits.foldl (fun acc b => acc <<< 1 ||| (if b then 1 else 0)) 0

/-- The byte format `bbbbbbbb0`, 45 raw bits (R52). -/
def byteBits (b : Byte) : List Bool := (msbFirst b).flatMap symbolBits ++ symbolBits Config.frameBit

/-- The marked-byte format, 50 raw bits: marker 1 is a command byte, marker 0 a data byte (R53). -/
def markedBits (marker : Bool) (b : Byte) : List Bool := symbolBits marker ++ byteBits b

/-- The data-word format, 100 raw bits, high byte first (R54, R33). -/
def dataWordBits (w : Word) : List Bool :=
  markedBits Config.markData (w.extractLsb' 8 8) ++ markedBits Config.markData (w.extractLsb' 0 8)

/-- The four idle-low raw bits (R55, R56). -/
def idleBits : List Bool := List.replicate Config.idleBitCount false

/-- Frame RF, 204 raw bits (R55). -/
def frameRF (a : Config.Address) : List Bool :=
  markedBits Config.markCmd Config.start ++ dataWordBits a ++ markedBits Config.markData Config.modeRead ++ idleBits

/-- Frame RN, 4 raw bits (R56). -/
def frameRN : List Bool := idleBits

/-- Frame END, 50 raw bits (R57). -/
def frameEND : List Bool := markedBits Config.markCmd Config.finish

/-- Frame WF, 250 raw bits (R58). -/
def frameWF (a : Config.Address) (v : Byte) : List Bool :=
  markedBits Config.markCmd Config.start ++ dataWordBits a ++ markedBits Config.markData Config.modeWrite ++
    markedBits Config.markData v

/-- Frame WN, 50 raw bits (R59). -/
def frameWN (v : Byte) : List Bool := markedBits Config.markData v

/-! ### Decoding the wire language -/

/-- Why a bit sequence, or a byte sequence, is no encoding of an operation. -/
inductive CodeError where
  /-- five raw bits that are neither symbol of R51 -/
  | badSymbol
  /-- a byte whose ninth symbol is not the framing 0 (R52) -/
  | badFraming
  /-- bits or bytes missing or left over -/
  | badLength
  /-- a marked byte with the other marker than its place in the frame has (R55 to R59) -/
  | badMarker
  /-- a command byte other than START and END in their places: reserved (R62, U13) -/
  | reservedCommand (b : Byte)
  /-- a mode byte other than 0x80 and 0x00: reserved (R62, U13) -/
  | reservedMode (b : Byte)
  /-- frames that are no composite of R76 -/
  | noComposite
  /-- a host byte that is no hex digit (R73) -/
  | badDigit (b : Byte)
  deriving DecidableEq, Repr

/-- The result of reading a piece of the wire language from the front of a bit sequence. -/
inductive WireRead (α : Type) where
  | ok (a : α) (rest : List Bool)
  | error (e : CodeError)
  deriving DecidableEq, Repr

/-- Go on after a piece. -/
def WireRead.next {α β : Type} (r : WireRead α) (f : α → List Bool → WireRead β) : WireRead β :=
  match r with
  | .ok a rest => f a rest
  | .error e => .error e

/-- One symbol (R51). -/
def readSymbol (bits : List Bool) : WireRead Bool :=
  if bits.take Config.symLen = symbolBits true then .ok true (bits.drop Config.symLen)
  else if bits.take Config.symLen = symbolBits false then .ok false (bits.drop Config.symLen)
  else .error .badSymbol

/-- `k` symbols. -/
def readSymbols : Nat → List Bool → WireRead (List Bool)
  | 0, bits => .ok [] bits
  | k + 1, bits => (readSymbol bits).next fun b bits => (readSymbols k bits).next fun bs rest => .ok (b :: bs) rest

/-- A byte and its framing symbol (R52). -/
def readByte (bits : List Bool) : WireRead Byte :=
  (readSymbols 8 bits).next fun bs bits =>
    (readSymbol bits).next fun framing rest =>
      if framing then .error .badFraming else .ok (ofMsbFirst bs) rest

/-- A marked byte: its marker and its byte (R53). -/
def readMarked (bits : List Bool) : WireRead (Bool × Byte) :=
  (readSymbol bits).next fun marker bits => (readByte bits).next fun b rest => .ok (marker, b) rest

/-- A data byte (marker 0). -/
def readData (bits : List Bool) : WireRead Byte :=
  (readMarked bits).next fun mb rest => if mb.1 then .error .badMarker else .ok mb.2 rest

/-- The command byte `c` (marker 1). -/
def readCommand (c : Byte) (bits : List Bool) : WireRead Unit :=
  (readMarked bits).next fun mb rest =>
    if !mb.1 then .error .badMarker else if mb.2 = c then .ok () rest else .error (.reservedCommand mb.2)

/-- A data word, high byte first (R54). -/
def readDataWord (bits : List Bool) : WireRead Word :=
  (readData bits).next fun a bits => (readData bits).next fun b rest => .ok (a ++ b) rest

/-- The four idle-low bits. -/
def readIdle (bits : List Bool) : WireRead Unit :=
  if bits.take Config.idleBitCount = idleBits then .ok () (bits.drop Config.idleBitCount) else .error .badLength

/-- A decoded instruction, or why there is none. -/
inductive CodeRead where
  | instr (i : Instr)
  | error (e : CodeError)
  deriving DecidableEq, Repr

/-- The instruction of a piece that must be the whole sequence. -/
def WireRead.whole {α : Type} (r : WireRead α) (f : α → Instr) : CodeRead :=
  match r with
  | .ok a [] => .instr (f a)
  | .ok _ (_ :: _) => .error .badLength
  | .error e => .error e

/-- The formats of the L0 rows of the opcode table. -/
inductive LineFormat where
  | rawBit
  | symbol
  | byte
  | markedByte
  | dataWord
  deriving DecidableEq, Repr

/-- The L0 operation a bit sequence of a format stands for. -/
def decodeLine : LineFormat → List Bool → CodeRead
  | .rawBit, [b] => .instr (.writeRawBit b)
  | .rawBit, _ => .error .badLength
  | .symbol, bits => (readSymbol bits).whole fun b => if b then .writeBakedOne else .writeBakedZero
  | .byte, bits => (readByte bits).whole .writeByte
  | .markedByte, bits => (readMarked bits).whole fun mb => if mb.1 then .writeCmdByte mb.2 else .writeDataByte mb.2
  | .dataWord, bits => (readDataWord bits).whole .writeDataWord

/-- Where in a transaction a frame stands: at its start, or inside a read or a write transaction. `finish_reading` and
`finish_writing` "send the same bits" (R57), so a frame alone does not tell them apart (log 19). -/
inductive FramePlace where
  | start
  | inRead
  | inWrite
  deriving DecidableEq, Repr

/-- The frame at the start of a transaction: RF or WF (R55, R58). -/
def decodeFirst (bits : List Bool) : CodeRead :=
  ((readCommand Config.start bits).next fun _ bits =>
    (readDataWord bits).next fun a bits =>
      (readData bits).next fun mode bits =>
        if mode = Config.modeRead then (readIdle bits).next fun _ rest => .ok (Instr.readFirst a) rest
        else if mode = Config.modeWrite then (readData bits).next fun v rest => .ok (Instr.writeFirst a v) rest
        else .error (.reservedMode mode)).whole id

/-- The L1 primitive a frame stands for, by its place. -/
def decodeFrame : FramePlace → List Bool → CodeRead
  | .start, bits => decodeFirst bits
  | .inRead, [false, false, false, false] => .instr .readNext
  | .inRead, bits => (readCommand Config.finish bits).whole fun _ => .finishReading
  | .inWrite, bits =>
    ((readMarked bits).next fun mb rest =>
      if !mb.1 then .ok (Instr.writeNext mb.2) rest
      else if mb.2 = Config.finish then .ok Instr.finishWriting rest
      else .error (.reservedCommand mb.2)).whole id

/-- The composite that a list of primitives expands (R76). -/
def ofExpansion : List CodeRead → CodeRead
  | [.instr (.readFirst a), .instr .finishReading] => .instr (.readSingleByte a)
  | [.instr (.readFirst a), .instr .readNext, .instr .finishReading] => .instr (.readSingleWord a)
  | [.instr (.writeFirst a v), .instr .finishWriting] => .instr (.writeSingleByte a v)
  | [.instr (.writeFirst a v0), .instr (.writeNext v1), .instr .finishWriting] =>
    .instr (.writeSingleWord a (v1 ++ v0))
  | [.instr (.writeFirst a v0), .instr (.writeNext v1), .instr (.writeNext v2), .instr (.writeNext v3), .instr .finishWriting] =>
    .instr (.writeSingleQuad a (v3 ++ v2 ++ v1 ++ v0))
  | _ => .error .noComposite

/-- The composite whose frames, in order, are given (R76, R120 to R124). -/
def decodeFrames : List (List Bool) → CodeRead
  | [] => .error .noComposite
  | first :: others =>
    match decodeFirst first with
    | .instr (.readFirst a) => ofExpansion (.instr (.readFirst a) :: others.map (decodeFrame .inRead))
    | r => ofExpansion (r :: others.map (decodeFrame .inWrite))

/-! ### The encoding of an instruction, and the decoder of encodings -/

/-- The operations the opcode table gives no encoding: `reset_out`, `decode_byte`, `Transport` and `init`. They are
called by name. -/
inductive NamedOperation where
  | resetOut
  | decodeByte
  | transport (n m : Nat)
  | init
  deriving DecidableEq, Repr

/-- The encoding of an instruction, in the form its row of the opcode table has. -/
inductive Code where
  /-- host command rows: the bytes of the host stream (for `W`: up to its count field) -/
  | host (bytes : List Byte)
  /-- L0 rows: the raw bits, in the row's format -/
  | line (f : LineFormat) (bits : List Bool)
  /-- L1 primitive rows: the frame's raw bits, and its place in a transaction -/
  | frame (p : FramePlace) (bits : List Bool)
  /-- L1 composite rows: the frames in order -/
  | frames (fs : List (List Bool))
  /-- rows with no encoding -/
  | named (o : NamedOperation)
  deriving DecidableEq, Repr

/-- The bytes of a host command with an address and a count (R69, R70). -/
def blockBytes (verb : Byte) (address : Config.Address) (count : Word) : List Byte :=
  verb :: (hexField 4 address.toNat ++ hexField 4 count.toNat)

/-- The encoding of an instruction. -/
def encode : Instr → Code
  | .writeRawBit b => .line .rawBit [b]
  | .writeBakedOne => .line .symbol (symbolBits true)
  | .writeBakedZero => .line .symbol (symbolBits false)
  | .writeByte b => .line .byte (byteBits b)
  | .writeCmdByte b => .line .markedByte (markedBits Config.markCmd b)
  | .writeDataByte b => .line .markedByte (markedBits Config.markData b)
  | .writeDataWord w => .line .dataWord (dataWordBits w)
  | .resetOut => .named .resetOut
  | .decodeByte => .named .decodeByte
  | .transport n m => .named (.transport n m)
  | .readFirst a => .frame .start (frameRF a)
  | .readNext => .frame .inRead frameRN
  | .finishReading => .frame .inRead frameEND
  | .writeFirst a v => .frame .start (frameWF a v)
  | .writeNext v => .frame .inWrite (frameWN v)
  | .finishWriting => .frame .inWrite frameEND
  | .readSingleByte a => .frames [frameRF a, frameEND]
  | .readSingleWord a => .frames [frameRF a, frameRN, frameEND]
  | .writeSingleByte a v => .frames [frameWF a v, frameEND]
  | .writeSingleWord a v => .frames [frameWF a (v.extractLsb' 0 8), frameWN (v.extractLsb' 8 8), frameEND]
  | .writeSingleQuad a v =>
    .frames [frameWF a (v.extractLsb' 0 8), frameWN (v.extractLsb' 8 8), frameWN (v.extractLsb' 16 8),
      frameWN (v.extractLsb' 24 8), frameEND]
  | .init => .named .init
  | .cmdInit => .host [0x69]
  | .cmdReset f => .host (0x72 :: hexField 1 f.toNat)
  | .cmdShow => .host [0x73]
  | .cmdRead a n => .host (blockBytes 0x52 a n)
  | .cmdWrite a n => .host (blockBytes 0x57 a n)
  | .cmdOther verb => .host [verb]

/-- The payload digits that follow a `W` command's count field: two per byte, the byte for the lowest address first (R70). -/
def payloadBytes (payload : List Byte) : List Byte := payload.flatMap fun b => hexField 2 b.toNat

/-- The instruction an encoding stands for, or why it stands for none: total on every Code. -/
def decodeCode : Code → CodeRead
  | .host bytes =>
    match decode bytes with
    | .command i [] => .instr i
    | .command _ (_ :: _) => .error .badLength
    | .dry => .error .badLength
    | .badDigit b => .error (.badDigit b)
  | .line f bits => decodeLine f bits
  | .frame p bits => decodeFrame p bits
  | .frames fs => decodeFrames fs
  | .named .resetOut => .instr .resetOut
  | .named .decodeByte => .instr .decodeByte
  | .named (.transport n m) => .instr (.transport n m)
  | .named .init => .instr .init

/-! ### The words of spec/opcode_table.json (log 20)

A host row's word is its verb byte in bits 7..0 and one byte for each argument digit above it. The table numbers no
argument bits (its rows "fix" only the verb byte), so an argument digit whose byte is zero in the word is the digit of
the value zero, which the host stream spells `0` (0x30). A wire row's word is its raw bits, index 0 in bit 0; its width
tells its format. -/

/-- How many bytes a command has before any payload (R72). -/
def headerLength (verb : Byte) : Nat :=
  if verb = 0x72 then 2 else if verb = 0x52 then 9 else if verb = 0x57 then 9 else 1

/-- The bytes of the host stream for a table word. -/
def hostBytesOfWord (w : Nat) : List Byte :=
  BitVec.ofNat 8 w ::
    (List.range (headerLength (BitVec.ofNat 8 w) - 1)).map fun k =>
      if w >>> (8 * (k + 1)) % 256 = 0 then 0x30 else BitVec.ofNat 8 (w >>> (8 * (k + 1)))

/-- The first `k` raw bits of a table word. -/
def rawBitsOfWord (k w : Nat) : List Bool := (List.range k).map fun i => w.testBit i

/-- The wire instruction of a table word, by the width of its row (raw bits, or those in whole bytes); host rows have
the other widths. -/
def wireOfWord (nbits w : Nat) : CodeRead :=
  match nbits with
  | 1 => decodeLine .rawBit (rawBitsOfWord 1 w)
  | 4 => decodeFrame .inRead (rawBitsOfWord 4 w)
  | 5 => decodeLine .symbol (rawBitsOfWord 5 w)
  | 45 => decodeLine .byte (rawBitsOfWord 45 w)
  | 48 => decodeLine .byte (rawBitsOfWord 45 w)
  | 50 => decodeLine .markedByte (rawBitsOfWord 50 w)
  | 56 => decodeLine .markedByte (rawBitsOfWord 50 w)
  | 100 => decodeLine .dataWord (rawBitsOfWord 100 w)
  | 104 => decodeLine .dataWord (rawBitsOfWord 100 w)
  | 204 => decodeFrame .start (rawBitsOfWord 204 w)
  | 208 => decodeFrame .start (rawBitsOfWord 204 w)
  | 250 => decodeFrame .start (rawBitsOfWord 250 w)
  | 256 => decodeFrame .start (rawBitsOfWord 250 w)
  | _ => .error .badLength

/-- The instruction the decoder reads from a table word. -/
def decodeTableWord (nbits w : Nat) : Option Instr :=
  match wireOfWord nbits w with
  | .instr i => some i
  | .error _ =>
    match decode (hostBytesOfWord w) with
    | .command i _ => some i
    | .dry => none
    | .badDigit _ => none

end Sys2Proof
end

