-- ==== Sys2Proof/Machine/Operands.lean ====
section
/-! DEFINITION. The operand and result forms: the bytes of addresses and values (R33, R34), the text of replies (R65, R74, R161), the candidate dividers (R143). -/

namespace Sys2Proof.Machine

/-- w[15:8]: the address byte that is sent first (R33), the value byte that is moved second (R34). -/
def highByte (w : Word) : Byte := w.extractLsb' 8 8

/-- w[7:0]: the address byte that is sent second (R33), the value byte that is moved first (R34). -/
def lowByte (w : Word) : Byte := w.extractLsb' 0 8

/-- Byte `k` of a u32, byte 0 the least significant (R34). -/
def quadByte (k : Nat) (v : Quad) : Byte := v.extractLsb' (8 * k) 8

/-- `zext_16(lo) | (zext_16(hi) << 8)` (R121). -/
def wordOfBytes (lo hi : Byte) : Word := lo.zeroExtend 16 ||| (hi.zeroExtend 16 <<< 8)

/-- `hex2(b)`: two lower-case hex digits, most significant nibble first (R8). -/
def hex2 (b : Byte) : List Byte := hexField 2 b.toNat

/-- The status characters of R74. -/
def charS : Byte := 0x53
/-- `E` (R74) -/
def charE : Byte := 0x45
/-- `?` (R74) -/
def charQuestion : Byte := 0x3f
/-- `#` (R74) -/
def charHash : Byte := 0x23

/-- Whether `p` stands somewhere in `t`. -/
def occursIn (p : List Byte) : List Byte → Bool
  | [] => p.isEmpty
  | b :: t => p.isPrefixOf (b :: t) || occursIn p t

/-- DIAG's text: "one line of text not containing EOL" (R7), whatever the free value gives. -/
def diagText (eol : List Byte) (c : DiagContext) : List Byte :=
  if occursIn eol (Config.diagText c) then [] else Config.diagText c

/-- The bytes of one HostPut (R151, R152, R161). -/
def Put.bytes (p : Params) : Put → List Byte
  | .text bytes => bytes
  | .eol => p.eol
  | .diag c => charHash :: diagText p.eol c
  | .banner => p.banner

/-- The reply stream as the bytes the host receives (R21, R151). -/
def State.replyBytes (s : State) : List Byte := s.hostOut.flatMap (Put.bytes s.params)

/-- How many dividers the scan has: the d = DIV_FIRST + k * DIV_STEP with d <= DIV_LAST (R143). -/
def candidateCount (p : Params) : Nat := (p.divLast + p.divStep - Config.divFirst) / p.divStep

/-- The candidate dividers in the order they are tried (R143). -/
def candidates (p : Params) : List Nat :=
  (List.range (candidateCount p)).map fun k => Config.divFirst + k * p.divStep

/-- A divider as the byte the clk-div register takes; it fits since `2 * d <= 254` (R144). -/
def dividerByte (d : Nat) : Byte := BitVec.ofNat 8 d

end Sys2Proof.Machine
end

