-- ==== Sys2Proof/Machine/Ops.lean ====
section
/-! DEFINITION. The named operations the meanings are made of: the raw bit buffers (R80, R86), the Transport call (R100), the decoder (R90), the host streams (R150 to R152), the reset line and the delay (R141), and SequenceError (R117). -/

namespace Sys2Proof.Machine

/-! ### How operations are strung together -/

/-- Go on after an operation that ended with a result; a stopped one stays stopped. -/
def Res.andThen {α β : Type} (r : Res α) (f : α → State → Res β) : Res β :=
  match r with
  | .done a s => f a s
  | .stopped e s => .stopped e s

/-- The state an operation leaves, stopped or not (R190). -/
def Res.state {α : Type} : Res α → State
  | .done _ s => s
  | .stopped _ s => s

/-- What the caller of an operation is handed back (log 9). -/
def State.returns (s : State) (r : Ret) : State := { s with ret := r }

/-- The state after a called operation, with its result handed back; a stopped one has no result. -/
def Res.report {α : Type} (r : Res α) (f : α → Ret) : State :=
  match r with
  | .done a s => s.returns (f a)
  | .stopped _ s => s

/-- `conn <- c` (R15) -/
def State.setConn (s : State) (c : Conn) : State := { s with conn := c }

/-- `txn <- t` (R16) -/
def State.setTxn (s : State) (t : Txn) : State := { s with txn := t }

/-! ### The outbound buffer -/

/-- `write_raw_bit(bit)` (R80): at capacity nothing happens (R12). -/
def writeRawBit (b : Bool) (s : State) : State :=
  if h : s.outCur < Config.bufCap then
    { s with outBuf := s.outBuf.set s.outCur b h, outCur := s.outCur + 1 }
  else s

/-- `reset_out()` (R86): the bits stay (R12). -/
def resetOut (s : State) : State := { s with outCur := 0 }

/-- The bits `out.buf[0..n-1]`, in index order. -/
def State.outBits (s : State) (n : Nat) : List Bool := s.outBuf.toList.take n

/-! ### The inbound buffer and the Transport call -/

/-- `in.buf[i] <- c[i]` from index `i` on; bits past the last captured one keep what they hold. -/
def storeFrom (i : Nat) (bits : List Bool) (buf : Vector Bool Config.bufCap) : Vector Bool Config.bufCap :=
  match bits with
  | [] => buf
  | b :: bits => storeFrom (i + 1) bits (if h : i < Config.bufCap then buf.set i b h else buf)

/-- The answer to the next call: the next one in `answers`, else a free one (R102, R103; log 4). -/
def State.nextAnswer (s : State) : Answer :=
  match s.answers with
  | a :: _ => a
  | [] => if Config.completes s.draws then .completes [] else .stalls

/-- Exactly M captured bits: those the answer gives, and a free bit for each it does not give (R103). -/
def capture (m : Nat) (bits : List Bool) (draw : Nat) : List Bool :=
  (List.range m).map fun i => bits.getD i (Config.capturedBit draw i)

/-- The state while the call of a given answer is made: the answer is used up. -/
def State.drawAnswer (s : State) : State := { s with answers := s.answers.tail, draws := s.draws + 1 }

/-- `Transport(N, M)` (R100): sends out.buf[0..N-1], refills in.buf[0..M-1], sets in.len; touches nothing else of the
block. If completion never comes the block hangs for good (R102) with out.buf, out.cur, txn, conn and rst as R181 names
them. What in.buf and in.len hold in a hung call the spec leaves open: R100 writes them before the wait that never ends,
R181 does not name them. That they keep what they held before the call is the model's choice (log 26). -/
def transport (n m : Nat) (s : State) : Res Unit :=
  match s.nextAnswer with
  | .stalls => .stopped .stall { s.drawAnswer with blocked := .inTransport }
  | .completes bits =>
    .done () { s.drawAnswer with
      inBuf := storeFrom 0 (capture m bits s.draws) s.inBuf
      inLen := m
      trace := s.trace ++ [.wire (s.outBits n) (capture m bits s.draws)] }

/-- The valid captured bits, `in.buf[0..in.len-1]` (R13). -/
def State.inBits (s : State) : List Bool := s.inBuf.toList.take s.inLen

/-! ### The decoder (R90 to R94) -/

/-- The run of equal levels at the front of the bits: how many there are. -/
def runLength (level : Bool) : List Bool → Nat
  | [] => 0
  | b :: bits => if b = level then runLength level bits + 1 else 0

/-- What follows the run of equal levels at the front. -/
def afterRun (level : Bool) : List Bool → List Bool
  | [] => []
  | b :: bits => if b = level then afterRun level bits else b :: bits

/-- The decision rule: 1 exactly when lowcount > highcount (R91). -/
def runBit (bits : List Bool) : Bool :=
  decide (runLength false bits > runLength true (afterRun false bits))

/-- What follows a low-run and a high-run. -/
def afterRuns (bits : List Bool) : List Bool := afterRun true (afterRun false bits)

/-- Step 2 of R90, `k` output bits to go: the result and the bits not consumed. EarlyReturn stops where the bits are
exhausted; ZeroFill goes on, and an exhausted bit decodes as 0 (R92). -/
def decodeRuns (policy : TruncPolicy) : Nat → Byte → List Bool → Byte × List Bool
  | 0, result, bits => (result, bits)
  | k + 1, result, bits =>
    if policy = .earlyReturn ∧ bits = [] then (result, bits)
    else decodeRuns policy k (result <<< 1 ||| (if runBit bits then 1 else 0)) (afterRuns bits)

/-- `decode_byte` on the valid bits: the result, and the value in.pos ends with (R90). -/
def decodeBits (policy : TruncPolicy) (bits : List Bool) : Byte × Nat :=
  ((decodeRuns policy 8 0 (afterRun true bits)).1,
    bits.length - (decodeRuns policy 8 0 (afterRun true bits)).2.length)

/-- The byte `decode_byte()` returns (R90). -/
def decodedByte (s : State) : Byte := (decodeBits s.params.truncPolicy s.inBits).1

/-- The state after `decode_byte()`: `in.pos` only (R90). -/
def afterDecode (s : State) : State := { s with inPos := (decodeBits s.params.truncPolicy s.inBits).2 }

/-! ### The host streams -/

/-- HostPut (R151): appends, never waits. -/
def State.put (s : State) (p : Put) : State := { s with hostOut := s.hostOut ++ [p] }

/-- `emit_line(s)` = HostPut(s ++ EOL) (R151), for a one-character status line. -/
def State.emitStatus (s : State) (c : Byte) : State := (s.put (.text [c])).put .eol

/-- `emit_line("#" ++ DIAG(context))` (R161). -/
def State.emitDiag (s : State) (c : DiagContext) : State := (s.put (.diag c)).put .eol

/-- `hex(k)` (R154) read from the host stream: a stream that runs dry leaves the block waiting in HostGet with every
byte read (R150), a byte that is no digit is HostArgumentError (R73). -/
def hostHex (k : Nat) (s : State) : Res Nat :=
  match readHex k s.hostIn with
  | .value v rest => .done v { s with hostIn := rest }
  | .dry => .stopped .hostDry { s with hostIn := [], blocked := .inHostGet }
  | .bad b => .stopped (.badDigit b) s

/-- The presence signal as sampled before a verb read (R152): the next sample in `presence`, else a free one (log 7). -/
def State.present (s : State) : Bool :=
  match s.presence with
  | p :: _ => p
  | [] => Config.present s.draws

/-- The banner check before each verb read (R152): absent clears `greeted`; present with `greeted` clear sends BANNER
and sets it. -/
def bannerCheck (s : State) : State :=
  { s with
    presence := s.presence.tail
    draws := s.draws + 1
    greeted := s.present
    hostOut := if s.present && !s.greeted then s.hostOut ++ [.banner] else s.hostOut }

/-! ### The reset line and the delay -/

/-- `SetRst(level)` (R17). -/
def State.setRst (s : State) (level : Bool) : State := { s with rst := level, trace := s.trace ++ [.setRst level] }

/-- `Delay(t)` (R8): no state of the block changes. -/
def State.delay (s : State) (t : Nat) : State := { s with trace := s.trace ++ [.delay t] }

/-! ### Errors (60_exceptions.md) -/

/-- SequenceError (R117, R185): the operation does nothing and reports the error to its caller. This is the one place an
error is raised that the block's caller sees; nothing is saved and no handler runs (R190), so there is no return from it
(R191). -/
def sequenceError {α : Type} (op : Primitive) (s : State) : Res α :=
  .stopped .sequenceError (s.returns (.sequenceError op s.txn))

end Sys2Proof.Machine
end

