-- ==== Sys2Proof/Machine/LineEncoder.lean ====
section
/-! DEFINITION. BitEncoder (40_line_encoder.md): the operations R81 to R85 as the rules write them, and the meanings of the L0 rows. -/

namespace Sys2Proof.Machine

/-- `n` raw bits of one level: a run. -/
def writeRun : Nat → Bool → State → State
  | 0, _, s => s
  | n + 1, b, s => writeRun n b (writeRawBit b s)

/-- `write_baked_bit(bit)` (R81): four low bits then one high bit, or one low bit then four high bits. -/
def writeBakedBit (b : Bool) (s : State) : State :=
  if b then writeRun Config.oneHigh true (writeRun Config.oneLow false s)
  else writeRun Config.zeroHigh true (writeRun Config.zeroLow false s)

/-- Bits n-1 down to 0 of a byte as symbols (the loop of R82). -/
def writeBitsDown (b : Byte) : Nat → State → State
  | 0, s => s
  | n + 1, s => writeBitsDown b n (writeBakedBit (b.getLsbD n) s)

/-- `write_byte(b)` (R82): bits 7 down to 0, then the framing symbol. -/
def writeByte (b : Byte) (s : State) : State := writeBakedBit Config.frameBit (writeBitsDown b 8 s)

/-- `write_cmd_byte(b)` (R83). -/
def writeCmdByte (b : Byte) (s : State) : State := writeByte b (writeBakedBit Config.markCmd s)

/-- `write_data_byte(b)` (R84). -/
def writeDataByte (b : Byte) (s : State) : State := writeByte b (writeBakedBit Config.markData s)

/-- `write_data_word(w)` (R85): high byte first. -/
def writeDataWord (w : Word) (s : State) : State := writeDataByte (lowByte w) (writeDataByte (highByte w) s)

/-- The four idle-low bits of frames RF and RN (R55, R56). -/
def writeIdle (s : State) : State := writeRun Config.idleBitCount false s

/-! ### Meanings -/

/-- `write_raw_bit` (R80) -/
def execWriteRawBit (b : Bool) (s : State) : Host.Outcome State Fault Refusal :=
  .next ((writeRawBit b s).returns .done)

/-- `write_baked_bit(1)` (R81) -/
def execWriteBakedOne (s : State) : Host.Outcome State Fault Refusal :=
  .next ((writeBakedBit true s).returns .done)

/-- `write_baked_bit(0)` (R81) -/
def execWriteBakedZero (s : State) : Host.Outcome State Fault Refusal :=
  .next ((writeBakedBit false s).returns .done)

/-- `write_byte` (R82) -/
def execWriteByte (b : Byte) (s : State) : Host.Outcome State Fault Refusal :=
  .next ((writeByte b s).returns .done)

/-- `write_cmd_byte` (R83) -/
def execWriteCmdByte (b : Byte) (s : State) : Host.Outcome State Fault Refusal :=
  .next ((writeCmdByte b s).returns .done)

/-- `write_data_byte` (R84) -/
def execWriteDataByte (b : Byte) (s : State) : Host.Outcome State Fault Refusal :=
  .next ((writeDataByte b s).returns .done)

/-- `write_data_word` (R85) -/
def execWriteDataWord (w : Word) (s : State) : Host.Outcome State Fault Refusal :=
  .next ((writeDataWord w s).returns .done)

/-- `reset_out` (R86) -/
def execResetOut (s : State) : Host.Outcome State Fault Refusal :=
  .next ((resetOut s).returns .done)

end Sys2Proof.Machine
end

