-- ==== Sys2Proof/Machine/Protocol.lean ====
section
/-! DEFINITION. DebugRegisterProtocol (43_register_protocol.md): the six primitive operations R111 to R116 over their common shape R118, the composites R120 to R124, and the meanings of the L1 rows. -/

namespace Sys2Proof.Machine

/-- The common shape of R118 up to the Transport call: check `txn` (R110), reset the cursor, build the frame, send all of
it (N = out.cur, D4) and capture M bits. -/
def primitive (op : Primitive) (build : State → State) (m : Nat) (s : State) : Res Unit :=
  if s.mayRun op then transport (build (resetOut s)).outCur m (build (resetOut s)) else sequenceError op s

/-- `decode_byte()` after the call of a read primitive. -/
def thenDecode (r : Res Unit) : Res Byte := r.andThen fun _ s => .done (decodedByte s) (afterDecode s)

/-- `txn <- t`: "changes when the operation's Transport call has returned" (R110). -/
def thenTxn {α : Type} (r : Res α) (t : Txn) : Res α := r.andThen fun a s => .done a (s.setTxn t)

/-- Frame RF (R55, R111). -/
def buildRF (a : Config.Address) (s : State) : State :=
  writeIdle (writeDataByte Config.modeRead (writeDataWord a (writeCmdByte Config.start s)))

/-- Frame RN (R56, R112). -/
def buildRN (s : State) : State := writeIdle s

/-- Frame END (R57, R113, R116). -/
def buildEND (s : State) : State := writeCmdByte Config.finish s

/-- Frame WF (R58, R114). -/
def buildWF (a : Config.Address) (v : Byte) (s : State) : State :=
  writeDataByte v (writeDataByte Config.modeWrite (writeDataWord a (writeCmdByte Config.start s)))

/-- Frame WN (R59, R115). -/
def buildWN (v : Byte) (s : State) : State := writeDataByte v s

/-- `read_first(address)` (R111). -/
def readFirst (a : Config.Address) (s : State) : Res Byte :=
  thenTxn (thenDecode (primitive .readFirst (buildRF a) Config.rxMargin s)) .reading

/-- `read_next()` (R112): txn is not written. -/
def readNext (s : State) : Res Byte := thenDecode (primitive .readNext buildRN Config.rxMargin s)

/-- `finish_reading()` (R113). -/
def finishReading (s : State) : Res Unit := thenTxn (primitive .finishReading buildEND 0 s) .closed

/-- `write_first(address, value)` (R114). -/
def writeFirst (a : Config.Address) (v : Byte) (s : State) : Res Unit :=
  thenTxn (primitive .writeFirst (buildWF a v) 0 s) .writing

/-- `write_next(value)` (R115): txn is not written. -/
def writeNext (v : Byte) (s : State) : Res Unit := primitive .writeNext (buildWN v) 0 s

/-- `finish_writing()` (R116). -/
def finishWriting (s : State) : Res Unit := thenTxn (primitive .finishWriting buildEND 0 s) .closed

/-! ### Composites -/

/-- `read_single_byte(address)` (R120). -/
def readSingleByte (a : Config.Address) (s : State) : Res Byte :=
  (readFirst a s).andThen fun v s => (finishReading s).andThen fun _ s => .done v s

/-- `read_single_word(address)` (R121): the first byte read is the low byte. -/
def readSingleWord (a : Config.Address) (s : State) : Res Word :=
  (readFirst a s).andThen fun lo s =>
    (readNext s).andThen fun hi s => (finishReading s).andThen fun _ s => .done (wordOfBytes lo hi) s

/-- `write_single_byte(address, v)` (R122). -/
def writeSingleByte (a : Config.Address) (v : Byte) (s : State) : Res Unit :=
  (writeFirst a v s).andThen fun _ s => finishWriting s

/-- `write_single_word(address, v)` (R123): low byte first. -/
def writeSingleWord (a : Config.Address) (v : Word) (s : State) : Res Unit :=
  (writeFirst a (lowByte v) s).andThen fun _ s =>
    (writeNext (highByte v) s).andThen fun _ s => finishWriting s

/-- `write_single_quad(address, v)` (R124): low byte first. -/
def writeSingleQuad (a : Config.Address) (v : Quad) (s : State) : Res Unit :=
  (writeFirst a (quadByte 0 v) s).andThen fun _ s =>
    (writeNext (quadByte 1 v) s).andThen fun _ s =>
      (writeNext (quadByte 2 v) s).andThen fun _ s =>
        (writeNext (quadByte 3 v) s).andThen fun _ s => finishWriting s

/-! ### Meanings -/

/-- `read_first` (R111) -/
def execReadFirst (a : Config.Address) (s : State) : Host.Outcome State Fault Refusal := .next ((readFirst a s).report .byte)

/-- `read_next` (R112) -/
def execReadNext (s : State) : Host.Outcome State Fault Refusal := .next ((readNext s).report .byte)

/-- `finish_reading` (R113) -/
def execFinishReading (s : State) : Host.Outcome State Fault Refusal :=
  .next ((finishReading s).report fun _ => .done)

/-- `write_first` (R114) -/
def execWriteFirst (a : Config.Address) (v : Byte) (s : State) : Host.Outcome State Fault Refusal :=
  .next ((writeFirst a v s).report fun _ => .done)

/-- `write_next` (R115) -/
def execWriteNext (v : Byte) (s : State) : Host.Outcome State Fault Refusal :=
  .next ((writeNext v s).report fun _ => .done)

/-- `finish_writing` (R116) -/
def execFinishWriting (s : State) : Host.Outcome State Fault Refusal :=
  .next ((finishWriting s).report fun _ => .done)

/-- `read_single_byte` (R120) -/
def execReadSingleByte (a : Config.Address) (s : State) : Host.Outcome State Fault Refusal :=
  .next ((readSingleByte a s).report .byte)

/-- `read_single_word` (R121) -/
def execReadSingleWord (a : Config.Address) (s : State) : Host.Outcome State Fault Refusal :=
  .next ((readSingleWord a s).report .word)

/-- `write_single_byte` (R122) -/
def execWriteSingleByte (a : Config.Address) (v : Byte) (s : State) : Host.Outcome State Fault Refusal :=
  .next ((writeSingleByte a v s).report fun _ => .done)

/-- `write_single_word` (R123) -/
def execWriteSingleWord (a : Config.Address) (v : Word) (s : State) : Host.Outcome State Fault Refusal :=
  .next ((writeSingleWord a v s).report fun _ => .done)

/-- `write_single_quad` (R124) -/
def execWriteSingleQuad (a : Config.Address) (v : Quad) (s : State) : Host.Outcome State Fault Refusal :=
  .next ((writeSingleQuad a v s).report fun _ => .done)

end Sys2Proof.Machine
end

