-- ==== Sys2Proof/Machine/Initializer.lean ====
section
/-! DEFINITION. TargetInitializer (44_target_initializer.md): `init`, R140 to R147. -/

namespace Sys2Proof.Machine

/-- The reset pulse (R141): asserted, held, deasserted, held. -/
def resetPulse (s : State) : State :=
  (((s.setRst false).delay s.params.resetHold).setRst true).delay s.params.resetHold

/-- What a match at divider `d` does (R144): double the divider, Connected, clear timer-control, success. -/
def onMatch (d : Nat) (s : State) : Res Bool :=
  (writeSingleByte Config.clkDivAddr (dividerByte (2 * d)) s).andThen fun _ s =>
    (writeSingleQuad Config.tmrCtlAddr 0 (s.setConn .connected)).andThen fun _ s => .done true s

/-- The scan over the candidates still to try (R143): program the divider, read the identity, stop at the first match;
with none left, Disconnected and failure (R145). -/
def scan : List Nat → State → Res Bool
  | [], s => .done false (s.setConn .disconnected)
  | d :: ds, s =>
    (writeSingleByte Config.clkDivAddr (dividerByte d) s).andThen fun _ s =>
      (readSingleWord Config.idAddr s).andThen fun id s =>
        if id = Config.idExpect then onMatch d s else scan ds s

/-- `init()` (R140). -/
def initTarget (s : State) : Res Bool :=
  (writeSingleByte Config.runStateAddr Config.haltValue ((resetPulse s).setConn .resetting)).andThen fun _ s =>
    scan (candidates s.params) (s.setConn .scanningSpeed)

/-- `init` (R140) -/
def execInit (s : State) : Host.Outcome State Fault Refusal := .next ((initTarget s).report .initResult)

end Sys2Proof.Machine
end

