-- ==== Sys2Proof/Machine/Commands.lean ====
section
/-! DEFINITION. CommandDispatcher (45_command_dispatcher.md): the host commands R155 to R160. A command that stops early (a stall, a dry host stream, a SequenceError) leaves what it did before that point and replies nothing more (R181, R150, R180; log 10). -/

namespace Sys2Proof.Machine

/-- `cmd_i()` (R155). -/
def cmdInit (s : State) : Res Unit :=
  (initTarget s).andThen fun ok s => .done () (s.emitStatus (if ok then charS else charE))

/-- `cmd_r()` after its flag (R156). -/
def cmdReset (flag : Nibble) (s : State) : State :=
  if flag = 0 then ((s.setRst false).setConn .disconnected).emitStatus charS
  else (s.setRst true).emitStatus charS

/-- `cmd_s()` (R157). -/
def cmdShow (s : State) : Res Unit :=
  (readSingleWord Config.idAddr s).andThen fun id s => .done () ((s.emitDiag (.identity id)).emitStatus charS)

/-- The `read_next` loop of `cmd_R()` (R158): each byte's two characters are emitted as the byte is read. -/
def readRest : Nat → State → Res Unit
  | 0, s => .done () s
  | n + 1, s => (readNext s).andThen fun v s => readRest n (s.put (.text (hex2 v)))

/-- `cmd_R()` after its fields, for a count above 0 (R158). -/
def cmdReadSome (a : Config.Address) (count : Nat) (s : State) : Res Unit :=
  (readFirst a s).andThen fun v s =>
    (readRest (count - 1) (s.put (.text (hex2 v)))).andThen fun _ s =>
      (finishReading s).andThen fun _ s => .done () ((s.put .eol).emitStatus charS)

/-- `cmd_R()` after its fields (R158). -/
def cmdRead (a : Config.Address) (n : Word) (s : State) : Res Unit :=
  if n = 0 then .done () (s.emitStatus charS) else cmdReadSome a n.toNat s

/-- One payload byte, `hex(2)` (R159). -/
def payloadByte (s : State) : Res Byte := (hostHex 2 s).andThen fun v s => .done (BitVec.ofNat 8 v) s

/-- The `write_next` loop of `cmd_W()` (R159): each payload byte is read just before it is sent. -/
def writeRest : Nat → State → Res Unit
  | 0, s => .done () s
  | n + 1, s => (payloadByte s).andThen fun v s => (writeNext v s).andThen fun _ s => writeRest n s

/-- `cmd_W()` after its fields, for a count above 0 (R159). -/
def cmdWriteSome (a : Config.Address) (count : Nat) (s : State) : Res Unit :=
  (payloadByte s).andThen fun v s =>
    (writeFirst a v s).andThen fun _ s =>
      (writeRest (count - 1) s).andThen fun _ s =>
        (finishWriting s).andThen fun _ s => .done () (s.emitStatus charS)

/-- `cmd_W()` after its fields (R159). -/
def cmdWrite (a : Config.Address) (n : Word) (s : State) : Res Unit :=
  if n = 0 then .done () (s.emitStatus charS) else cmdWriteSome a n.toNat s

/-- `cmd_other(verb)` (R160). -/
def cmdOther (verb : Byte) (s : State) : State := (s.emitStatus charQuestion).emitDiag (.unrecognized verb)

/-- The outcome of a command that reads host bytes while it runs: HostArgumentError is refused (R186), every other end
leaves its state. -/
def Res.outcome (r : Res Unit) : Host.Outcome State Fault Refusal :=
  match r with
  | .stopped (.badDigit b) _ => .refused (.hostArgumentError b)
  | .stopped .stall s => .next s
  | .stopped .hostDry s => .next s
  | .stopped .sequenceError s => .next s
  | .done _ s => .next s

/-! ### Meanings -/

/-- `i` (R155) -/
def execCmdInit (s : State) : Host.Outcome State Fault Refusal := .next (cmdInit s).state

/-- `r` (R156) -/
def execCmdReset (flag : Nibble) (s : State) : Host.Outcome State Fault Refusal := .next (cmdReset flag s)

/-- `s` (R157) -/
def execCmdShow (s : State) : Host.Outcome State Fault Refusal := .next (cmdShow s).state

/-- `R` (R158) -/
def execCmdRead (a : Config.Address) (n : Word) (s : State) : Host.Outcome State Fault Refusal := .next (cmdRead a n s).state

/-- `W` (R159) -/
def execCmdWrite (a : Config.Address) (n : Word) (s : State) : Host.Outcome State Fault Refusal := (cmdWrite a n s).outcome

/-- any other verb byte (R160) -/
def execCmdOther (verb : Byte) (s : State) : Host.Outcome State Fault Refusal := .next (cmdOther verb s)

end Sys2Proof.Machine
end

