-- ==== Sys2Proof/Machine/LineDecoder.lean ====
section
/-! DEFINITION. BitDecoder (41_line_decoder.md): the meaning of `decode_byte`. -/

namespace Sys2Proof.Machine

/-- `decode_byte` (R90): hands the byte back and moves in.pos. -/
def execDecodeByte (s : State) : Host.Outcome State Fault Refusal :=
  .next ((afterDecode s).returns (.byte (decodedByte s)))

end Sys2Proof.Machine
end

