-- ==== Sys2Proof/Machine/Transport.lean ====
section
/-! DEFINITION. WireTransport (42_wire_transport.md): the meaning of the external operation `Transport(N, M)`. -/

namespace Sys2Proof.Machine

/-- `Transport(N, M)` (R100) inside its "requires"; outside it the spec gives no effect. -/
def execTransport (n m : Nat) (s : State) : Host.Outcome State Fault Refusal :=
  if n ≤ s.outCur ∧ s.outCur ≤ Config.bufCap ∧ m ≤ Config.bufCap then
    .next ((transport n m s).report fun _ => .done)
  else .refused (.transportRequires n m)

end Sys2Proof.Machine
end

