-- ==== Sys2Proof/Machine/Dispatch.lean ====
section
/-! DEFINITION. One arm per constructor of Instr: each calls its meaning. -/

namespace Sys2Proof.Machine

def exec (i : Instr) (s : State) : Host.Outcome State Fault Refusal :=
  match i with
  | .writeRawBit b => Sys2Proof.Machine.execWriteRawBit b s
  | .writeBakedOne => Sys2Proof.Machine.execWriteBakedOne s
  | .writeBakedZero => Sys2Proof.Machine.execWriteBakedZero s
  | .writeByte b => Sys2Proof.Machine.execWriteByte b s
  | .writeCmdByte b => Sys2Proof.Machine.execWriteCmdByte b s
  | .writeDataByte b => Sys2Proof.Machine.execWriteDataByte b s
  | .writeDataWord w => Sys2Proof.Machine.execWriteDataWord w s
  | .resetOut => Sys2Proof.Machine.execResetOut s
  | .decodeByte => Sys2Proof.Machine.execDecodeByte s
  | .transport n m => Sys2Proof.Machine.execTransport n m s
  | .readFirst a => Sys2Proof.Machine.execReadFirst a s
  | .readNext => Sys2Proof.Machine.execReadNext s
  | .finishReading => Sys2Proof.Machine.execFinishReading s
  | .writeFirst a v => Sys2Proof.Machine.execWriteFirst a v s
  | .writeNext v => Sys2Proof.Machine.execWriteNext v s
  | .finishWriting => Sys2Proof.Machine.execFinishWriting s
  | .readSingleByte a => Sys2Proof.Machine.execReadSingleByte a s
  | .readSingleWord a => Sys2Proof.Machine.execReadSingleWord a s
  | .writeSingleByte a v => Sys2Proof.Machine.execWriteSingleByte a v s
  | .writeSingleWord a v => Sys2Proof.Machine.execWriteSingleWord a v s
  | .writeSingleQuad a v => Sys2Proof.Machine.execWriteSingleQuad a v s
  | .init => Sys2Proof.Machine.execInit s
  | .cmdInit => Sys2Proof.Machine.execCmdInit s
  | .cmdReset flag => Sys2Proof.Machine.execCmdReset flag s
  | .cmdShow => Sys2Proof.Machine.execCmdShow s
  | .cmdRead a n => Sys2Proof.Machine.execCmdRead a n s
  | .cmdWrite a n => Sys2Proof.Machine.execCmdWrite a n s
  | .cmdOther verb => Sys2Proof.Machine.execCmdOther verb s

end Sys2Proof.Machine
end

