-- ==== Sys2Proof/Machine/Fetch.lean ====
section
/-! DEFINITION. Where the next operation comes from: a pending call of a direct caller (D24), else the host stream by way of the main loop (R153). -/

namespace Sys2Proof.Machine

/-- What the block does next. -/
inductive Fetched where
  /-- run an operation in a state -/
  | run (i : Instr) (s : State)
  /-- it waits in HostGet, in a state -/
  | waits (s : State)
  /-- the model gives the input no meaning -/
  | refused (r : Refusal)

/-- The main loop up to the command's effect (R153): banner check, verb, arguments. -/
def fetchCommand (s : State) : Fetched :=
  match decode s.hostIn with
  | .command i rest => .run i { bannerCheck s with hostIn := rest }
  | .dry => .waits { bannerCheck s with hostIn := [], blocked := .inHostGet }
  | .badDigit b => .refused (.hostArgumentError b)

/-- The next operation: calls first, in order; with none pending the dispatcher reads the host stream (log 8). -/
def fetch (s : State) : Fetched :=
  match s.calls with
  | [] => fetchCommand s
  | i :: calls =>
    if i.wellFormed && !i.isHostCommand then .run i { s with calls := calls, ret := .none } else .refused (.notCallable i)

/-- A state in which the operation of a table word is what `fetch` finds (log 20, 21). -/
def placeTableWord (s : State) (nbits w : Nat) : State :=
  match wireOfWord nbits w with
  | .instr i => { s with calls := i :: s.calls, blocked := .running }
  | .error _ => { s with hostIn := hostBytesOfWord w ++ s.hostIn, calls := [], blocked := .running }

end Sys2Proof.Machine
end

