-- ==== Sys2Proof/Machine/Step.lean ====
section
/-! DEFINITION. One step of the block: the next operation, from its first statement to its end (R163). A block that is blocked never takes a step (R102, R150). -/

namespace Sys2Proof.Machine

/-- One step. -/
def step (s : State) : Host.Outcome State Fault Refusal :=
  match s.blocked with
  | .inTransport => .fault .transportStall
  | .inHostGet => .fault .hostStreamDry
  | .running =>
    match fetch s with
    | .run i s' => exec i s'
    | .waits s' => .next s'
    | .refused r => .refused r

/-- `s` with the instruction of a table word where `step` finds its next operation (log 20, 21). -/
def State.withFetchWord (s : State) (nbits w : Nat) : State := placeTableWord s nbits w

end Sys2Proof.Machine
end

