-- ==== Sys2Proof/Safety.lean ====
section
/-! DEFINITION. The terms the claims use: what a good state is, what a completed and a hung Transport call leave, what the reply stream says once the diagnostic lines are dropped, and which states no operation can tell apart. -/

namespace Sys2Proof.Machine

/-! ### Good states -/

/-- "a buffer's cursor never exceeds its capacity" (R11), and `0 <= in.len <= 4096` (R13). -/
def State.cursorsInRange (s : State) : Bool :=
  decide (s.outCur ≤ Config.bufCap) && decide (s.inLen ≤ Config.bufCap)

/-- Between two verb reads "txn is Idle or Closed, conn is Disconnected or Connected" (R163). -/
def State.atCommandBoundary (s : State) : Bool :=
  (s.txn == .idle || s.txn == .closed) && (s.conn == .disconnected || s.conn == .connected)

/-- The states of a block that only the host drives: no direct caller (D24), and at a command boundary unless it is
blocked inside a command. -/
def State.dispatcherInvariant (s : State) : Bool :=
  s.calls.isEmpty && (s.blocked != .running || s.atCommandBoundary)

/-- A safe run never hangs in the transport (R181) nor waits for a host byte that never comes (R150). -/
def State.safe (s : State) : Bool := s.blocked == .running

/-! ### Transport calls -/

/-- The transport answers the next calls by completing with these captures, one list per call. -/
def completing (cs : List (List Bool)) : List Answer := cs.map .completes

/-- The byte `decode_byte` makes of a capture under a policy (R90). -/
def byteOf (policy : TruncPolicy) (bits : List Bool) : Byte := (decodeBits policy bits).1

/-- What one completed call of `frame` with M captured bits leaves: the cursor at the frame's end, the frame in the
buffer's valid part, the stale bits above it kept (R12), the capture in the inbound buffer's valid part, the bits above
it kept (R100), and one event (R105). `c` are the bits the engine's answer gives. -/
def CompletedCall (s t : State) (frame : List Bool) (m : Nat) (c : List Bool) : Prop :=
  t.outCur = frame.length ∧
  t.outBits frame.length = frame ∧
  (∀ k (h : k < Config.bufCap), frame.length ≤ k → t.outBuf[k] = s.outBuf[k]) ∧
  t.inLen = m ∧
  t.inBits = capture m c s.draws ∧
  (∀ k (h : k < Config.bufCap), m ≤ k → t.inBuf[k] = s.inBuf[k]) ∧
  t.trace = s.trace ++ [.wire frame (capture m c s.draws)]

/-- What a whole transaction leaves of the buffers: the END frame is the last one sent (R57), nothing is captured by it,
and no bit at or above the longest frame `n` or the longest capture `m` is touched. -/
def EndsTransaction (s t : State) (n m : Nat) : Prop :=
  t.outCur = 50 ∧
  t.outBits 50 = frameEND ∧
  t.inLen = 0 ∧
  (∀ k (h : k < Config.bufCap), n ≤ k → t.outBuf[k] = s.outBuf[k]) ∧
  (∀ k (h : k < Config.bufCap), m ≤ k → t.inBuf[k] = s.inBuf[k])

/-- What an operation leaves whose next call, that of `frame`, never completes (R181): the frame stands in the outbound
buffer, the block is inside the call and never takes another step, and no bit at or above the longest frame `n` or the
longest capture `m` is touched. -/
def HangsSending (s t : State) (frame : List Bool) (n m : Nat) : Prop :=
  t.blocked = .inTransport ∧
  step t = .fault .transportStall ∧
  t.outCur = frame.length ∧
  t.outBits frame.length = frame ∧
  (∀ k (h : k < Config.bufCap), n ≤ k → t.outBuf[k] = s.outBuf[k]) ∧
  (∀ k (h : k < Config.bufCap), m ≤ k → t.inBuf[k] = s.inBuf[k])

/-- The five frames of R55 to R59 with the sizes of R63 and R104. -/
def ProtocolCall (sent : List Bool) (m : Nat) : Prop :=
  ((∃ a, sent = frameRF a) ∧ sent.length = 204 ∧ m = 100) ∨
  (sent = frameRN ∧ sent.length = 4 ∧ m = 100) ∨
  (sent = frameEND ∧ sent.length = 50 ∧ m = 0) ∨
  ((∃ a v, sent = frameWF a v) ∧ sent.length = 250 ∧ m = 0) ∨
  ((∃ v, sent = frameWN v) ∧ sent.length = 50 ∧ m = 0)

/-- What completed primitives leave in txn, told from the last of their calls (R111 to R116): END closes, a call that
captures is a read's, any other a write's. `before` is what it holds where there is no call. -/
def txnAfter (before : Txn) (calls : List (List Bool × List Bool)) : Txn :=
  match calls.getLast? with
  | none => before
  | some call => if call.1 = frameEND then .closed else if call.2.length = 100 then .reading else .writing

/-- An event that is no Transport call, or one of the five kinds of call. -/
def ProtocolEvent : Event → Prop
  | .wire sent captured => ProtocolCall sent captured.length
  | .setRst _ => True
  | .delay _ => True

/-! ### The initializer's traffic (R140 to R145) -/

/-- The two bytes of an identity read as a word, low byte first (R34, R121). -/
def identityOf (policy : TruncPolicy) (lo hi : List Bool) : Word := byteOf policy hi ++ byteOf policy lo

/-- The reset pulse (R141). -/
def pulseEvents (hold : Nat) : List Event := [.setRst false, .delay hold, .setRst true, .delay hold]

/-- The halt write (R142). -/
def haltEvents : List Event := [.wire (frameWF 0x0602 0x05) [], .wire frameEND []]

/-- One candidate: program the divider, read the identity (R143). -/
def probeEvents (d : Nat) (lo hi : List Bool) : List Event :=
  [.wire (frameWF 0x00b2 (BitVec.ofNat 8 d)) [], .wire frameEND [], .wire (frameRF 0x007e) lo, .wire frameRN hi,
    .wire frameEND []]

/-- What a match does on the wire: the doubled divider, then four zero bytes to timer-control (R144). -/
def matchEvents (d : Nat) : List Event :=
  [.wire (frameWF 0x00b2 (BitVec.ofNat 8 (2 * d))) [], .wire frameEND [], .wire (frameWF 0x0620 0) [],
    .wire (frameWN 0) [], .wire (frameWN 0) [], .wire (frameWN 0) [], .wire frameEND []]

/-- The probes of candidates that miss, from the `k`-th on. -/
def missEvents (first step : Nat) : List (List Bool × List Bool) → List Event
  | [] => []
  | m :: ms => probeEvents first m.1 m.2 ++ missEvents (first + step) step ms

/-- The engine's answers to one probe. -/
def probeAnswers (m : List Bool × List Bool) : List Answer := completing [[], [], m.1, m.2, []]

/-! ### Replies (R74, R75) -/

/-- The lines of a reply from an unfinished line on, the `#` lines dropped (R161); BANNER is no part of a line. -/
def linesFrom (line : List Byte) (isDiag : Bool) : List Put → List (List Byte)
  | [] => []
  | .text bytes :: ps => linesFrom (line ++ bytes) isDiag ps
  | .diag _ :: ps => linesFrom line true ps
  | .banner :: ps => linesFrom line isDiag ps
  | .eol :: ps => if isDiag then linesFrom [] false ps else line :: linesFrom [] false ps

/-- "The machine-parsable reply of a command is its lines with the `#` lines removed" (R74). -/
def replyLines (ps : List Put) : List (List Byte) := linesFrom [] false ps

/-- The lines `S`, `E` and `?` (R74). -/
def lineS : List Byte := [0x53]
/-- `E` -/
def lineE : List Byte := [0x45]
/-- `?` -/
def lineQuestion : List Byte := [0x3f]

/-- The two characters that spell a byte in a payload line: "only lowercase hex digit pairs" (R74). -/
def lowerPair (b : Byte) : List Byte :=
  let digit : Nat → Byte := fun n =>
    [0x30, 0x31, 0x32, 0x33, 0x34, 0x35, 0x36, 0x37, 0x38, 0x39, 0x61, 0x62, 0x63, 0x64, 0x65, 0x66].getD n 0
  [digit (b.toNat / 16), digit (b.toNat % 16)]

/-! ### Host text -/

/-- Two hex digits that spell a byte, most significant first, in either case (R65). -/
def Spells (c1 c2 : Byte) (b : Byte) : Prop :=
  ∃ v1 v2, hexValue c1 = some v1 ∧ hexValue c2 = some v2 ∧ b.toNat = 16 * v1 + v2

/-- Hex digits behind the verb `r` (R67), `R` (R69) or `W` (R70) that are fewer than its fields need: 1, 8 and 8. -/
def PartOfFields (verb : Byte) (digits : List Byte) : Prop :=
  (∀ d ∈ digits, hexValue d ≠ none) ∧
    ((verb = 0x72 ∧ digits.length < 1) ∨ ((verb = 0x52 ∨ verb = 0x57) ∧ digits.length < 8))

/-- The digits of a payload, each byte with its two digits. -/
def payloadText (payload : List ((Byte × Byte) × Byte)) : List Byte := payload.flatMap fun p => [p.1.1, p.1.2]

/-- Each byte of a payload is spelled by its digits. -/
def SpelledPayload (payload : List ((Byte × Byte) × Byte)) : Prop := ∀ p ∈ payload, Spells p.1.1 p.1.2 p.2

/-- The frames a payload is sent in: WF with the first byte, then WN (R159). -/
def payloadSent (a : Word) : List Byte → List (List Bool)
  | [] => []
  | v :: vs => frameWF a v :: vs.map frameWN

/-- The calls a payload is sent in. -/
def payloadFrames (a : Word) (payload : List Byte) : List Event := (payloadSent a payload).map fun sent => .wire sent []

/-- The calls a block read makes: RF, then RN (R158), with their captures. -/
def readFrames (a : Word) : List (List Bool) → List Event
  | [] => []
  | c :: cs => .wire (frameRF a) c :: cs.map fun c => .wire frameRN c

/-! ### States no operation can tell apart -/

/-- Two states that differ at most in `conn`, which gates nothing (R15), and in the bits of the buffers at and above
`out.cur` and `in.len`, which are never read (R12, R13, R227). -/
def Indistinguishable (s t : State) : Prop :=
  s.outBits s.outCur = t.outBits t.outCur ∧
  s.inBits = t.inBits ∧
  t = { s with outBuf := t.outBuf, inBuf := t.inBuf, conn := t.conn }

/-- Outcomes of two runs that only an observer of `conn` or of stale bits could tell apart. -/
def IndistinguishableOutcomes : Host.Outcome State Fault Refusal → Host.Outcome State Fault Refusal → Prop
  | .next s, .next t => Indistinguishable s t
  | .fault a, .fault b => a = b
  | .refused a, .refused b => a = b
  | _, _ => False

end Sys2Proof.Machine
end

