-- ==== Sys2Proof/Certificates/Slice0/Obligations.lean ====
section
/-! DEFINITION. The statements for the provers. Each formalises rules of spec/; the docstring names them. -/

open Sys2Proof Sys2Proof.Machine

/-! ### L0: the line encoder -/

/-- R80 to R85, R87: `write_raw_bit`, `write_baked_bit(1)`, `write_baked_bit(0)`, `write_byte`, `write_cmd_byte`,
`write_data_byte` and `write_data_word` store the 1, 5, 45, 50, 50 and 100 bits of their encoding from out.cur on, as
many as fit, and change nothing else of the block. -/
def Obligations.LineOperationAppendsItsEncoding : Prop :=
  ∀ (i : Instr) (f : LineFormat) (bits : List Bool) (s : State),
    encode i = .line f bits → s.outCur ≤ 4096 →
    bits.length = (match f with
      | .rawBit => 1
      | .symbol => 5
      | .byte => 45
      | .markedByte => 50
      | .dataWord => 100) ∧
    ∃ t, exec i s = .next t ∧
      t.outCur = min (s.outCur + bits.length) 4096 ∧
      t.outBits t.outCur = s.outBits s.outCur ++ bits.take (4096 - s.outCur) ∧
      (∀ k (h : k < Config.bufCap), t.outCur ≤ k → t.outBuf[k] = s.outBuf[k]) ∧
      t = { s with outBuf := t.outBuf, outCur := t.outCur, ret := .done }

/-- R51 to R54: the encodings' raw bits, most significant bit of a byte first, with the framing symbol and the marker. -/
def Obligations.EncodingsAreSymbolsMostSignificantFirst : Prop :=
  encode .writeBakedOne = .line .symbol [false, false, false, false, true] ∧
  encode .writeBakedZero = .line .symbol [false, true, true, true, true] ∧
  (∀ b, encode (.writeRawBit b) = .line .rawBit [b]) ∧
  (∀ b : Byte, ∃ bits, encode (.writeByte b) = .line .byte bits ∧ bits.length = 45 ∧
    bits = (List.range 8).flatMap (fun i => symbolBits (b.getLsbD (7 - i))) ++ [false, true, true, true, true]) ∧
  (∀ b : Byte, encode (.writeCmdByte b) = .line .markedByte ([false, false, false, false, true] ++ byteBits b)) ∧
  (∀ b : Byte, encode (.writeDataByte b) = .line .markedByte ([false, true, true, true, true] ++ byteBits b)) ∧
  (∀ w : Word, encode (.writeDataWord w) =
    .line .dataWord (markedBits false (w.extractLsb' 8 8) ++ markedBits false (w.extractLsb' 0 8)))

/-- R55 to R59: the five frames symbol by symbol, each with its markers, framing symbols and raw idle bits; the last five
clauses say which operation sends which. A symbol is written as its logical bit and spelled by R51's raw bits. -/
def Obligations.FramesAreSpelledInSymbols : Prop :=
  let baked : List Bool → List Bool := fun bits =>
    bits.flatMap fun b => if b then [false, false, false, false, true] else [false, true, true, true, true]
  let start := [true, false, true, false, true, true, false, true, false, false]
  let high : Word → List Bool := fun a => (List.range 8).map fun i => a.getLsbD (15 - i)
  let low : Word → List Bool := fun a => (List.range 8).map fun i => a.getLsbD (7 - i)
  let value : Byte → List Bool := fun v => (List.range 8).map fun i => v.getLsbD (7 - i)
  (∀ a, frameRF a = baked (start ++ [false] ++ high a ++ [false] ++ [false] ++ low a ++ [false] ++
      [false, true, false, false, false, false, false, false, false, false]) ++ [false, false, false, false]) ∧
  frameRN = [false, false, false, false] ∧
  frameEND = baked [true, true, true, true, true, true, true, true, true, false] ∧
  (∀ a v, frameWF a v = baked (start ++ [false] ++ high a ++ [false] ++ [false] ++ low a ++ [false] ++
      [false, false, false, false, false, false, false, false, false, false] ++ [false] ++ value v ++ [false])) ∧
  (∀ v, frameWN v = baked ([false] ++ value v ++ [false])) ∧
  (∀ a, encode (.readFirst a) = .frame .start (frameRF a)) ∧
  encode .readNext = .frame .inRead frameRN ∧
  encode .finishReading = .frame .inRead frameEND ∧ encode .finishWriting = .frame .inWrite frameEND ∧
  (∀ a v, encode (.writeFirst a v) = .frame .start (frameWF a v)) ∧
  (∀ v, encode (.writeNext v) = .frame .inWrite (frameWN v))

/-- R12: at capacity a raw-bit write changes nothing and reports nothing, however often it is made. -/
def Obligations.WriteAtCapacityIsDropped : Prop :=
  ∀ (b : Bool) (s : State), s.outCur = 4096 → exec (.writeRawBit b) s = .next { s with ret := .done }

/-- R86: `reset_out` writes out.cur only; the bits stay. -/
def Obligations.ResetOutClearsOnlyTheCursor : Prop :=
  ∀ s : State, exec .resetOut s = .next { s with outCur := 0, ret := .done }

/-- R88: inside a run of symbols no low-run and no high-run is longer than 4, and each symbol alone has the run lengths
4 and 1 or 1 and 4, from which the decision rule recovers its bit. -/
def Obligations.SymbolRunsRecoverTheBitAndStayShort : Prop :=
  (∀ b : Bool, runLength false (symbolBits b) = (if b then 4 else 1) ∧
    runLength true (afterRun false (symbolBits b)) = (if b then 1 else 4) ∧ runBit (symbolBits b) = b) ∧
  (∀ (bs : List Bool) (level : Bool) (before after : List Bool),
    bs.flatMap symbolBits ≠ before ++ List.replicate 5 level ++ after)

/-! ### L0: the line decoder -/

/-- R61, R90, R91, R92: leading high bits, then eight pairs of a low-run and a high-run, the last high-run ended by a low
bit or by the end of the capture, decode to the byte whose bits, most significant first, are 1 exactly where the low-run
is longer; under either policy; in.pos ends after the eighth high-run. Where the capture ends inside the eighth pair,
its last bit is decided from the runs it has: the low-run may be cut and the high-run missing. -/
def Obligations.DecodeByteComparesRunLengths : Prop :=
  ∀ (s : State) (high : Nat) (runs : List (Nat × Nat)) (tail : List Bool),
    runs.length = 8 → (∀ r ∈ runs, 0 < r.1) → (∀ r ∈ runs.dropLast, 0 < r.2) →
    (tail = [] ∨ ∀ r ∈ runs, 0 < r.2) → tail.head? ≠ some true →
    s.inBits = List.replicate high true ++
      runs.flatMap (fun r => List.replicate r.1 false ++ List.replicate r.2 true) ++ tail →
    exec .decodeByte s = .next { s with
      inPos := high + (runs.map fun r => r.1 + r.2).sum
      ret := .byte (ofMsbFirst (runs.map fun r => decide (r.1 > r.2))) }

/-- R93: `reset_out`, `write_byte(b)`, an ideal loopback and `decode_byte` give b back with in.pos = 40, under either
policy; so does a capture of the same bits behind any high bits and in front of any others; a command or data byte, with
its marker in front, decodes to the marker followed by b[7:1]. -/
def Obligations.LoopbackReproducesEveryByte : Prop :=
  (∀ (s t u : State) (b : Byte), exec .resetOut s = .next t → exec (.writeByte b) t = .next u →
    exec .decodeByte { u with inBuf := u.outBuf, inLen := u.outCur } =
      .next { u with inBuf := u.outBuf, inLen := u.outCur, inPos := 40, ret := .byte b }) ∧
  (∀ (s : State) (b : Byte) (high : Nat) (others : List Bool),
    s.inBits = List.replicate high true ++ byteBits b ++ others →
    exec .decodeByte s = .next { s with inPos := high + 40, ret := .byte b }) ∧
  (∀ (s : State) (marker : Bool) (b : Byte) (high : Nat) (others : List Bool),
    s.inBits = List.replicate high true ++ markedBits marker b ++ others →
    exec .decodeByte s = .next { s with
      inPos := high + 40
      ret := .byte (BitVec.ofBool marker ++ b.extractLsb' 1 7) })

/-- R92: a capture that is exhausted before eight bits are recovered, after j < 8 pairs of a low-run and a high-run the
last of which may be cut short, or lack its high-run, gives the j bits decided from those runs, right-aligned under
EarlyReturn and left-aligned with zeros below under ZeroFill; nothing signals it. -/
def Obligations.TruncatedDecodeFollowsThePolicy : Prop :=
  ∀ (s : State) (high : Nat) (runs : List (Nat × Nat)),
    runs.length < 8 → (∀ r ∈ runs, 0 < r.1) → (∀ r ∈ runs.dropLast, 0 < r.2) →
    s.inBits = List.replicate high true ++
      runs.flatMap (fun r => List.replicate r.1 false ++ List.replicate r.2 true) →
    exec .decodeByte s = .next { s with
      inPos := high + (runs.map fun r => r.1 + r.2).sum
      ret := .byte (match s.params.truncPolicy with
        | .earlyReturn => ofMsbFirst (runs.map fun r => decide (r.1 > r.2))
        | .zeroFill => ofMsbFirst (runs.map fun r => decide (r.1 > r.2)) <<< (8 - runs.length)) }

/-- R94, R228: a capture that stayed high decodes to 0x00, one that stayed low to 0x01 under EarlyReturn and 0x80 under
ZeroFill; both exhaust the capture. -/
def Obligations.SilentAndStuckLinesDecodeToFixedBytes : Prop :=
  (∀ (s : State) (n : Nat), s.inBits = List.replicate n true →
    exec .decodeByte s = .next { s with inPos := n, ret := .byte 0x00 }) ∧
  (∀ (s : State) (n : Nat), 0 < n → s.inBits = List.replicate n false →
    exec .decodeByte s = .next { s with
      inPos := n
      ret := .byte (match s.params.truncPolicy with
        | .earlyReturn => 0x01
        | .zeroFill => 0x80) })

/-- R90, R14: on every capture `decode_byte` returns some byte, writes in.pos only, and leaves it within the capture. -/
def Obligations.DecodeByteAlwaysReturnsAByte : Prop :=
  ∀ s : State, ∃ t v, exec .decodeByte s = .next t ∧ t.inPos ≤ s.inLen ∧
    t = { s with inPos := t.inPos, ret := .byte v }

/-! ### Transport -/

/-- R100: a Transport call that completes, within its "requires": the captured bits refill in.buf[0..M-1], in.len is M,
everything else of the block stays; the call is one event. -/
def Obligations.TransportCapturesExactlyM : Prop :=
  ∀ (s : State) (n m : Nat) (c : List Bool),
    n ≤ s.outCur → s.outCur ≤ 4096 → m ≤ 4096 → s.nextAnswer = .completes c →
    ∃ t, exec (.transport n m) s = .next t ∧
      t.inBits = capture m c s.draws ∧ (m ≤ c.length → t.inBits = c.take m) ∧
      (∀ k (h : k < Config.bufCap), m ≤ k → t.inBuf[k] = s.inBuf[k]) ∧
      t = { s with
        inBuf := t.inBuf, inLen := m, ret := .done, answers := s.answers.tail, draws := s.draws + 1,
        trace := s.trace ++ [.wire (s.outBits n) (capture m c s.draws)] }

/-- R100: outside its "requires" `Transport(N, M)` has no effect in the spec; the model refuses it by name. -/
def Obligations.TransportOutsideItsRequiresIsRefused : Prop :=
  ∀ (s : State) (n m : Nat), s.outCur < n ∨ 4096 < s.outCur ∨ 4096 < m →
    exec (.transport n m) s = .refused (.transportRequires n m)

/-- R102, R181: a call that never completes leaves the block blocked with the frame in out.buf and everything it did
before, and the block never takes another step. That the hang is a state (log 5) and that in.buf and in.len keep what
they held (log 26) are the model's choices. -/
def Obligations.StalledTransportHangsTheBlock : Prop :=
  (∀ (s : State) (n m : Nat),
    n ≤ s.outCur → s.outCur ≤ 4096 → m ≤ 4096 → s.nextAnswer = .stalls →
    exec (.transport n m) s = .next { s with blocked := .inTransport, answers := s.answers.tail, draws := s.draws + 1 }) ∧
  (∀ s : State, s.blocked = .inTransport → step s = .fault .transportStall)

/-- R181, R110: a primitive whose call stalls has built its frame; txn, conn, rst, the replies and the events are what
they were before it. That in.buf and in.len keep what they held is the model's choice (log 26). -/
def Obligations.StalledPrimitiveKeepsTxn : Prop :=
  ∀ (s : State) (op : Primitive) (i : Instr) (frame : List Bool),
    ((∃ a, i = .readFirst a ∧ op = .readFirst ∧ frame = frameRF a) ∨
      (i = .readNext ∧ op = .readNext ∧ frame = frameRN) ∨
      (i = .finishReading ∧ op = .finishReading ∧ frame = frameEND) ∨
      (∃ a v, i = .writeFirst a v ∧ op = .writeFirst ∧ frame = frameWF a v) ∨
      (∃ v, i = .writeNext v ∧ op = .writeNext ∧ frame = frameWN v) ∨
      (i = .finishWriting ∧ op = .finishWriting ∧ frame = frameEND)) →
    (s.params.enforceSequence = true → s.txn.admits op = true) → s.nextAnswer = .stalls →
    ∃ t, exec i s = .next t ∧ t.outBits frame.length = frame ∧
      (∀ k (h : k < Config.bufCap), frame.length ≤ k → t.outBuf[k] = s.outBuf[k]) ∧
      t = { s with
        outBuf := t.outBuf, outCur := frame.length, blocked := .inTransport, answers := s.answers.tail, draws := s.draws + 1 }

/-! ### L1: the transaction state machine and the primitives -/

/-- R110, R117: with ENFORCE_SEQUENCE, a primitive in a state the table marks "error" does nothing and reports
SequenceError. -/
def Obligations.OutOfOrderPrimitiveIsRejected : Prop :=
  ∀ (s : State) (op : Primitive) (i : Instr),
    ((∃ a, i = .readFirst a ∧ op = .readFirst) ∨ (i = .readNext ∧ op = .readNext) ∨
      (i = .finishReading ∧ op = .finishReading) ∨ (∃ a v, i = .writeFirst a v ∧ op = .writeFirst) ∨
      (∃ v, i = .writeNext v ∧ op = .writeNext) ∨ (i = .finishWriting ∧ op = .finishWriting)) →
    s.params.enforceSequence = true →
    (s.txn, op) ∉ [(Txn.idle, Primitive.readFirst), (.closed, .readFirst), (.idle, .writeFirst), (.closed, .writeFirst),
      (.reading, .readNext), (.reading, .finishReading), (.writing, .writeNext), (.writing, .finishWriting)] →
    exec i s = .next { s with ret := .sequenceError op s.txn }

/-- R120 to R124, R117: a composite called inside an open transaction is stopped by its first primitive before anything
is sent. -/
def Obligations.CompositeInsideATransactionIsRejected : Prop :=
  ∀ (s : State) (a : Word), s.params.enforceSequence = true → s.txn = .reading ∨ s.txn = .writing →
    exec (.readSingleByte a) s = .next { s with ret := .sequenceError .readFirst s.txn } ∧
    exec (.readSingleWord a) s = .next { s with ret := .sequenceError .readFirst s.txn } ∧
    (∀ v, exec (.writeSingleByte a v) s = .next { s with ret := .sequenceError .writeFirst s.txn }) ∧
    (∀ v, exec (.writeSingleWord a v) s = .next { s with ret := .sequenceError .writeFirst s.txn }) ∧
    (∀ v, exec (.writeSingleQuad a v) s = .next { s with ret := .sequenceError .writeFirst s.txn })

/-- R111, R55: `read_first` sends frame RF, captures 100 bits, returns the decoded byte and opens a read transaction. -/
def Obligations.ReadFirstSendsRFAndReturnsTheByte : Prop :=
  ∀ (s : State) (a : Word) (c : List Bool),
    (s.params.enforceSequence = true → s.txn = .idle ∨ s.txn = .closed) → s.nextAnswer = .completes c →
    ∃ t, exec (.readFirst a) s = .next t ∧ CompletedCall s t (frameRF a) 100 c ∧
      t = { s with
        outBuf := t.outBuf, outCur := 204, inBuf := t.inBuf, inLen := 100
        inPos := (decodeBits s.params.truncPolicy (capture 100 c s.draws)).2
        txn := .reading, ret := .byte (byteOf s.params.truncPolicy (capture 100 c s.draws))
        trace := t.trace, answers := s.answers.tail, draws := s.draws + 1 }

/-- R112, R56: `read_next` sends the four idle-low bits, captures 100 bits and returns the decoded byte; txn stays. -/
def Obligations.ReadNextClocksOneByte : Prop :=
  ∀ (s : State) (c : List Bool),
    (s.params.enforceSequence = true → s.txn = .reading) → s.nextAnswer = .completes c →
    ∃ t, exec .readNext s = .next t ∧ CompletedCall s t [false, false, false, false] 100 c ∧
      t = { s with
        outBuf := t.outBuf, outCur := 4, inBuf := t.inBuf, inLen := 100
        inPos := (decodeBits s.params.truncPolicy (capture 100 c s.draws)).2
        ret := .byte (byteOf s.params.truncPolicy (capture 100 c s.draws))
        trace := t.trace, answers := s.answers.tail, draws := s.draws + 1 }

/-- R113, R116, R57: both finish operations send END, capture nothing and close the transaction. -/
def Obligations.FinishOperationsSendENDAndClose : Prop :=
  ∀ (s : State) (c : List Bool), s.nextAnswer = .completes c →
    ((s.params.enforceSequence = true → s.txn = .reading) →
      ∃ t, exec .finishReading s = .next t ∧ CompletedCall s t frameEND 0 c ∧
        t = { s with
          outBuf := t.outBuf, outCur := 50, inBuf := t.inBuf, inLen := 0, txn := .closed, ret := .done
          trace := t.trace, answers := s.answers.tail, draws := s.draws + 1 }) ∧
    ((s.params.enforceSequence = true → s.txn = .writing) →
      ∃ t, exec .finishWriting s = .next t ∧ CompletedCall s t frameEND 0 c ∧
        t = { s with
          outBuf := t.outBuf, outCur := 50, inBuf := t.inBuf, inLen := 0, txn := .closed, ret := .done
          trace := t.trace, answers := s.answers.tail, draws := s.draws + 1 })

/-- R114, R58: `write_first` sends frame WF, captures nothing and opens a write transaction. -/
def Obligations.WriteFirstSendsWF : Prop :=
  ∀ (s : State) (a : Word) (v : Byte) (c : List Bool),
    (s.params.enforceSequence = true → s.txn = .idle ∨ s.txn = .closed) → s.nextAnswer = .completes c →
    ∃ t, exec (.writeFirst a v) s = .next t ∧ CompletedCall s t (frameWF a v) 0 c ∧
      t = { s with
        outBuf := t.outBuf, outCur := 250, inBuf := t.inBuf, inLen := 0, txn := .writing, ret := .done
        trace := t.trace, answers := s.answers.tail, draws := s.draws + 1 }

/-- R115, R59: `write_next` sends one data byte, captures nothing; txn stays. -/
def Obligations.WriteNextSendsOneDataByte : Prop :=
  ∀ (s : State) (v : Byte) (c : List Bool),
    (s.params.enforceSequence = true → s.txn = .writing) → s.nextAnswer = .completes c →
    ∃ t, exec (.writeNext v) s = .next t ∧ CompletedCall s t (markedBits false v) 0 c ∧
      t = { s with
        outBuf := t.outBuf, outCur := 50, inBuf := t.inBuf, inLen := 0, ret := .done
        trace := t.trace, answers := s.answers.tail, draws := s.draws + 1 }

/-- R110, D9: with ENFORCE_SEQUENCE = false the table is void: no primitive reports SequenceError in any txn state. -/
def Obligations.UnenforcedSequenceAdmitsEverything : Prop :=
  ∀ (s : State) (i : Instr) (t : State), s.params.enforceSequence = false → s.ret = .none →
    exec i s = .next t → ∀ op x, t.ret ≠ .sequenceError op x

/-! ### L1: the composites -/

/-- R120: `read_single_byte` is the calls RF and END; its result is the byte decoded from the first. -/
def Obligations.ReadSingleByteReturnsTheFirstCapture : Prop :=
  ∀ (s : State) (a : Word) (c0 c1 : List Bool) (rest : List Answer),
    (s.params.enforceSequence = true → s.txn = .idle ∨ s.txn = .closed) →
    s.answers = completing [c0, c1] ++ rest →
    ∃ t, exec (.readSingleByte a) s = .next t ∧ EndsTransaction s t 204 100 ∧
      t.trace = s.trace ++ [.wire (frameRF a) (capture 100 c0 s.draws), .wire frameEND []] ∧
      t = { s with
        outBuf := t.outBuf, outCur := t.outCur, inBuf := t.inBuf, inLen := t.inLen, inPos := t.inPos, txn := .closed
        ret := .byte (byteOf s.params.truncPolicy (capture 100 c0 s.draws))
        trace := t.trace, answers := rest, draws := s.draws + 2 }

/-- R121, R34: `read_single_word` is the calls RF, RN and END; the first byte read is the low byte. -/
def Obligations.ReadSingleWordIsLittleEndian : Prop :=
  ∀ (s : State) (a : Word) (c0 c1 c2 : List Bool) (rest : List Answer),
    (s.params.enforceSequence = true → s.txn = .idle ∨ s.txn = .closed) →
    s.answers = completing [c0, c1, c2] ++ rest →
    ∃ t, exec (.readSingleWord a) s = .next t ∧ EndsTransaction s t 204 100 ∧
      t.trace = s.trace ++ [.wire (frameRF a) (capture 100 c0 s.draws), .wire frameRN (capture 100 c1 (s.draws + 1)),
        .wire frameEND []] ∧
      t = { s with
        outBuf := t.outBuf, outCur := t.outCur, inBuf := t.inBuf, inLen := t.inLen, inPos := t.inPos, txn := .closed
        ret := .word (byteOf s.params.truncPolicy (capture 100 c1 (s.draws + 1)) ++
          byteOf s.params.truncPolicy (capture 100 c0 s.draws))
        trace := t.trace, answers := rest, draws := s.draws + 3 }

/-- R122 to R124, R34, C1: the write composites send WF, then WN for each further byte (0, 1 and 3 of them), low byte
first, then END. -/
def Obligations.WriteCompositesSendLowByteFirst : Prop :=
  ∀ (s : State) (a : Word) (rest : List Answer),
    (s.params.enforceSequence = true → s.txn = .idle ∨ s.txn = .closed) →
    (∀ (v : Byte) (c0 c1 : List Bool), s.answers = completing [c0, c1] ++ rest →
      ∃ t, exec (.writeSingleByte a v) s = .next t ∧ EndsTransaction s t 250 0 ∧
        t = { s with
          outBuf := t.outBuf, outCur := 50, inBuf := t.inBuf, inLen := 0, txn := .closed, ret := .done
          trace := s.trace ++ [.wire (frameWF a v) [], .wire frameEND []]
          answers := rest, draws := s.draws + 2 }) ∧
    (∀ (v : Word) (c0 c1 c2 : List Bool), s.answers = completing [c0, c1, c2] ++ rest →
      ∃ t, exec (.writeSingleWord a v) s = .next t ∧ EndsTransaction s t 250 0 ∧
        t = { s with
          outBuf := t.outBuf, outCur := 50, inBuf := t.inBuf, inLen := 0, txn := .closed, ret := .done
          trace := s.trace ++ [.wire (frameWF a (v.extractLsb' 0 8)) [], .wire (frameWN (v.extractLsb' 8 8)) [],
            .wire frameEND []]
          answers := rest, draws := s.draws + 3 }) ∧
    (∀ (v : Quad) (c0 c1 c2 c3 c4 : List Bool), s.answers = completing [c0, c1, c2, c3, c4] ++ rest →
      ∃ t, exec (.writeSingleQuad a v) s = .next t ∧ EndsTransaction s t 250 0 ∧
        t = { s with
          outBuf := t.outBuf, outCur := 50, inBuf := t.inBuf, inLen := 0, txn := .closed, ret := .done
          trace := s.trace ++ [.wire (frameWF a (v.extractLsb' 0 8)) [], .wire (frameWN (v.extractLsb' 8 8)) [],
            .wire (frameWN (v.extractLsb' 16 8)) [], .wire (frameWN (v.extractLsb' 24 8)) [], .wire frameEND []]
          answers := rest, draws := s.draws + 5 })

/-- R76: a composite is its expansion. Where the primitives of its expansion, called one after the other, each return,
the composite ends in the same state; a read composite hands back what was read. -/
def Obligations.CompositesAreTheirExpansions : Prop :=
  (∀ (s t w : State) (a : Word) (lo : Byte),
    exec (.readFirst a) s = .next t → t.blocked = .running → t.ret = .byte lo →
    exec .finishReading t = .next w → w.blocked = .running → w.ret = .done →
    exec (.readSingleByte a) s = .next { w with ret := .byte lo }) ∧
  (∀ (s t u w : State) (a : Word) (lo hi : Byte),
    exec (.readFirst a) s = .next t → t.blocked = .running → t.ret = .byte lo →
    exec .readNext t = .next u → u.blocked = .running → u.ret = .byte hi →
    exec .finishReading u = .next w → w.blocked = .running → w.ret = .done →
    exec (.readSingleWord a) s = .next { w with ret := .word (hi ++ lo) }) ∧
  (∀ (s t w : State) (a : Word) (v : Byte),
    exec (.writeFirst a v) s = .next t → t.blocked = .running → t.ret = .done →
    exec .finishWriting t = .next w → w.blocked = .running → w.ret = .done →
    exec (.writeSingleByte a v) s = .next w) ∧
  (∀ (s t u w : State) (a v : Word),
    exec (.writeFirst a (v.extractLsb' 0 8)) s = .next t → t.blocked = .running → t.ret = .done →
    exec (.writeNext (v.extractLsb' 8 8)) t = .next u → u.blocked = .running → u.ret = .done →
    exec .finishWriting u = .next w → w.blocked = .running → w.ret = .done →
    exec (.writeSingleWord a v) s = .next w) ∧
  (∀ (s t u x y w : State) (a : Word) (v : Quad),
    exec (.writeFirst a (v.extractLsb' 0 8)) s = .next t → t.blocked = .running → t.ret = .done →
    exec (.writeNext (v.extractLsb' 8 8)) t = .next u → u.blocked = .running → u.ret = .done →
    exec (.writeNext (v.extractLsb' 16 8)) u = .next x → x.blocked = .running → x.ret = .done →
    exec (.writeNext (v.extractLsb' 24 8)) x = .next y → y.blocked = .running → y.ret = .done →
    exec .finishWriting y = .next w → w.blocked = .running → w.ret = .done →
    exec (.writeSingleQuad a v) s = .next w)

/-! ### L2: the initializer -/

/-- R140 to R144, R155: where the identity reads of the first candidates miss and the next one's gives 0x5316, `init`
pulses the reset line, halts the target, tries the dividers in ascending order, stops at the first match, writes the
doubled divider, becomes Connected, clears timer-control and succeeds; `i` does the same and replies `S`. -/
def Obligations.InitConnectsAtTheFirstMatchingDivider : Prop :=
  ∀ (s : State) (misses : List (List Bool × List Bool)) (lo hi : List Bool) (rest : List Answer),
    s.params.legal = true → (s.params.enforceSequence = true → s.txn = .idle ∨ s.txn = .closed) →
    3 + misses.length * s.params.divStep ≤ s.params.divLast →
    (∀ m ∈ misses, m.1.length = 100 ∧ m.2.length = 100 ∧ identityOf s.params.truncPolicy m.1 m.2 ≠ 0x5316) →
    lo.length = 100 → hi.length = 100 → identityOf s.params.truncPolicy lo hi = 0x5316 →
    s.answers = completing [[], []] ++ misses.flatMap probeAnswers ++ probeAnswers (lo, hi) ++
      completing [[], [], [], [], [], [], []] ++ rest →
    ∃ t, exec .init s = .next t ∧
      exec .cmdInit s = .next { t with ret := s.ret, hostOut := s.hostOut ++ [.text lineS, .eol] } ∧
      EndsTransaction s t 250 100 ∧
      t = { s with
        outBuf := t.outBuf, outCur := 50, inBuf := t.inBuf, inLen := 0, inPos := t.inPos
        conn := .connected, txn := .closed, rst := true, ret := .initResult true
        trace := s.trace ++ pulseEvents s.params.resetHold ++ haltEvents ++ missEvents 3 s.params.divStep misses ++
          probeEvents (3 + misses.length * s.params.divStep) lo hi ++
          matchEvents (3 + misses.length * s.params.divStep)
        answers := rest, draws := s.draws + 5 * misses.length + 14 }

/-- R140, R143, R145, R155: where every candidate's identity read misses, `init` has tried them all in ascending order,
ends Disconnected with the reset line deasserted and fails; `i` does the same and replies `E`. -/
def Obligations.InitFailsWhenEveryDividerMisses : Prop :=
  ∀ (s : State) (misses : List (List Bool × List Bool)) (rest : List Answer),
    s.params.legal = true → (s.params.enforceSequence = true → s.txn = .idle ∨ s.txn = .closed) →
    3 + (misses.length - 1) * s.params.divStep ≤ s.params.divLast →
    s.params.divLast < 3 + misses.length * s.params.divStep →
    (∀ m ∈ misses, m.1.length = 100 ∧ m.2.length = 100 ∧ identityOf s.params.truncPolicy m.1 m.2 ≠ 0x5316) →
    s.answers = completing [[], []] ++ misses.flatMap probeAnswers ++ rest →
    ∃ t, exec .init s = .next t ∧
      exec .cmdInit s = .next { t with ret := s.ret, hostOut := s.hostOut ++ [.text lineE, .eol] } ∧
      EndsTransaction s t 250 100 ∧
      t = { s with
        outBuf := t.outBuf, outCur := 50, inBuf := t.inBuf, inLen := 0, inPos := t.inPos
        conn := .disconnected, txn := .closed, rst := true, ret := .initResult false
        trace := s.trace ++ pulseEvents s.params.resetHold ++ haltEvents ++ missEvents 3 s.params.divStep misses
        answers := rest, draws := s.draws + 5 * misses.length + 2 }

/-! ### L2: the host commands -/

/-- R155, R182: `i` is `init` and then one reply line: where the called `init` succeeds, `S`, where it fails, `E`, and
where it does not come to its end, none; nothing else differs. That it replies nothing where `init` is refused inside a
direct caller's open transaction is the model's choice (log 10, DEDUCED). -/
def Obligations.InitCommandIsInitAndAReply : Prop :=
  ∀ s : State, ∃ t u, exec .init { s with ret := .none } = .next t ∧ exec .cmdInit s = .next u ∧
    (∀ success, t.ret = .initResult success →
      u = { t with ret := s.ret, hostOut := s.hostOut ++ [.text (if success then lineS else lineE), .eol] }) ∧
    ((∀ success, t.ret ≠ .initResult success) → u = { t with ret := u.ret } ∧ u.hostOut = s.hostOut)

/-- R156: `r0` asserts the reset line, makes conn Disconnected whatever it was and replies `S`; any other flag deasserts
the line, leaves conn as it is and replies `S`. -/
def Obligations.ResetCommandDrivesTheLine : Prop :=
  ∀ s : State,
    exec (.cmdReset 0) s = .next { s with
      rst := false, conn := .disconnected, trace := s.trace ++ [.setRst false]
      hostOut := s.hostOut ++ [.text lineS, .eol] } ∧
    ∀ flag : Nibble, flag ≠ 0 → exec (.cmdReset flag) s = .next { s with
      rst := true, trace := s.trace ++ [.setRst true], hostOut := s.hostOut ++ [.text lineS, .eol] }

/-- R157, R161, R151: `s` reads the identity word in three calls, emits one `#` line that carries it and then `S`, whatever
it is; conn does not change. The host receives `#`, a text without EOL, EOL, `S` and EOL. -/
def Obligations.ShowCommandReportsTheIdentity : Prop :=
  ∀ (s : State) (c0 c1 c2 : List Bool) (rest : List Answer),
    (s.params.enforceSequence = true → s.txn = .idle ∨ s.txn = .closed) →
    s.answers = completing [c0, c1, c2] ++ rest →
    ∃ t out text, exec .cmdShow s = .next t ∧ EndsTransaction s t 204 100 ∧ replyLines out = [lineS] ∧
      t.replyBytes = s.replyBytes ++ (0x23 :: text) ++ s.params.eol ++ [0x53] ++ s.params.eol ∧
      (s.params.eol ≠ [] → ¬ s.params.eol <:+: text) ∧
      out = [.diag (.identity (identityOf s.params.truncPolicy (capture 100 c0 s.draws) (capture 100 c1 (s.draws + 1)))),
        .eol, .text lineS, .eol] ∧
      t = { s with
        outBuf := t.outBuf, outCur := t.outCur, inBuf := t.inBuf, inLen := t.inLen, inPos := t.inPos, txn := .closed
        hostOut := s.hostOut ++ out
        trace := s.trace ++ [.wire (frameRF 0x007e) (capture 100 c0 s.draws),
          .wire frameRN (capture 100 c1 (s.draws + 1)), .wire frameEND []]
        answers := rest, draws := s.draws + 3 }

/-- R158, R126: `R` with a count above 0 makes count + 1 calls (RF, RN, END), prints the decoded bytes in address order
as lower-case hex pairs on one line, then `S`; with count 0 it makes no call and replies `S` only. -/
def Obligations.ReadCommandPrintsThePayload : Prop :=
  (∀ (s : State) (a n : Word) (caps : List (List Bool)) (c : List Bool) (rest : List Answer),
    (s.params.enforceSequence = true → s.txn = .idle ∨ s.txn = .closed) →
    0 < n.toNat → caps.length = n.toNat → (∀ c ∈ caps, c.length = 100) →
    s.answers = completing (caps ++ [c]) ++ rest →
    ∃ t out, exec (.cmdRead a n) s = .next t ∧ EndsTransaction s t 204 100 ∧
      replyLines out = [caps.flatMap fun c => lowerPair (byteOf s.params.truncPolicy c), lineS] ∧
      out = (caps.map fun c => .text (lowerPair (byteOf s.params.truncPolicy c))) ++ [.eol, .text lineS, .eol] ∧
      t = { s with
        outBuf := t.outBuf, outCur := t.outCur, inBuf := t.inBuf, inLen := t.inLen, inPos := t.inPos, txn := .closed
        hostOut := s.hostOut ++ out
        trace := s.trace ++ readFrames a caps ++ [.wire frameEND []]
        answers := rest, draws := s.draws + n.toNat + 1 }) ∧
  (∀ (s : State) (a : Word), exec (.cmdRead a 0) s = .next { s with hostOut := s.hostOut ++ [.text lineS, .eol] })

/-- R159, R126: `W` with a count above 0 reads its payload from the host stream, two digits a byte in either case, sends
it in count + 1 calls (WF, WN, END), first byte first, leaves the rest of the stream unread and replies `S`; with count
0 it reads no payload, makes no call and replies `S`. -/
def Obligations.WriteCommandSendsThePayload : Prop :=
  (∀ (s : State) (a n : Word) (payload : List ((Byte × Byte) × Byte)) (more : List Byte) (cs : List (List Bool))
    (rest : List Answer),
    (s.params.enforceSequence = true → s.txn = .idle ∨ s.txn = .closed) →
    0 < n.toNat → payload.length = n.toNat → SpelledPayload payload → s.hostIn = payloadText payload ++ more →
    cs.length = n.toNat + 1 → s.answers = completing cs ++ rest →
    ∃ t, exec (.cmdWrite a n) s = .next t ∧ EndsTransaction s t 250 0 ∧
      t = { s with
        outBuf := t.outBuf, outCur := t.outCur, inBuf := t.inBuf, inLen := t.inLen, txn := .closed
        hostIn := more, hostOut := s.hostOut ++ [.text lineS, .eol]
        trace := s.trace ++ payloadFrames a (payload.map Prod.snd) ++ [.wire frameEND []]
        answers := rest, draws := s.draws + n.toNat + 1 }) ∧
  (∀ (s : State) (a : Word), exec (.cmdWrite a 0) s = .next { s with hostOut := s.hostOut ++ [.text lineS, .eol] })

/-- R160, R184, R161, R151: an unrecognized verb replies `?`, then one `#` line; nothing else changes. The host receives
`?`, EOL, `#`, a text without EOL, and EOL. -/
def Obligations.UnrecognizedVerbRepliesQuestionMark : Prop :=
  ∀ (s : State) (verb : Byte), ∃ t out text, exec (.cmdOther verb) s = .next t ∧ replyLines out = [lineQuestion] ∧
    out = [.text lineQuestion, .eol, .diag (.unrecognized verb), .eol] ∧
    t.replyBytes = s.replyBytes ++ [0x3f] ++ s.params.eol ++ (0x23 :: text) ++ s.params.eol ∧
    (s.params.eol ≠ [] → ¬ s.params.eol <:+: text) ∧
    t = { s with hostOut := s.hostOut ++ out }

/-- R181, R190, R158, R157, R120 to R124, R159, R140: an operation whose call after k completed ones never completes has
done what the k calls do and no more: it makes no further call, replies nothing more and never steps again (that the hang
is a state is the model's choice, log 5; nothing is said of in.len, which log 26 chooses). In turn: `R`, with the first k
bytes printed, no EOL and no status; the read composites and `s`; the write composites; `W`, which has read the payload
byte it was sending and no further one. Of these the statement gives the k calls, the stalled frame and txn, what it was
for k = 0 and Reading or Writing otherwise. Last `init` and `i`, wherever their call stalls: of these it says that the
pulse and then k protocol calls have been made, that the stalled frame is a protocol frame, and that txn is what the last
of the k calls left (Closed, Reading or Writing; for k = 0 what it was); it does not say which calls they are. -/
def Obligations.StalledReadCommandKeepsItsPrefix : Prop :=
  (∀ (s : State) (a n : Word) (caps : List (List Bool)) (rest : List Answer),
    (s.params.enforceSequence = true → s.txn = .idle ∨ s.txn = .closed) →
    0 < n.toNat → caps.length ≤ n.toNat → (∀ c ∈ caps, c.length = 100) →
    s.answers = completing caps ++ .stalls :: rest →
    ∃ t, exec (.cmdRead a n) s = .next t ∧
      HangsSending s t (if caps = [] then frameRF a else if caps.length < n.toNat then frameRN else frameEND) 204 100 ∧
      t = { s with
        outBuf := t.outBuf, outCur := t.outCur, inBuf := t.inBuf, inLen := t.inLen, inPos := t.inPos
        txn := if caps = [] then s.txn else .reading
        hostOut := s.hostOut ++ caps.map fun c => .text (lowerPair (byteOf s.params.truncPolicy c))
        trace := s.trace ++ readFrames a caps
        blocked := .inTransport, answers := rest, draws := s.draws + caps.length + 1 }) ∧
  (∀ (s : State) (i : Instr) (sent : List (List Bool)) (caps : List (List Bool)) (rest : List Answer),
    ((∃ a, i = .readSingleByte a ∧ sent = [frameRF a, frameEND]) ∨
      (∃ a, i = .readSingleWord a ∧ sent = [frameRF a, frameRN, frameEND]) ∨
      (i = .cmdShow ∧ sent = [frameRF 0x007e, frameRN, frameEND])) →
    (s.params.enforceSequence = true → s.txn = .idle ∨ s.txn = .closed) →
    caps.length < sent.length → (∀ c ∈ caps, c.length = 100) → s.answers = completing caps ++ .stalls :: rest →
    ∃ t, exec i s = .next t ∧ HangsSending s t (sent.getD caps.length []) 204 100 ∧
      t = { s with
        outBuf := t.outBuf, outCur := t.outCur, inBuf := t.inBuf, inLen := t.inLen, inPos := t.inPos
        txn := if caps = [] then s.txn else .reading
        trace := s.trace ++ (sent.zip caps).map fun call => .wire call.1 call.2
        blocked := .inTransport, answers := rest, draws := s.draws + caps.length + 1 }) ∧
  (∀ (s : State) (i : Instr) (sent : List (List Bool)) (cs : List (List Bool)) (rest : List Answer),
    ((∃ a v, i = .writeSingleByte a v ∧ sent = [frameWF a v, frameEND]) ∨
      (∃ a v, i = .writeSingleWord a v ∧
        sent = [frameWF a (v.extractLsb' 0 8), frameWN (v.extractLsb' 8 8), frameEND]) ∨
      (∃ a v, i = .writeSingleQuad a v ∧
        sent = [frameWF a (v.extractLsb' 0 8), frameWN (v.extractLsb' 8 8), frameWN (v.extractLsb' 16 8),
          frameWN (v.extractLsb' 24 8), frameEND])) →
    (s.params.enforceSequence = true → s.txn = .idle ∨ s.txn = .closed) →
    cs.length < sent.length → s.answers = completing cs ++ .stalls :: rest →
    ∃ t, exec i s = .next t ∧ HangsSending s t (sent.getD cs.length []) 250 0 ∧
      t = { s with
        outBuf := t.outBuf, outCur := t.outCur, inBuf := t.inBuf, inLen := t.inLen
        txn := if cs = [] then s.txn else .writing
        trace := s.trace ++ (sent.take cs.length).map fun frame => .wire frame []
        blocked := .inTransport, answers := rest, draws := s.draws + cs.length + 1 }) ∧
  (∀ (s : State) (a n : Word) (payload : List ((Byte × Byte) × Byte)) (more : List Byte) (cs : List (List Bool))
    (rest : List Answer),
    (s.params.enforceSequence = true → s.txn = .idle ∨ s.txn = .closed) →
    0 < n.toNat → cs.length ≤ n.toNat → payload.length = min (cs.length + 1) n.toNat → SpelledPayload payload →
    s.hostIn = payloadText payload ++ more → s.answers = completing cs ++ .stalls :: rest →
    ∃ t, exec (.cmdWrite a n) s = .next t ∧
      HangsSending s t ((payloadSent a (payload.map Prod.snd) ++ [frameEND]).getD cs.length []) 250 0 ∧
      t = { s with
        outBuf := t.outBuf, outCur := t.outCur, inBuf := t.inBuf, inLen := t.inLen
        txn := if cs = [] then s.txn else .writing
        hostIn := more
        trace := s.trace ++ (payloadFrames a (payload.map Prod.snd)).take cs.length
        blocked := .inTransport, answers := rest, draws := s.draws + cs.length + 1 }) ∧
  (∀ (s t : State) (i : Instr), i = .init ∨ i = .cmdInit → s.blocked = .running → exec i s = .next t →
    t.blocked = .inTransport →
    ∃ (calls : List (List Bool × List Bool)) (frame : List Bool) (m : Nat),
      (∀ call ∈ calls, ProtocolCall call.1 call.2.length) ∧ ProtocolCall frame m ∧ HangsSending s t frame 250 100 ∧
      (t.conn = .resetting ∨ t.conn = .scanningSpeed ∨ t.conn = .connected) ∧
      t = { s with
        outBuf := t.outBuf, outCur := t.outCur, inBuf := t.inBuf, inLen := t.inLen, inPos := t.inPos
        conn := t.conn, txn := txnAfter s.txn calls, rst := true
        trace := s.trace ++ pulseEvents s.params.resetHold ++ calls.map fun call => .wire call.1 call.2
        blocked := .inTransport, answers := s.answers.drop (calls.length + 1), draws := s.draws + calls.length + 1 })

/-- R159, R150: a `W` whose host stops after k < count payload bytes and at most one more digit has sent those k bytes
and waits in HostGet with the transaction open; it replies nothing and never steps again. -/
def Obligations.StarvedWriteCommandWaitsInHostGet : Prop :=
  ∀ (s : State) (a n : Word) (payload : List ((Byte × Byte) × Byte)) (tail : List Byte) (cs : List (List Bool))
    (rest : List Answer),
    (s.params.enforceSequence = true → s.txn = .idle ∨ s.txn = .closed) →
    payload.length < n.toNat → SpelledPayload payload →
    (tail = [] ∨ ∃ c v, tail = [c] ∧ hexValue c = some v) → s.hostIn = payloadText payload ++ tail →
    cs.length = payload.length → s.answers = completing cs ++ rest →
    ∃ t, exec (.cmdWrite a n) s = .next t ∧ step t = .fault .hostStreamDry ∧
      t = { s with
        outBuf := t.outBuf, outCur := t.outCur, inBuf := t.inBuf, inLen := t.inLen
        txn := if payload = [] then s.txn else .writing
        hostIn := [], blocked := .inHostGet
        trace := s.trace ++ payloadFrames a (payload.map Prod.snd)
        answers := rest, draws := s.draws + payload.length }

/-- R73, R186: a byte that is no hex digit where one is needed is refused: behind the verb `r`, `R` or `W` and fewer digits
than its fields need by the dispatcher, whatever follows; in a payload by `W`, after the payload bytes before it. -/
def Obligations.BadDigitIsRefused : Prop :=
  (∀ (s : State) (verb : Byte) (digits : List Byte) (bad : Byte) (more : List Byte),
    s.blocked = .running → s.calls = [] → PartOfFields verb digits → hexValue bad = none →
    s.hostIn = verb :: digits ++ bad :: more → step s = .refused (.hostArgumentError bad)) ∧
  (∀ (s : State) (a n : Word) (payload : List ((Byte × Byte) × Byte)) (first : List Byte) (bad : Byte)
    (more : List Byte) (cs : List (List Bool)) (rest : List Answer),
    (s.params.enforceSequence = true → s.txn = .idle ∨ s.txn = .closed) →
    payload.length < n.toNat → SpelledPayload payload →
    (first = [] ∨ ∃ c v, first = [c] ∧ hexValue c = some v) → hexValue bad = none →
    s.hostIn = payloadText payload ++ first ++ bad :: more →
    cs.length = payload.length → s.answers = completing cs ++ rest →
    exec (.cmdWrite a n) s = .refused (.hostArgumentError bad))

/-- The model's choice (log 10, DEDUCED from R117, R180 and R190): a host command whose first primitive is refused
because a direct caller left a transaction open sends nothing, replies nothing and ends; the error is reported. `W` has
read its first payload byte by then; `i`, like `init`, has made its reset pulse and stands at Resetting. -/
def Obligations.CommandInsideAnOpenTransactionRepliesNothing : Prop :=
  ∀ (s : State) (a n : Word), s.params.enforceSequence = true → s.txn = .reading ∨ s.txn = .writing → n ≠ 0 →
    exec .cmdShow s = .next { s with ret := .sequenceError .readFirst s.txn } ∧
    exec (.cmdRead a n) s = .next { s with ret := .sequenceError .readFirst s.txn } ∧
    (∀ (c1 c2 b : Byte) (more : List Byte), Spells c1 c2 b → s.hostIn = c1 :: c2 :: more →
      exec (.cmdWrite a n) s = .next { s with hostIn := more, ret := .sequenceError .writeFirst s.txn }) ∧
    ∀ i, i = Instr.cmdInit ∨ i = Instr.init → exec i s = .next { s with
      rst := true, conn := .resetting, trace := s.trace ++ pulseEvents s.params.resetHold
      ret := .sequenceError .writeFirst s.txn }

/-! ### The host language -/

/-- R65, R154: a field of k hex digits has the value whose base-16 digits they are, most significant first. -/
def Obligations.HexFieldIsMostSignificantFirst : Prop :=
  ∀ (cs : List Byte) (ds : List Nat) (rest : List Byte), cs.map hexValue = ds.map some →
    readHex cs.length (cs ++ rest) = .value (Nat.ofDigits 16 ds.reverse) rest

/-- R65, R74: which bytes are hex digits, and their values; both cases are accepted. The digits that the block writes are
lower-case: `0` to `9` and `a` to `f`. -/
def Obligations.HexDigitsInBothCases : Prop :=
  (∀ c : Byte, hexValue c =
    if c.toNat < 0x30 then none else if c.toNat ≤ 0x39 then some (c.toNat - 0x30)
    else if c.toNat < 0x41 then none else if c.toNat ≤ 0x46 then some (c.toNat - 0x41 + 10)
    else if c.toNat < 0x61 then none else if c.toNat ≤ 0x66 then some (c.toNat - 0x61 + 10)
    else none) ∧
  (∀ n < 16, (hexDigit n).toNat = if n < 10 then 0x30 + n else 0x61 + (n - 10)) ∧
  ∀ b : Byte, hex2 b = lowerPair b

/-- R72: a command takes exactly its length from the stream (`W` up to its count field), and leaves the rest. -/
def Obligations.DecodeTakesExactlyTheCommand : Prop :=
  ∀ (stream rest : List Byte) (i : Instr), decode stream = .command i rest →
    ∃ verb args, stream = verb :: args ++ rest ∧ i.isHostCommand = true ∧ i.wellFormed = true ∧
      args.length + 1 = match i with
        | .cmdReset _ => 2
        | .cmdRead _ _ => 9
        | .cmdWrite _ _ => 9
        | _ => 1

/-- R66 to R71: a host command's bytes in front of any others decode to it and leave the others, with every operand. -/
def Obligations.HostCommandDecodesInFrontOfAnything : Prop :=
  ∀ (i : Instr) (bytes rest : List Byte), i.wellFormed = true → encode i = .host bytes →
    decode (bytes ++ rest) = .command i rest

/-- R50 to R76: decoding the encoding of a well-formed instruction, of every row of the table, gives it back with every
operand. -/
def Obligations.DecodeOfEncodeIsTheInstruction : Prop :=
  ∀ i : Instr, i.wellFormed = true → decodeCode (encode i) = .instr i

/-- R66 to R71, R55, R57: a few words written out from the spec decode to the instructions they stand for. -/
def Obligations.SampleWordsDecode : Prop :=
  decode [0x69] = .command .cmdInit [] ∧
  decode [0x72, 0x66] = .command (.cmdReset 0xf) [] ∧
  decode [0x73, 0x69] = .command .cmdShow [0x69] ∧
  decode [0x52, 0x30, 0x30, 0x37, 0x45, 0x30, 0x30, 0x30, 0x32] = .command (.cmdRead 0x007e 2) [] ∧
  decode [0x57, 0x30, 0x30, 0x30, 0x30, 0x30, 0x30, 0x30, 0x32, 0x30, 0x31] = .command (.cmdWrite 0 2) [0x30, 0x31] ∧
  decode [0x0a] = .command (.cmdOther 0x0a) [] ∧
  decodeCode (.frame .inRead [false, false, false, false]) = .instr .readNext

/-! ### Steps -/

/-- R153, R152: where the host stream's front decodes to a command, a step is the banner check and then the command's
meaning on the rest of the stream. -/
def Obligations.StepRunsTheDecodedCommand : Prop :=
  ∀ (s : State) (i : Instr) (rest : List Byte), s.blocked = .running → s.calls = [] →
    decode s.hostIn = .command i rest →
    step s = exec i { s with
      hostIn := rest, presence := s.presence.tail, draws := s.draws + 1, greeted := s.present
      hostOut := if s.present = true ∧ s.greeted = false then s.hostOut ++ [.banner] else s.hostOut }

/-- D24: where a direct caller has called operations, a step is the first one's meaning. -/
def Obligations.StepRunsTheFirstCall : Prop :=
  ∀ (s : State) (i : Instr) (calls : List Instr), s.blocked = .running → s.calls = i :: calls →
    i.wellFormed = true → i.isHostCommand = false → step s = exec i { s with calls := calls, ret := .none }

/-- R150, R152: where the stream is empty, or holds the verb `r`, `R` or `W` and fewer digits than its fields need, a step
makes the banner check, reads what there is and waits in HostGet for good. -/
def Obligations.StepWaitsWhereTheStreamRunsDry : Prop :=
  ∀ s : State, s.blocked = .running → s.calls = [] →
    (s.hostIn = [] ∨ ∃ verb digits, s.hostIn = verb :: digits ∧ PartOfFields verb digits) →
    ∃ t, step s = .next t ∧ step t = .fault .hostStreamDry ∧
      t = { s with
        hostIn := [], presence := s.presence.tail, draws := s.draws + 1, greeted := s.present
        hostOut := if s.present = true ∧ s.greeted = false then s.hostOut ++ [.banner] else s.hostOut
        blocked := .inHostGet }

/-- R187, R180: no operation faults and none is refused on ordinary data: every operation in every state answers a next
state, but a `Transport` outside its "requires" and a `W` that meets a byte that is no hex digit. Three things here are
the model's choice: an operation that hangs in a call (R181) or in HostGet (R150) does not complete, and the next state it
answers is the blocked one of log 5; the refusal outside R100's "requires" is log 16; that R73's refusal covers the whole
`W` is log 17. -/
def Obligations.EveryOperationRunsOnOrdinaryData : Prop :=
  ∀ (i : Instr) (s : State),
    (∃ t, exec i s = .next t) ∨
    (∃ n m, i = .transport n m ∧ (s.outCur < n ∨ 4096 < s.outCur ∨ 4096 < m) ∧
      exec i s = .refused (.transportRequires n m)) ∨
    (∃ a n bad, i = .cmdWrite a n ∧ n ≠ 0 ∧ hexValue bad = none ∧ exec i s = .refused (.hostArgumentError bad))

/-! ### Reset and invariants -/

/-- R25, R211: the values the spec gives the block after reset. -/
def Obligations.ResetLeavesTheSpecsValues : Prop :=
  State.reset.outCur = 0 ∧ State.reset.inLen = 0 ∧ State.reset.inPos = 0 ∧ State.reset.conn = .disconnected ∧
    State.reset.txn = .idle ∧ State.reset.greeted = false

/-- R7, R11, R13, R163: after reset the cursors are in range, the block is at a command boundary and the parameters are
legal. -/
def Obligations.ResetMeetsTheInvariants : Prop :=
  State.reset.cursorsInRange = true ∧ State.reset.dispatcherInvariant = true ∧ State.reset.params.legal = true

/-- R11, R12, R13: every step keeps 0 <= out.cur <= 4096 and 0 <= in.len <= 4096. -/
def Obligations.EveryStepKeepsTheCursorsInRange : Prop :=
  ∀ s t : State, s.cursorsInRange = true → step s = .next t → t.cursorsInRange = true

/-- R163: a block that only the host drives is, after every step, at a command boundary (txn Idle or Closed, conn
Disconnected or Connected) or blocked inside a command for good. -/
def Obligations.EveryStepEndsAtACommandBoundary : Prop :=
  ∀ s t : State, s.dispatcherInvariant = true → step s = .next t → t.dispatcherInvariant = true

/-! ### Whole-machine rules -/

/-- R18, R42, R151: every step only appends to the reply stream and to the events, only moves forward in the host
stream, and leaves the parameters alone. The bytes the host receives are those of the appended puts: text as it is, EOL,
`#` and DIAG's text, BANNER (R7, R152, R161). -/
def Obligations.EveryStepOnlyAppends : Prop :=
  ∀ s t : State, step s = .next t →
    (∃ out, t.hostOut = s.hostOut ++ out ∧
      t.replyBytes = s.replyBytes ++ out.flatMap fun put => match put with
        | .text bytes => bytes
        | .eol => s.params.eol
        | .diag c => 0x23 :: diagText s.params.eol c
        | .banner => s.params.banner) ∧ (∃ events, t.trace = s.trace ++ events) ∧
      (∃ used, s.hostIn = used ++ t.hostIn) ∧ (∃ called, s.calls = called ++ t.calls) ∧ t.params = s.params

/-- R62, R104: no operation but a direct `Transport` puts anything on the wire that is not one of the five frames with
its sizes. -/
def Obligations.OnlyTheFiveFramesAreSent : Prop :=
  ∀ (i : Instr) (s t : State), (∀ n m, i ≠ .transport n m) → exec i s = .next t →
    ∃ events, t.trace = s.trace ++ events ∧ ∀ e ∈ events, ProtocolEvent e

/-- R15, R17: no operation but `init`, `i` and `r` writes conn or rst or drives the reset line. -/
def Obligations.OnlyInitAndResetDriveTheLine : Prop :=
  ∀ (i : Instr) (s t : State), i ≠ .init → i ≠ .cmdInit → (∀ f, i ≠ .cmdReset f) → exec i s = .next t →
    t.conn = s.conn ∧ t.rst = s.rst ∧ ∃ events, t.trace = s.trace ++ events ∧ ∀ l, Event.setRst l ∉ events

/-- R146: at the end of `init`, conn is Connected after success and Disconnected after failure, and nothing else. -/
def Obligations.InitEndsConnectedOrDisconnected : Prop :=
  ∀ (s t : State) (success : Bool), s.ret = .none → exec .init s = .next t → t.ret = .initResult success →
    t.conn = (if success then .connected else .disconnected) ∧ t.rst = true ∧ t.txn = .closed

/-- R12, R13, R15, R193, R227: conn gates nothing, and the stale bits of the two buffers are never read: on two states
that differ in these alone every operation ends the same way and leaves states that differ in these alone. -/
def Obligations.ConnAndStaleBitsInfluenceNothing : Prop :=
  ∀ (i : Instr) (s t : State), Indistinguishable s t → IndistinguishableOutcomes (exec i s) (exec i t)

/-- R163, R185: a block that only the host drives never meets a SequenceError. -/
def Obligations.HostCommandsNeverMeetSequenceError : Prop :=
  ∀ s t : State, s.dispatcherInvariant = true → step s = .next t → t.ret = s.ret

/-- R187, R75, R74: a host-driven block that ends a command unblocked has replied, and its reply lines are those of the
command: `i` one `S` where it has become Connected and one `E` where it is Disconnected, `r`, `s` and `W` one `S`, `R` a
payload line of 2 * count lower-case hex digits and `S` (count 0: only `S`), any other verb `?`. -/
def Obligations.EveryFinishedCommandReplies : Prop :=
  ∀ (i : Instr) (s t : State), s.dispatcherInvariant = true → s.blocked = .running → i.isHostCommand = true →
    exec i s = .next t → t.blocked = .running →
    ∃ out, t.hostOut = s.hostOut ++ out ∧
      match i with
      | .cmdInit => (t.conn = .connected ∧ replyLines out = [lineS]) ∨ (t.conn = .disconnected ∧ replyLines out = [lineE])
      | .cmdOther _ => replyLines out = [lineQuestion]
      | .cmdRead _ n => if n = 0 then replyLines out = [lineS] else
          ∃ bytes : List Byte, bytes.length = n.toNat ∧
            replyLines out = [bytes.flatMap lowerPair, lineS]
      | _ => replyLines out = [lineS]
end

