-- ==== Sys2Proof/Laws/State.lean ====
section
/-! SUPPORT. The field lemmas of every named update of State: which field an update changes, and that it changes no other. -/

namespace Sys2Proof.Machine

/-! ### `reset_out` (R86) -/

@[simp] theorem resetOut_outBuf (s : State) : (resetOut s).outBuf = s.outBuf := rfl
@[simp] theorem resetOut_outCur (s : State) : (resetOut s).outCur = 0 := rfl
@[simp] theorem resetOut_inBuf (s : State) : (resetOut s).inBuf = s.inBuf := rfl
@[simp] theorem resetOut_inLen (s : State) : (resetOut s).inLen = s.inLen := rfl
@[simp] theorem resetOut_inPos (s : State) : (resetOut s).inPos = s.inPos := rfl
@[simp] theorem resetOut_conn (s : State) : (resetOut s).conn = s.conn := rfl
@[simp] theorem resetOut_txn (s : State) : (resetOut s).txn = s.txn := rfl
@[simp] theorem resetOut_rst (s : State) : (resetOut s).rst = s.rst := rfl
@[simp] theorem resetOut_greeted (s : State) : (resetOut s).greeted = s.greeted := rfl
@[simp] theorem resetOut_params (s : State) : (resetOut s).params = s.params := rfl
@[simp] theorem resetOut_hostIn (s : State) : (resetOut s).hostIn = s.hostIn := rfl
@[simp] theorem resetOut_presence (s : State) : (resetOut s).presence = s.presence := rfl
@[simp] theorem resetOut_answers (s : State) : (resetOut s).answers = s.answers := rfl
@[simp] theorem resetOut_calls (s : State) : (resetOut s).calls = s.calls := rfl
@[simp] theorem resetOut_hostOut (s : State) : (resetOut s).hostOut = s.hostOut := rfl
@[simp] theorem resetOut_trace (s : State) : (resetOut s).trace = s.trace := rfl
@[simp] theorem resetOut_ret (s : State) : (resetOut s).ret = s.ret := rfl
@[simp] theorem resetOut_blocked (s : State) : (resetOut s).blocked = s.blocked := rfl
@[simp] theorem resetOut_draws (s : State) : (resetOut s).draws = s.draws := rfl

/-! ### handing a result back -/

@[simp] theorem State.returns_outBuf (s : State) (r : Ret) : (s.returns r).outBuf = s.outBuf := rfl
@[simp] theorem State.returns_outCur (s : State) (r : Ret) : (s.returns r).outCur = s.outCur := rfl
@[simp] theorem State.returns_inBuf (s : State) (r : Ret) : (s.returns r).inBuf = s.inBuf := rfl
@[simp] theorem State.returns_inLen (s : State) (r : Ret) : (s.returns r).inLen = s.inLen := rfl
@[simp] theorem State.returns_inPos (s : State) (r : Ret) : (s.returns r).inPos = s.inPos := rfl
@[simp] theorem State.returns_conn (s : State) (r : Ret) : (s.returns r).conn = s.conn := rfl
@[simp] theorem State.returns_txn (s : State) (r : Ret) : (s.returns r).txn = s.txn := rfl
@[simp] theorem State.returns_rst (s : State) (r : Ret) : (s.returns r).rst = s.rst := rfl
@[simp] theorem State.returns_greeted (s : State) (r : Ret) : (s.returns r).greeted = s.greeted := rfl
@[simp] theorem State.returns_params (s : State) (r : Ret) : (s.returns r).params = s.params := rfl
@[simp] theorem State.returns_hostIn (s : State) (r : Ret) : (s.returns r).hostIn = s.hostIn := rfl
@[simp] theorem State.returns_presence (s : State) (r : Ret) : (s.returns r).presence = s.presence := rfl
@[simp] theorem State.returns_answers (s : State) (r : Ret) : (s.returns r).answers = s.answers := rfl
@[simp] theorem State.returns_calls (s : State) (r : Ret) : (s.returns r).calls = s.calls := rfl
@[simp] theorem State.returns_hostOut (s : State) (r : Ret) : (s.returns r).hostOut = s.hostOut := rfl
@[simp] theorem State.returns_trace (s : State) (r : Ret) : (s.returns r).trace = s.trace := rfl
@[simp] theorem State.returns_ret (s : State) (r : Ret) : (s.returns r).ret = r := rfl
@[simp] theorem State.returns_blocked (s : State) (r : Ret) : (s.returns r).blocked = s.blocked := rfl
@[simp] theorem State.returns_draws (s : State) (r : Ret) : (s.returns r).draws = s.draws := rfl

/-! ### writing `conn` (R15) -/

@[simp] theorem State.setConn_outBuf (s : State) (c : Conn) : (s.setConn c).outBuf = s.outBuf := rfl
@[simp] theorem State.setConn_outCur (s : State) (c : Conn) : (s.setConn c).outCur = s.outCur := rfl
@[simp] theorem State.setConn_inBuf (s : State) (c : Conn) : (s.setConn c).inBuf = s.inBuf := rfl
@[simp] theorem State.setConn_inLen (s : State) (c : Conn) : (s.setConn c).inLen = s.inLen := rfl
@[simp] theorem State.setConn_inPos (s : State) (c : Conn) : (s.setConn c).inPos = s.inPos := rfl
@[simp] theorem State.setConn_conn (s : State) (c : Conn) : (s.setConn c).conn = c := rfl
@[simp] theorem State.setConn_txn (s : State) (c : Conn) : (s.setConn c).txn = s.txn := rfl
@[simp] theorem State.setConn_rst (s : State) (c : Conn) : (s.setConn c).rst = s.rst := rfl
@[simp] theorem State.setConn_greeted (s : State) (c : Conn) : (s.setConn c).greeted = s.greeted := rfl
@[simp] theorem State.setConn_params (s : State) (c : Conn) : (s.setConn c).params = s.params := rfl
@[simp] theorem State.setConn_hostIn (s : State) (c : Conn) : (s.setConn c).hostIn = s.hostIn := rfl
@[simp] theorem State.setConn_presence (s : State) (c : Conn) : (s.setConn c).presence = s.presence := rfl
@[simp] theorem State.setConn_answers (s : State) (c : Conn) : (s.setConn c).answers = s.answers := rfl
@[simp] theorem State.setConn_calls (s : State) (c : Conn) : (s.setConn c).calls = s.calls := rfl
@[simp] theorem State.setConn_hostOut (s : State) (c : Conn) : (s.setConn c).hostOut = s.hostOut := rfl
@[simp] theorem State.setConn_trace (s : State) (c : Conn) : (s.setConn c).trace = s.trace := rfl
@[simp] theorem State.setConn_ret (s : State) (c : Conn) : (s.setConn c).ret = s.ret := rfl
@[simp] theorem State.setConn_blocked (s : State) (c : Conn) : (s.setConn c).blocked = s.blocked := rfl
@[simp] theorem State.setConn_draws (s : State) (c : Conn) : (s.setConn c).draws = s.draws := rfl

/-! ### writing `txn` (R16) -/

@[simp] theorem State.setTxn_outBuf (s : State) (t : Txn) : (s.setTxn t).outBuf = s.outBuf := rfl
@[simp] theorem State.setTxn_outCur (s : State) (t : Txn) : (s.setTxn t).outCur = s.outCur := rfl
@[simp] theorem State.setTxn_inBuf (s : State) (t : Txn) : (s.setTxn t).inBuf = s.inBuf := rfl
@[simp] theorem State.setTxn_inLen (s : State) (t : Txn) : (s.setTxn t).inLen = s.inLen := rfl
@[simp] theorem State.setTxn_inPos (s : State) (t : Txn) : (s.setTxn t).inPos = s.inPos := rfl
@[simp] theorem State.setTxn_conn (s : State) (t : Txn) : (s.setTxn t).conn = s.conn := rfl
@[simp] theorem State.setTxn_txn (s : State) (t : Txn) : (s.setTxn t).txn = t := rfl
@[simp] theorem State.setTxn_rst (s : State) (t : Txn) : (s.setTxn t).rst = s.rst := rfl
@[simp] theorem State.setTxn_greeted (s : State) (t : Txn) : (s.setTxn t).greeted = s.greeted := rfl
@[simp] theorem State.setTxn_params (s : State) (t : Txn) : (s.setTxn t).params = s.params := rfl
@[simp] theorem State.setTxn_hostIn (s : State) (t : Txn) : (s.setTxn t).hostIn = s.hostIn := rfl
@[simp] theorem State.setTxn_presence (s : State) (t : Txn) : (s.setTxn t).presence = s.presence := rfl
@[simp] theorem State.setTxn_answers (s : State) (t : Txn) : (s.setTxn t).answers = s.answers := rfl
@[simp] theorem State.setTxn_calls (s : State) (t : Txn) : (s.setTxn t).calls = s.calls := rfl
@[simp] theorem State.setTxn_hostOut (s : State) (t : Txn) : (s.setTxn t).hostOut = s.hostOut := rfl
@[simp] theorem State.setTxn_trace (s : State) (t : Txn) : (s.setTxn t).trace = s.trace := rfl
@[simp] theorem State.setTxn_ret (s : State) (t : Txn) : (s.setTxn t).ret = s.ret := rfl
@[simp] theorem State.setTxn_blocked (s : State) (t : Txn) : (s.setTxn t).blocked = s.blocked := rfl
@[simp] theorem State.setTxn_draws (s : State) (t : Txn) : (s.setTxn t).draws = s.draws := rfl

/-! ### using up the next answer of the transport -/

@[simp] theorem State.drawAnswer_outBuf (s : State) : (s.drawAnswer).outBuf = s.outBuf := rfl
@[simp] theorem State.drawAnswer_outCur (s : State) : (s.drawAnswer).outCur = s.outCur := rfl
@[simp] theorem State.drawAnswer_inBuf (s : State) : (s.drawAnswer).inBuf = s.inBuf := rfl
@[simp] theorem State.drawAnswer_inLen (s : State) : (s.drawAnswer).inLen = s.inLen := rfl
@[simp] theorem State.drawAnswer_inPos (s : State) : (s.drawAnswer).inPos = s.inPos := rfl
@[simp] theorem State.drawAnswer_conn (s : State) : (s.drawAnswer).conn = s.conn := rfl
@[simp] theorem State.drawAnswer_txn (s : State) : (s.drawAnswer).txn = s.txn := rfl
@[simp] theorem State.drawAnswer_rst (s : State) : (s.drawAnswer).rst = s.rst := rfl
@[simp] theorem State.drawAnswer_greeted (s : State) : (s.drawAnswer).greeted = s.greeted := rfl
@[simp] theorem State.drawAnswer_params (s : State) : (s.drawAnswer).params = s.params := rfl
@[simp] theorem State.drawAnswer_hostIn (s : State) : (s.drawAnswer).hostIn = s.hostIn := rfl
@[simp] theorem State.drawAnswer_presence (s : State) : (s.drawAnswer).presence = s.presence := rfl
@[simp] theorem State.drawAnswer_answers (s : State) : (s.drawAnswer).answers = s.answers.tail := rfl
@[simp] theorem State.drawAnswer_calls (s : State) : (s.drawAnswer).calls = s.calls := rfl
@[simp] theorem State.drawAnswer_hostOut (s : State) : (s.drawAnswer).hostOut = s.hostOut := rfl
@[simp] theorem State.drawAnswer_trace (s : State) : (s.drawAnswer).trace = s.trace := rfl
@[simp] theorem State.drawAnswer_ret (s : State) : (s.drawAnswer).ret = s.ret := rfl
@[simp] theorem State.drawAnswer_blocked (s : State) : (s.drawAnswer).blocked = s.blocked := rfl
@[simp] theorem State.drawAnswer_draws (s : State) : (s.drawAnswer).draws = s.draws + 1 := rfl

/-! ### `decode_byte` (R90) -/

@[simp] theorem afterDecode_outBuf (s : State) : (afterDecode s).outBuf = s.outBuf := rfl
@[simp] theorem afterDecode_outCur (s : State) : (afterDecode s).outCur = s.outCur := rfl
@[simp] theorem afterDecode_inBuf (s : State) : (afterDecode s).inBuf = s.inBuf := rfl
@[simp] theorem afterDecode_inLen (s : State) : (afterDecode s).inLen = s.inLen := rfl
@[simp] theorem afterDecode_inPos (s : State) : (afterDecode s).inPos = (decodeBits s.params.truncPolicy s.inBits).2 := rfl
@[simp] theorem afterDecode_conn (s : State) : (afterDecode s).conn = s.conn := rfl
@[simp] theorem afterDecode_txn (s : State) : (afterDecode s).txn = s.txn := rfl
@[simp] theorem afterDecode_rst (s : State) : (afterDecode s).rst = s.rst := rfl
@[simp] theorem afterDecode_greeted (s : State) : (afterDecode s).greeted = s.greeted := rfl
@[simp] theorem afterDecode_params (s : State) : (afterDecode s).params = s.params := rfl
@[simp] theorem afterDecode_hostIn (s : State) : (afterDecode s).hostIn = s.hostIn := rfl
@[simp] theorem afterDecode_presence (s : State) : (afterDecode s).presence = s.presence := rfl
@[simp] theorem afterDecode_answers (s : State) : (afterDecode s).answers = s.answers := rfl
@[simp] theorem afterDecode_calls (s : State) : (afterDecode s).calls = s.calls := rfl
@[simp] theorem afterDecode_hostOut (s : State) : (afterDecode s).hostOut = s.hostOut := rfl
@[simp] theorem afterDecode_trace (s : State) : (afterDecode s).trace = s.trace := rfl
@[simp] theorem afterDecode_ret (s : State) : (afterDecode s).ret = s.ret := rfl
@[simp] theorem afterDecode_blocked (s : State) : (afterDecode s).blocked = s.blocked := rfl
@[simp] theorem afterDecode_draws (s : State) : (afterDecode s).draws = s.draws := rfl

/-! ### HostPut (R151) -/

@[simp] theorem State.put_outBuf (s : State) (p : Put) : (s.put p).outBuf = s.outBuf := rfl
@[simp] theorem State.put_outCur (s : State) (p : Put) : (s.put p).outCur = s.outCur := rfl
@[simp] theorem State.put_inBuf (s : State) (p : Put) : (s.put p).inBuf = s.inBuf := rfl
@[simp] theorem State.put_inLen (s : State) (p : Put) : (s.put p).inLen = s.inLen := rfl
@[simp] theorem State.put_inPos (s : State) (p : Put) : (s.put p).inPos = s.inPos := rfl
@[simp] theorem State.put_conn (s : State) (p : Put) : (s.put p).conn = s.conn := rfl
@[simp] theorem State.put_txn (s : State) (p : Put) : (s.put p).txn = s.txn := rfl
@[simp] theorem State.put_rst (s : State) (p : Put) : (s.put p).rst = s.rst := rfl
@[simp] theorem State.put_greeted (s : State) (p : Put) : (s.put p).greeted = s.greeted := rfl
@[simp] theorem State.put_params (s : State) (p : Put) : (s.put p).params = s.params := rfl
@[simp] theorem State.put_hostIn (s : State) (p : Put) : (s.put p).hostIn = s.hostIn := rfl
@[simp] theorem State.put_presence (s : State) (p : Put) : (s.put p).presence = s.presence := rfl
@[simp] theorem State.put_answers (s : State) (p : Put) : (s.put p).answers = s.answers := rfl
@[simp] theorem State.put_calls (s : State) (p : Put) : (s.put p).calls = s.calls := rfl
@[simp] theorem State.put_hostOut (s : State) (p : Put) : (s.put p).hostOut = s.hostOut ++ [p] := rfl
@[simp] theorem State.put_trace (s : State) (p : Put) : (s.put p).trace = s.trace := rfl
@[simp] theorem State.put_ret (s : State) (p : Put) : (s.put p).ret = s.ret := rfl
@[simp] theorem State.put_blocked (s : State) (p : Put) : (s.put p).blocked = s.blocked := rfl
@[simp] theorem State.put_draws (s : State) (p : Put) : (s.put p).draws = s.draws := rfl

/-! ### SetRst (R17) -/

@[simp] theorem State.setRst_outBuf (s : State) (l : Bool) : (s.setRst l).outBuf = s.outBuf := rfl
@[simp] theorem State.setRst_outCur (s : State) (l : Bool) : (s.setRst l).outCur = s.outCur := rfl
@[simp] theorem State.setRst_inBuf (s : State) (l : Bool) : (s.setRst l).inBuf = s.inBuf := rfl
@[simp] theorem State.setRst_inLen (s : State) (l : Bool) : (s.setRst l).inLen = s.inLen := rfl
@[simp] theorem State.setRst_inPos (s : State) (l : Bool) : (s.setRst l).inPos = s.inPos := rfl
@[simp] theorem State.setRst_conn (s : State) (l : Bool) : (s.setRst l).conn = s.conn := rfl
@[simp] theorem State.setRst_txn (s : State) (l : Bool) : (s.setRst l).txn = s.txn := rfl
@[simp] theorem State.setRst_rst (s : State) (l : Bool) : (s.setRst l).rst = l := rfl
@[simp] theorem State.setRst_greeted (s : State) (l : Bool) : (s.setRst l).greeted = s.greeted := rfl
@[simp] theorem State.setRst_params (s : State) (l : Bool) : (s.setRst l).params = s.params := rfl
@[simp] theorem State.setRst_hostIn (s : State) (l : Bool) : (s.setRst l).hostIn = s.hostIn := rfl
@[simp] theorem State.setRst_presence (s : State) (l : Bool) : (s.setRst l).presence = s.presence := rfl
@[simp] theorem State.setRst_answers (s : State) (l : Bool) : (s.setRst l).answers = s.answers := rfl
@[simp] theorem State.setRst_calls (s : State) (l : Bool) : (s.setRst l).calls = s.calls := rfl
@[simp] theorem State.setRst_hostOut (s : State) (l : Bool) : (s.setRst l).hostOut = s.hostOut := rfl
@[simp] theorem State.setRst_trace (s : State) (l : Bool) : (s.setRst l).trace = s.trace ++ [.setRst l] := rfl
@[simp] theorem State.setRst_ret (s : State) (l : Bool) : (s.setRst l).ret = s.ret := rfl
@[simp] theorem State.setRst_blocked (s : State) (l : Bool) : (s.setRst l).blocked = s.blocked := rfl
@[simp] theorem State.setRst_draws (s : State) (l : Bool) : (s.setRst l).draws = s.draws := rfl

/-! ### Delay (R141) -/

@[simp] theorem State.delay_outBuf (s : State) (t : Nat) : (s.delay t).outBuf = s.outBuf := rfl
@[simp] theorem State.delay_outCur (s : State) (t : Nat) : (s.delay t).outCur = s.outCur := rfl
@[simp] theorem State.delay_inBuf (s : State) (t : Nat) : (s.delay t).inBuf = s.inBuf := rfl
@[simp] theorem State.delay_inLen (s : State) (t : Nat) : (s.delay t).inLen = s.inLen := rfl
@[simp] theorem State.delay_inPos (s : State) (t : Nat) : (s.delay t).inPos = s.inPos := rfl
@[simp] theorem State.delay_conn (s : State) (t : Nat) : (s.delay t).conn = s.conn := rfl
@[simp] theorem State.delay_txn (s : State) (t : Nat) : (s.delay t).txn = s.txn := rfl
@[simp] theorem State.delay_rst (s : State) (t : Nat) : (s.delay t).rst = s.rst := rfl
@[simp] theorem State.delay_greeted (s : State) (t : Nat) : (s.delay t).greeted = s.greeted := rfl
@[simp] theorem State.delay_params (s : State) (t : Nat) : (s.delay t).params = s.params := rfl
@[simp] theorem State.delay_hostIn (s : State) (t : Nat) : (s.delay t).hostIn = s.hostIn := rfl
@[simp] theorem State.delay_presence (s : State) (t : Nat) : (s.delay t).presence = s.presence := rfl
@[simp] theorem State.delay_answers (s : State) (t : Nat) : (s.delay t).answers = s.answers := rfl
@[simp] theorem State.delay_calls (s : State) (t : Nat) : (s.delay t).calls = s.calls := rfl
@[simp] theorem State.delay_hostOut (s : State) (t : Nat) : (s.delay t).hostOut = s.hostOut := rfl
@[simp] theorem State.delay_trace (s : State) (t : Nat) : (s.delay t).trace = s.trace ++ [.delay t] := rfl
@[simp] theorem State.delay_ret (s : State) (t : Nat) : (s.delay t).ret = s.ret := rfl
@[simp] theorem State.delay_blocked (s : State) (t : Nat) : (s.delay t).blocked = s.blocked := rfl
@[simp] theorem State.delay_draws (s : State) (t : Nat) : (s.delay t).draws = s.draws := rfl

/-! ### the banner check (R152) -/

@[simp] theorem bannerCheck_outBuf (s : State) : (bannerCheck s).outBuf = s.outBuf := rfl
@[simp] theorem bannerCheck_outCur (s : State) : (bannerCheck s).outCur = s.outCur := rfl
@[simp] theorem bannerCheck_inBuf (s : State) : (bannerCheck s).inBuf = s.inBuf := rfl
@[simp] theorem bannerCheck_inLen (s : State) : (bannerCheck s).inLen = s.inLen := rfl
@[simp] theorem bannerCheck_inPos (s : State) : (bannerCheck s).inPos = s.inPos := rfl
@[simp] theorem bannerCheck_conn (s : State) : (bannerCheck s).conn = s.conn := rfl
@[simp] theorem bannerCheck_txn (s : State) : (bannerCheck s).txn = s.txn := rfl
@[simp] theorem bannerCheck_rst (s : State) : (bannerCheck s).rst = s.rst := rfl
@[simp] theorem bannerCheck_greeted (s : State) : (bannerCheck s).greeted = s.present := rfl
@[simp] theorem bannerCheck_params (s : State) : (bannerCheck s).params = s.params := rfl
@[simp] theorem bannerCheck_hostIn (s : State) : (bannerCheck s).hostIn = s.hostIn := rfl
@[simp] theorem bannerCheck_presence (s : State) : (bannerCheck s).presence = s.presence.tail := rfl
@[simp] theorem bannerCheck_answers (s : State) : (bannerCheck s).answers = s.answers := rfl
@[simp] theorem bannerCheck_calls (s : State) : (bannerCheck s).calls = s.calls := rfl
@[simp] theorem bannerCheck_hostOut (s : State) : (bannerCheck s).hostOut = if s.present && !s.greeted then s.hostOut ++ [.banner] else s.hostOut := rfl
@[simp] theorem bannerCheck_trace (s : State) : (bannerCheck s).trace = s.trace := rfl
@[simp] theorem bannerCheck_ret (s : State) : (bannerCheck s).ret = s.ret := rfl
@[simp] theorem bannerCheck_blocked (s : State) : (bannerCheck s).blocked = s.blocked := rfl
@[simp] theorem bannerCheck_draws (s : State) : (bannerCheck s).draws = s.draws + 1 := rfl

/-! ### What the updates leave of the derived readings -/

@[simp] theorem resetOut_outBits (s : State) (n : Nat) : (resetOut s).outBits n = s.outBits n := rfl
@[simp] theorem resetOut_inBits (s : State) : (resetOut s).inBits = s.inBits := rfl
@[simp] theorem resetOut_mayRun (s : State) (op : Primitive) : (resetOut s).mayRun op = s.mayRun op := rfl
@[simp] theorem resetOut_nextAnswer (s : State) : (resetOut s).nextAnswer = s.nextAnswer := rfl
@[simp] theorem State.returns_outBits (s : State) (r : Ret) (n : Nat) : (s.returns r).outBits n = s.outBits n := rfl
@[simp] theorem State.returns_inBits (s : State) (r : Ret) : (s.returns r).inBits = s.inBits := rfl
@[simp] theorem State.returns_mayRun (s : State) (r : Ret) (op : Primitive) : (s.returns r).mayRun op = s.mayRun op := rfl
@[simp] theorem State.returns_nextAnswer (s : State) (r : Ret) : (s.returns r).nextAnswer = s.nextAnswer := rfl
@[simp] theorem State.setConn_outBits (s : State) (c : Conn) (n : Nat) : (s.setConn c).outBits n = s.outBits n := rfl
@[simp] theorem State.setConn_inBits (s : State) (c : Conn) : (s.setConn c).inBits = s.inBits := rfl
@[simp] theorem State.setConn_mayRun (s : State) (c : Conn) (op : Primitive) : (s.setConn c).mayRun op = s.mayRun op := rfl
@[simp] theorem State.setConn_nextAnswer (s : State) (c : Conn) : (s.setConn c).nextAnswer = s.nextAnswer := rfl
@[simp] theorem State.setTxn_outBits (s : State) (t : Txn) (n : Nat) : (s.setTxn t).outBits n = s.outBits n := rfl
@[simp] theorem State.setTxn_inBits (s : State) (t : Txn) : (s.setTxn t).inBits = s.inBits := rfl
@[simp] theorem State.setTxn_nextAnswer (s : State) (t : Txn) : (s.setTxn t).nextAnswer = s.nextAnswer := rfl
@[simp] theorem State.drawAnswer_outBits (s : State) (n : Nat) : (s.drawAnswer).outBits n = s.outBits n := rfl
@[simp] theorem State.drawAnswer_inBits (s : State) : (s.drawAnswer).inBits = s.inBits := rfl
@[simp] theorem State.drawAnswer_mayRun (s : State) (op : Primitive) : (s.drawAnswer).mayRun op = s.mayRun op := rfl
@[simp] theorem afterDecode_outBits (s : State) (n : Nat) : (afterDecode s).outBits n = s.outBits n := rfl
@[simp] theorem afterDecode_inBits (s : State) : (afterDecode s).inBits = s.inBits := rfl
@[simp] theorem afterDecode_mayRun (s : State) (op : Primitive) : (afterDecode s).mayRun op = s.mayRun op := rfl
@[simp] theorem afterDecode_nextAnswer (s : State) : (afterDecode s).nextAnswer = s.nextAnswer := rfl
@[simp] theorem State.put_outBits (s : State) (p : Put) (n : Nat) : (s.put p).outBits n = s.outBits n := rfl
@[simp] theorem State.put_inBits (s : State) (p : Put) : (s.put p).inBits = s.inBits := rfl
@[simp] theorem State.put_mayRun (s : State) (p : Put) (op : Primitive) : (s.put p).mayRun op = s.mayRun op := rfl
@[simp] theorem State.put_nextAnswer (s : State) (p : Put) : (s.put p).nextAnswer = s.nextAnswer := rfl
@[simp] theorem State.setRst_outBits (s : State) (l : Bool) (n : Nat) : (s.setRst l).outBits n = s.outBits n := rfl
@[simp] theorem State.setRst_inBits (s : State) (l : Bool) : (s.setRst l).inBits = s.inBits := rfl
@[simp] theorem State.setRst_mayRun (s : State) (l : Bool) (op : Primitive) : (s.setRst l).mayRun op = s.mayRun op := rfl
@[simp] theorem State.setRst_nextAnswer (s : State) (l : Bool) : (s.setRst l).nextAnswer = s.nextAnswer := rfl
@[simp] theorem State.delay_outBits (s : State) (t : Nat) (n : Nat) : (s.delay t).outBits n = s.outBits n := rfl
@[simp] theorem State.delay_inBits (s : State) (t : Nat) : (s.delay t).inBits = s.inBits := rfl
@[simp] theorem State.delay_mayRun (s : State) (t : Nat) (op : Primitive) : (s.delay t).mayRun op = s.mayRun op := rfl
@[simp] theorem State.delay_nextAnswer (s : State) (t : Nat) : (s.delay t).nextAnswer = s.nextAnswer := rfl
@[simp] theorem bannerCheck_outBits (s : State) (n : Nat) : (bannerCheck s).outBits n = s.outBits n := rfl
@[simp] theorem bannerCheck_inBits (s : State) : (bannerCheck s).inBits = s.inBits := rfl
@[simp] theorem bannerCheck_mayRun (s : State) (op : Primitive) : (bannerCheck s).mayRun op = s.mayRun op := rfl

/-! ### Stringing operations together -/

@[simp] theorem Res.andThen_done {α β : Type} (a : α) (s : State) (f : α → State → Res β) :
    (Res.done a s).andThen f = f a s := rfl

@[simp] theorem Res.andThen_stopped {α β : Type} (e : Stop) (s : State) (f : α → State → Res β) :
    (Res.stopped e s).andThen f = .stopped e s := rfl

@[simp] theorem Res.state_done {α : Type} (a : α) (s : State) : (Res.done a s).state = s := rfl

@[simp] theorem Res.state_stopped {α : Type} (e : Stop) (s : State) : (Res.stopped e s : Res α).state = s := rfl

@[simp] theorem Res.report_done {α : Type} (a : α) (s : State) (f : α → Ret) :
    (Res.done a s).report f = s.returns (f a) := rfl

@[simp] theorem Res.report_stopped {α : Type} (e : Stop) (s : State) (f : α → Ret) :
    (Res.stopped e s : Res α).report f = s := rfl

end Sys2Proof.Machine
end

