-- ==== Sys2Proof/Laws/Buffer.lean ====
section
/-! SUPPORT. What a run of raw-bit writes does to the outbound buffer, what a capture does to the inbound one, and every line-encoder operation as the run of raw bits of its encoding. -/

namespace Sys2Proof.Machine

/-- A run of `write_raw_bit`. -/
def appendBits (bits : List Bool) (s : State) : State := bits.foldl (fun s b => writeRawBit b s) s

@[simp] theorem appendBits_nil (s : State) : appendBits [] s = s := rfl

@[simp] theorem appendBits_cons (b : Bool) (bits : List Bool) (s : State) :
    appendBits (b :: bits) s = appendBits bits (writeRawBit b s) := rfl

theorem appendBits_append (xs ys : List Bool) (s : State) :
    appendBits (xs ++ ys) s = appendBits ys (appendBits xs s) := List.foldl_append

/-! ### One raw bit (R80) -/

theorem writeRawBit_frame (b : Bool) (s : State) :
    writeRawBit b s = { s with outBuf := (writeRawBit b s).outBuf, outCur := (writeRawBit b s).outCur } := by
  unfold writeRawBit
  split <;> rfl

theorem writeRawBit_full (b : Bool) (s : State) (h : s.outCur = Config.bufCap) : writeRawBit b s = s := by
  simp [writeRawBit, h]

theorem writeRawBit_outCur (b : Bool) (s : State) (h : s.outCur ≤ Config.bufCap) :
    (writeRawBit b s).outCur = min (s.outCur + 1) Config.bufCap := by
  unfold writeRawBit
  split <;> simp_all
  omega

theorem writeRawBit_getElem (b : Bool) (s : State) (k : Nat) (hk : k < Config.bufCap) :
    (writeRawBit b s).outBuf[k] = if k = s.outCur then b else s.outBuf[k] := by
  unfold writeRawBit
  split
  · simp only [Vector.getElem_set, eq_comm]
  · rename_i h
    have : k ≠ s.outCur := by omega
    simp [this]

/-! ### A run of raw bits (R87) -/

theorem appendBits_frame (bits : List Bool) (s : State) :
    appendBits bits s = { s with outBuf := (appendBits bits s).outBuf, outCur := (appendBits bits s).outCur } := by
  induction bits generalizing s with
  | nil => rfl
  | cons b bits ih =>
    rw [appendBits_cons, ih]
    rw [writeRawBit_frame b s]

theorem appendBits_outCur (bits : List Bool) (s : State) (h : s.outCur ≤ Config.bufCap) :
    (appendBits bits s).outCur = min (s.outCur + bits.length) Config.bufCap := by
  induction bits generalizing s with
  | nil => simp [h]
  | cons b bits ih =>
    have hc := writeRawBit_outCur b s h
    rw [appendBits_cons, ih _ (by omega), hc]
    simp only [List.length_cons]
    omega

theorem appendBits_getElem (bits : List Bool) (s : State) (h : s.outCur ≤ Config.bufCap) (k : Nat)
    (hk : k < Config.bufCap) :
    (appendBits bits s).outBuf[k] =
      if s.outCur ≤ k ∧ k < s.outCur + bits.length then bits.getD (k - s.outCur) false else s.outBuf[k] := by
  induction bits generalizing s with
  | nil =>
    rw [appendBits_nil, if_neg (by simp only [List.length_nil]; omega)]
  | cons b bits ih =>
    have hc := writeRawBit_outCur b s h
    rw [appendBits_cons, ih _ (by omega), writeRawBit_getElem, hc]
    simp only [List.length_cons]
    rcases Nat.lt_trichotomy k s.outCur with hlt | heq | hgt
    · rw [if_neg (by omega), if_neg (by omega), if_neg (by omega)]
    · subst heq
      rw [if_neg (by omega), if_pos rfl, if_pos (by omega)]
      simp
    · have hmin : min (s.outCur + 1) Config.bufCap = s.outCur + 1 := by omega
      rw [hmin, if_neg (show ¬ k = s.outCur by omega)]
      by_cases hin : k < s.outCur + (bits.length + 1)
      · rw [if_pos (by omega), if_pos (by omega)]
        have : k - s.outCur = (k - (s.outCur + 1)) + 1 := by omega
        rw [this, List.getD_cons_succ]
      · rw [if_neg (by omega), if_neg (by omega)]

theorem appendBits_keeps_above (bits : List Bool) (s : State) (h : s.outCur ≤ Config.bufCap) (k : Nat)
    (hk : k < Config.bufCap) (hr : (appendBits bits s).outCur ≤ k) :
    (appendBits bits s).outBuf[k] = s.outBuf[k] := by
  have hc := appendBits_outCur bits s h
  rw [appendBits_getElem bits s h k hk, if_neg (by omega)]

theorem State.outBits_length (s : State) (n : Nat) : (s.outBits n).length = min n Config.bufCap := by
  simp [State.outBits]

theorem State.outBits_getElem (s : State) (n k : Nat) (h : k < (s.outBits n).length) :
    (s.outBits n)[k] = s.outBuf[k]'(by rw [s.outBits_length] at h; omega) := by
  simp [State.outBits]

theorem appendBits_outBits (bits : List Bool) (s : State) (h : s.outCur ≤ Config.bufCap) :
    (appendBits bits s).outBits (appendBits bits s).outCur =
      s.outBits s.outCur ++ bits.take (Config.bufCap - s.outCur) := by
  have hc := appendBits_outCur bits s h
  apply List.ext_getElem
  · rw [State.outBits_length, List.length_append, State.outBits_length, List.length_take]
    omega
  · intro k h1 h2
    rw [State.outBits_getElem]
    rw [State.outBits_length] at h1
    rw [appendBits_getElem bits s h k (by omega), List.getElem_append]
    by_cases hk : k < s.outCur
    · rw [if_neg (by omega), dif_pos (by rw [State.outBits_length]; omega), State.outBits_getElem]
    · rw [if_pos (by omega), dif_neg (by rw [State.outBits_length]; omega)]
      have hl : (s.outBits s.outCur).length = s.outCur := by rw [State.outBits_length]; omega
      simp only [hl, List.getElem_take]
      rw [List.getD_eq_getElem _ _ (by omega)]

/-- After `reset_out`, a frame that fits is exactly what the buffer's valid part holds (R118, D4). -/
theorem appendBits_outBits_of_reset (bits : List Bool) (s : State) (hl : bits.length ≤ Config.bufCap) :
    (appendBits bits (resetOut s)).outBits bits.length = bits := by
  have hc := appendBits_outCur bits (resetOut s) (by simp)
  have ho := appendBits_outBits bits (resetOut s) (by simp)
  rw [resetOut_outCur] at hc ho
  rw [hc, show min (0 + bits.length) Config.bufCap = bits.length by omega] at ho
  rw [ho]
  simp [State.outBits, List.take_of_length_le hl]

theorem appendBits_outCur_of_reset (bits : List Bool) (s : State) (hl : bits.length ≤ Config.bufCap) :
    (appendBits bits (resetOut s)).outCur = bits.length := by
  rw [appendBits_outCur bits (resetOut s) (by simp), resetOut_outCur]
  omega

theorem writeRawBit_congr (b : Bool) {s t : State} (h1 : s.outBuf = t.outBuf) (h2 : s.outCur = t.outCur) :
    (writeRawBit b s).outBuf = (writeRawBit b t).outBuf ∧ (writeRawBit b s).outCur = (writeRawBit b t).outCur := by
  unfold writeRawBit
  by_cases h : s.outCur < Config.bufCap
  · simp [show t.outCur < Config.bufCap by omega, h1, h2]
  · simp [show ¬ t.outCur < Config.bufCap by omega, h1, h2]

/-- A run of raw bits reads nothing of the state but the buffer and its cursor. -/
theorem appendBits_congr (bits : List Bool) {s t : State} (h1 : s.outBuf = t.outBuf) (h2 : s.outCur = t.outCur) :
    (appendBits bits s).outBuf = (appendBits bits t).outBuf ∧ (appendBits bits s).outCur = (appendBits bits t).outCur := by
  induction bits generalizing s t with
  | nil => exact ⟨h1, h2⟩
  | cons b bits ih =>
    obtain ⟨k1, k2⟩ := writeRawBit_congr b h1 h2
    exact ih k1 k2

/-! ### A capture (R100) -/

theorem storeFrom_getElem (i : Nat) (bits : List Bool) (buf : Vector Bool Config.bufCap) (k : Nat)
    (hk : k < Config.bufCap) :
    (storeFrom i bits buf)[k] = if i ≤ k ∧ k < i + bits.length then bits.getD (k - i) false else buf[k] := by
  induction bits generalizing i buf with
  | nil =>
    rw [storeFrom, if_neg (by simp only [List.length_nil]; omega)]
  | cons b bits ih =>
    rw [storeFrom, ih]
    simp only [List.length_cons]
    rcases Nat.lt_trichotomy k i with hlt | heq | hgt
    · rw [if_neg (by omega), if_neg (by omega)]
      split
      · rw [Vector.getElem_set, if_neg (by omega)]
      · rfl
    · subst heq
      rw [if_neg (by omega), if_pos (by omega), dif_pos hk, Vector.getElem_set, if_pos rfl]
      simp
    · by_cases hin : k < i + (bits.length + 1)
      · rw [if_pos (by omega), if_pos (by omega)]
        have : k - i = (k - (i + 1)) + 1 := by omega
        rw [this, List.getD_cons_succ]
      · rw [if_neg (by omega), if_neg (by omega)]
        split
        · rw [Vector.getElem_set, if_neg (by omega)]
        · rfl

/-- What a refilled inbound buffer holds in its valid part is the capture. -/
theorem storeFrom_take (bits : List Bool) (buf : Vector Bool Config.bufCap) (hl : bits.length ≤ Config.bufCap) :
    (storeFrom 0 bits buf).toList.take bits.length = bits := by
  apply List.ext_getElem
  · simp [hl]
  · intro k h1 h2
    simp only [List.getElem_take, Vector.getElem_toList]
    rw [storeFrom_getElem, if_pos (by omega), Nat.sub_zero, List.getD_eq_getElem _ _ h2]

@[simp] theorem capture_length (m : Nat) (bits : List Bool) (draw : Nat) : (capture m bits draw).length = m := by
  simp [capture]

@[simp] theorem capture_zero (bits : List Bool) (draw : Nat) : capture 0 bits draw = [] := rfl

/-- Where the answer gives every bit, the capture is the answer's first M bits. -/
theorem capture_of_long (m : Nat) (bits : List Bool) (draw : Nat) (h : m ≤ bits.length) :
    capture m bits draw = bits.take m := by
  apply List.ext_getElem
  · simp [h]
  · intro k h1 h2
    simp only [capture, List.getElem_map, List.getElem_range, List.getElem_take]
    rw [List.getD_eq_getElem]

/-! ### The line encoder writes its encodings (R81 to R85) -/

theorem writeBakedBit_eq (b : Bool) (s : State) : writeBakedBit b s = appendBits (symbolBits b) s := by
  cases b <;> rfl

theorem writeByte_eq (b : Byte) (s : State) : writeByte b s = appendBits (byteBits b) s := by
  simp only [writeByte, writeBitsDown, byteBits, msbFirst, List.flatMap_cons, List.flatMap_nil, List.append_nil,
    appendBits_append, writeBakedBit_eq]

theorem writeCmdByte_eq (b : Byte) (s : State) : writeCmdByte b s = appendBits (markedBits true b) s := by
  simp only [writeCmdByte, markedBits, appendBits_append, writeByte_eq, writeBakedBit_eq]

theorem writeDataByte_eq (b : Byte) (s : State) : writeDataByte b s = appendBits (markedBits false b) s := by
  simp only [writeDataByte, markedBits, appendBits_append, writeByte_eq, writeBakedBit_eq]

theorem writeDataWord_eq (w : Word) (s : State) : writeDataWord w s = appendBits (dataWordBits w) s := by
  simp only [writeDataWord, dataWordBits, appendBits_append, writeDataByte_eq, highByte, lowByte]

theorem writeRun_eq (n : Nat) (b : Bool) (s : State) : writeRun n b s = appendBits (List.replicate n b) s := by
  induction n generalizing s with
  | zero => rfl
  | succ n ih => rw [writeRun, ih, List.replicate_succ, appendBits_cons]

theorem writeIdle_eq (s : State) : writeIdle s = appendBits idleBits s := writeRun_eq _ _ s

/-! ### Lengths (R51 to R54, R63) -/

/-- Both symbols are SYM_LEN raw bits (R6, R51). -/
theorem symbolBits_symLen (b : Bool) : (symbolBits b).length = Config.symLen := by cases b <;> rfl

@[simp] theorem symbolBits_length (b : Bool) : (symbolBits b).length = 5 := by cases b <;> rfl

@[simp] theorem byteBits_length (b : Byte) : (byteBits b).length = 45 := by simp [byteBits, msbFirst]

@[simp] theorem markedBits_length (m : Bool) (b : Byte) : (markedBits m b).length = 50 := by simp [markedBits]

@[simp] theorem dataWordBits_length (w : Word) : (dataWordBits w).length = 100 := by simp [dataWordBits]

@[simp] theorem frameRF_length (a : Word) : (frameRF a).length = 204 := by simp [frameRF, idleBits, Config.idleBitCount]

@[simp] theorem frameRN_length : frameRN.length = 4 := rfl

@[simp] theorem frameEND_length : frameEND.length = 50 := by simp [frameEND]

@[simp] theorem frameWF_length (a : Word) (v : Byte) : (frameWF a v).length = 250 := by simp [frameWF]

@[simp] theorem frameWN_length (v : Byte) : (frameWN v).length = 50 := by simp [frameWN]

end Sys2Proof.Machine
end

