-- ==== Sys2Proof/Laws/Protocol.lean ====
section
/-! SUPPORT. What a Transport call and each primitive L1 operation can do, said once: refused, hung, or one completed call of the operation's frame. -/

namespace Sys2Proof.Machine

/-- The state in which a call of frame `f` has completed with M captured bits (R100, R118). -/
def State.called (s : State) (f : List Bool) (m : Nat) (c : List Bool) : State :=
  { s with
    outBuf := (appendBits f (resetOut s)).outBuf
    outCur := f.length
    inBuf := storeFrom 0 (capture m c s.draws) s.inBuf
    inLen := m
    trace := s.trace ++ [.wire f (capture m c s.draws)]
    answers := s.answers.tail
    draws := s.draws + 1 }

/-- The state in which a call of frame `f` hangs (R181; in.buf and in.len: log 26). -/
def State.hung (s : State) (f : List Bool) : State :=
  { s with
    outBuf := (appendBits f (resetOut s)).outBuf
    outCur := f.length
    answers := s.answers.tail
    draws := s.draws + 1
    blocked := .inTransport }

/-! ### The frames (R55 to R59, R118) -/

theorem buildRF_eq (a : Word) (s : State) : buildRF a s = appendBits (frameRF a) s := by
  simp only [buildRF, frameRF, appendBits_append, writeIdle_eq, writeDataByte_eq, writeDataWord_eq, writeCmdByte_eq]

theorem buildRN_eq (s : State) : buildRN s = appendBits frameRN s := rfl

theorem buildEND_eq (s : State) : buildEND s = appendBits frameEND s := by
  simp only [buildEND, frameEND, writeCmdByte_eq]

theorem buildWF_eq (a : Word) (v : Byte) (s : State) : buildWF a v s = appendBits (frameWF a v) s := by
  simp only [buildWF, frameWF, appendBits_append, writeDataByte_eq, writeDataWord_eq, writeCmdByte_eq]

theorem buildWN_eq (v : Byte) (s : State) : buildWN v s = appendBits (frameWN v) s := by
  simp only [buildWN, frameWN, writeDataByte_eq]

/-! ### The common shape (R118) -/

theorem transport_sending (f : List Bool) (hf : f.length ≤ Config.bufCap) (m : Nat) (s : State) :
    transport (appendBits f (resetOut s)).outCur m (appendBits f (resetOut s)) =
      match s.nextAnswer with
      | .stalls => .stopped .stall (s.hung f)
      | .completes c => .done () (s.called f m c) := by
  have hcur := appendBits_outCur_of_reset f s hf
  have hbits := appendBits_outBits_of_reset f s hf
  have hframe := appendBits_frame f (resetOut s)
  generalize ht : appendBits f (resetOut s) = t at *
  have hans : t.nextAnswer = s.nextAnswer := by
    rw [hframe]; rfl
  rw [transport, hans, hcur]
  cases s.nextAnswer with
  | stalls =>
    simp only [State.hung, State.drawAnswer]
    rw [hframe]
    simp only [resetOut_inBuf, resetOut_inLen, resetOut_inPos, resetOut_conn, resetOut_txn, resetOut_rst, resetOut_greeted,
      resetOut_params, resetOut_hostIn, resetOut_presence, resetOut_answers, resetOut_calls, resetOut_hostOut,
      resetOut_trace, resetOut_ret, resetOut_draws, hcur, ht]
  | completes c =>
    simp only [State.called, State.drawAnswer, hbits]
    rw [hframe]
    simp only [resetOut_inBuf, resetOut_inPos, resetOut_conn, resetOut_txn, resetOut_rst, resetOut_greeted,
      resetOut_params, resetOut_hostIn, resetOut_presence, resetOut_answers, resetOut_calls, resetOut_hostOut,
      resetOut_trace, resetOut_ret, resetOut_blocked, resetOut_draws, hcur, ht]

theorem primitive_eq (op : Primitive) (build : State → State) (f : List Bool) (m : Nat) (s : State)
    (hb : build (resetOut s) = appendBits f (resetOut s)) (hf : f.length ≤ Config.bufCap) :
    primitive op build m s =
      if s.mayRun op then
        match s.nextAnswer with
        | .stalls => .stopped .stall (s.hung f)
        | .completes c => .done () (s.called f m c)
      else sequenceError op s := by
  rw [primitive, hb, transport_sending f hf]

/-! ### The primitives (R111 to R116): refused, hung or completed -/

/-- The byte a read returns for a capture (R90). -/
def State.readByte (s : State) (c : List Bool) : Byte :=
  (decodeBits s.params.truncPolicy (capture Config.rxMargin c s.draws)).1

/-- The state after a completed read call and the decode (R111, R112). -/
def State.readCalled (s : State) (f c : List Bool) : State := afterDecode (s.called f Config.rxMargin c)

theorem called_inBits (s : State) (f : List Bool) (m : Nat) (c : List Bool) (hm : m ≤ Config.bufCap) :
    (s.called f m c).inBits = capture m c s.draws := by
  have h := storeFrom_take (capture m c s.draws) s.inBuf (by simpa using hm)
  simpa [State.inBits, State.called] using h

theorem decodedByte_called (s : State) (f c : List Bool) :
    decodedByte (s.called f Config.rxMargin c) = s.readByte c := by
  rw [decodedByte, called_inBits _ _ _ _ (by decide)]
  rfl

theorem readFirst_eq (a : Word) (s : State) :
    readFirst a s =
      if s.mayRun .readFirst then
        match s.nextAnswer with
        | .stalls => .stopped .stall (s.hung (frameRF a))
        | .completes c => .done (s.readByte c) ((s.readCalled (frameRF a) c).setTxn .reading)
      else sequenceError .readFirst s := by
  rw [readFirst, thenTxn, thenDecode, primitive_eq _ _ (frameRF a) _ _ (buildRF_eq _ _) (by simp [Config.bufCap])]
  split
  · cases s.nextAnswer <;> simp [decodedByte_called, State.readCalled]
  · rfl

theorem readNext_eq (s : State) :
    readNext s =
      if s.mayRun .readNext then
        match s.nextAnswer with
        | .stalls => .stopped .stall (s.hung frameRN)
        | .completes c => .done (s.readByte c) (s.readCalled frameRN c)
      else sequenceError .readNext s := by
  rw [readNext, thenDecode, primitive_eq _ _ frameRN _ _ (buildRN_eq _) (by simp [Config.bufCap])]
  split
  · cases s.nextAnswer <;> simp [decodedByte_called, State.readCalled]
  · rfl

theorem finishReading_eq (s : State) :
    finishReading s =
      if s.mayRun .finishReading then
        match s.nextAnswer with
        | .stalls => .stopped .stall (s.hung frameEND)
        | .completes c => .done () ((s.called frameEND 0 c).setTxn .closed)
      else sequenceError .finishReading s := by
  rw [finishReading, thenTxn, primitive_eq _ _ frameEND _ _ (buildEND_eq _) (by simp [Config.bufCap])]
  split
  · cases s.nextAnswer <;> simp
  · rfl

theorem writeFirst_eq (a : Word) (v : Byte) (s : State) :
    writeFirst a v s =
      if s.mayRun .writeFirst then
        match s.nextAnswer with
        | .stalls => .stopped .stall (s.hung (frameWF a v))
        | .completes c => .done () ((s.called (frameWF a v) 0 c).setTxn .writing)
      else sequenceError .writeFirst s := by
  rw [writeFirst, thenTxn, primitive_eq _ _ (frameWF a v) _ _ (buildWF_eq _ _ _) (by simp [Config.bufCap])]
  split
  · cases s.nextAnswer <;> simp
  · rfl

theorem writeNext_eq (v : Byte) (s : State) :
    writeNext v s =
      if s.mayRun .writeNext then
        match s.nextAnswer with
        | .stalls => .stopped .stall (s.hung (frameWN v))
        | .completes c => .done () (s.called (frameWN v) 0 c)
      else sequenceError .writeNext s := by
  rw [writeNext, primitive_eq _ _ (frameWN v) _ _ (buildWN_eq _ _) (by simp [Config.bufCap])]

theorem finishWriting_eq (s : State) :
    finishWriting s =
      if s.mayRun .finishWriting then
        match s.nextAnswer with
        | .stalls => .stopped .stall (s.hung frameEND)
        | .completes c => .done () ((s.called frameEND 0 c).setTxn .closed)
      else sequenceError .finishWriting s := by
  rw [finishWriting, thenTxn, primitive_eq _ _ frameEND _ _ (buildEND_eq _) (by simp [Config.bufCap])]
  split
  · cases s.nextAnswer <;> simp
  · rfl

end Sys2Proof.Machine
end

