-- ==== Sys2Proof/Laws/Called.lean ====
section
/-! SUPPORT. The field lemmas of a completed and of a hung call, what either leaves of the two buffers, and each primitive where it completes. -/

namespace Sys2Proof.Machine

/-! ### A completed call (R100, R118) -/

theorem State.called_outBuf (s : State) (f : List Bool) (m : Nat) (c : List Bool) : (s.called f m c).outBuf = (appendBits f (resetOut s)).outBuf :=
    rfl
@[simp] theorem State.called_outCur (s : State) (f : List Bool) (m : Nat) (c : List Bool) : (s.called f m c).outCur = f.length :=
    rfl
theorem State.called_inBuf (s : State) (f : List Bool) (m : Nat) (c : List Bool) : (s.called f m c).inBuf = storeFrom 0 (capture m c s.draws) s.inBuf :=
    rfl
@[simp] theorem State.called_inLen (s : State) (f : List Bool) (m : Nat) (c : List Bool) : (s.called f m c).inLen = m :=
    rfl
@[simp] theorem State.called_inPos (s : State) (f : List Bool) (m : Nat) (c : List Bool) : (s.called f m c).inPos = s.inPos :=
    rfl
@[simp] theorem State.called_conn (s : State) (f : List Bool) (m : Nat) (c : List Bool) : (s.called f m c).conn = s.conn :=
    rfl
@[simp] theorem State.called_txn (s : State) (f : List Bool) (m : Nat) (c : List Bool) : (s.called f m c).txn = s.txn :=
    rfl
@[simp] theorem State.called_rst (s : State) (f : List Bool) (m : Nat) (c : List Bool) : (s.called f m c).rst = s.rst :=
    rfl
@[simp] theorem State.called_greeted (s : State) (f : List Bool) (m : Nat) (c : List Bool) : (s.called f m c).greeted = s.greeted :=
    rfl
@[simp] theorem State.called_params (s : State) (f : List Bool) (m : Nat) (c : List Bool) : (s.called f m c).params = s.params :=
    rfl
@[simp] theorem State.called_hostIn (s : State) (f : List Bool) (m : Nat) (c : List Bool) : (s.called f m c).hostIn = s.hostIn :=
    rfl
@[simp] theorem State.called_presence (s : State) (f : List Bool) (m : Nat) (c : List Bool) : (s.called f m c).presence = s.presence :=
    rfl
@[simp] theorem State.called_answers (s : State) (f : List Bool) (m : Nat) (c : List Bool) : (s.called f m c).answers = s.answers.tail :=
    rfl
@[simp] theorem State.called_calls (s : State) (f : List Bool) (m : Nat) (c : List Bool) : (s.called f m c).calls = s.calls :=
    rfl
@[simp] theorem State.called_hostOut (s : State) (f : List Bool) (m : Nat) (c : List Bool) : (s.called f m c).hostOut = s.hostOut :=
    rfl
@[simp] theorem State.called_trace (s : State) (f : List Bool) (m : Nat) (c : List Bool) : (s.called f m c).trace = s.trace ++ [.wire f (capture m c s.draws)] :=
    rfl
@[simp] theorem State.called_ret (s : State) (f : List Bool) (m : Nat) (c : List Bool) : (s.called f m c).ret = s.ret :=
    rfl
@[simp] theorem State.called_blocked (s : State) (f : List Bool) (m : Nat) (c : List Bool) : (s.called f m c).blocked = s.blocked :=
    rfl
@[simp] theorem State.called_draws (s : State) (f : List Bool) (m : Nat) (c : List Bool) : (s.called f m c).draws = s.draws + 1 :=
    rfl

/-! ### A hung call (R181) -/

theorem State.hung_outBuf (s : State) (f : List Bool) : (s.hung f).outBuf = (appendBits f (resetOut s)).outBuf := rfl
@[simp] theorem State.hung_outCur (s : State) (f : List Bool) : (s.hung f).outCur = f.length := rfl
@[simp] theorem State.hung_inBuf (s : State) (f : List Bool) : (s.hung f).inBuf = s.inBuf := rfl
@[simp] theorem State.hung_inLen (s : State) (f : List Bool) : (s.hung f).inLen = s.inLen := rfl
@[simp] theorem State.hung_inPos (s : State) (f : List Bool) : (s.hung f).inPos = s.inPos := rfl
@[simp] theorem State.hung_conn (s : State) (f : List Bool) : (s.hung f).conn = s.conn := rfl
@[simp] theorem State.hung_txn (s : State) (f : List Bool) : (s.hung f).txn = s.txn := rfl
@[simp] theorem State.hung_rst (s : State) (f : List Bool) : (s.hung f).rst = s.rst := rfl
@[simp] theorem State.hung_greeted (s : State) (f : List Bool) : (s.hung f).greeted = s.greeted := rfl
@[simp] theorem State.hung_params (s : State) (f : List Bool) : (s.hung f).params = s.params := rfl
@[simp] theorem State.hung_hostIn (s : State) (f : List Bool) : (s.hung f).hostIn = s.hostIn := rfl
@[simp] theorem State.hung_presence (s : State) (f : List Bool) : (s.hung f).presence = s.presence := rfl
@[simp] theorem State.hung_answers (s : State) (f : List Bool) : (s.hung f).answers = s.answers.tail := rfl
@[simp] theorem State.hung_calls (s : State) (f : List Bool) : (s.hung f).calls = s.calls := rfl
@[simp] theorem State.hung_hostOut (s : State) (f : List Bool) : (s.hung f).hostOut = s.hostOut := rfl
@[simp] theorem State.hung_trace (s : State) (f : List Bool) : (s.hung f).trace = s.trace := rfl
@[simp] theorem State.hung_ret (s : State) (f : List Bool) : (s.hung f).ret = s.ret := rfl
@[simp] theorem State.hung_blocked (s : State) (f : List Bool) : (s.hung f).blocked = .inTransport := rfl
@[simp] theorem State.hung_draws (s : State) (f : List Bool) : (s.hung f).draws = s.draws + 1 := rfl

/-! ### A completed read call (R111, R112) -/

@[simp] theorem State.readCalled_outCur (s : State) (f c : List Bool) : (s.readCalled f c).outCur = f.length := rfl
@[simp] theorem State.readCalled_inLen (s : State) (f c : List Bool) : (s.readCalled f c).inLen = Config.rxMargin :=
    rfl
@[simp] theorem State.readCalled_conn (s : State) (f c : List Bool) : (s.readCalled f c).conn = s.conn := rfl
@[simp] theorem State.readCalled_txn (s : State) (f c : List Bool) : (s.readCalled f c).txn = s.txn := rfl
@[simp] theorem State.readCalled_rst (s : State) (f c : List Bool) : (s.readCalled f c).rst = s.rst := rfl
@[simp] theorem State.readCalled_greeted (s : State) (f c : List Bool) : (s.readCalled f c).greeted = s.greeted := rfl
@[simp] theorem State.readCalled_params (s : State) (f c : List Bool) : (s.readCalled f c).params = s.params := rfl
@[simp] theorem State.readCalled_hostIn (s : State) (f c : List Bool) : (s.readCalled f c).hostIn = s.hostIn := rfl
@[simp] theorem State.readCalled_presence (s : State) (f c : List Bool) : (s.readCalled f c).presence = s.presence :=
    rfl
@[simp] theorem State.readCalled_answers (s : State) (f c : List Bool) : (s.readCalled f c).answers = s.answers.tail :=
    rfl
@[simp] theorem State.readCalled_calls (s : State) (f c : List Bool) : (s.readCalled f c).calls = s.calls := rfl
@[simp] theorem State.readCalled_hostOut (s : State) (f c : List Bool) : (s.readCalled f c).hostOut = s.hostOut := rfl
@[simp] theorem State.readCalled_trace (s : State) (f c : List Bool) : (s.readCalled f c).trace = s.trace ++ [.wire f (capture Config.rxMargin c s.draws)] :=
    rfl
@[simp] theorem State.readCalled_ret (s : State) (f c : List Bool) : (s.readCalled f c).ret = s.ret := rfl
@[simp] theorem State.readCalled_blocked (s : State) (f c : List Bool) : (s.readCalled f c).blocked = s.blocked := rfl
@[simp] theorem State.readCalled_draws (s : State) (f c : List Bool) : (s.readCalled f c).draws = s.draws + 1 := rfl

@[simp] theorem State.readCalled_inPos (s : State) (f c : List Bool) :
    (s.readCalled f c).inPos = (decodeBits s.params.truncPolicy (capture Config.rxMargin c s.draws)).2 := by
  rw [State.readCalled, afterDecode_inPos, called_inBits _ _ _ _ (by decide)]
  rfl

/-! ### Equal states -/

/-- Two states with equal fields are equal. -/
theorem State.ext_fields {s t : State} (h1 : s.outBuf = t.outBuf) (h2 : s.outCur = t.outCur) (h3 : s.inBuf = t.inBuf)
    (h4 : s.inLen = t.inLen) (h5 : s.inPos = t.inPos) (h6 : s.conn = t.conn) (h7 : s.txn = t.txn) (h8 : s.rst = t.rst)
    (h9 : s.greeted = t.greeted) (h10 : s.params = t.params) (h11 : s.hostIn = t.hostIn)
    (h12 : s.presence = t.presence) (h13 : s.answers = t.answers) (h14 : s.calls = t.calls)
    (h15 : s.hostOut = t.hostOut) (h16 : s.trace = t.trace) (h17 : s.ret = t.ret) (h18 : s.blocked = t.blocked)
    (h19 : s.draws = t.draws) : s = t := by
  cases s
  cases t
  simp_all

/-! ### The bits above a frame and above a capture (R12, R100) -/

/-- No bit of the outbound buffer at or above `n` and none of the inbound buffer at or above `m` differs. -/
structure State.KeptAbove (n m : Nat) (s t : State) : Prop where
  out : ∀ k (h : k < Config.bufCap), n ≤ k → t.outBuf[k] = s.outBuf[k]
  inb : ∀ k (h : k < Config.bufCap), m ≤ k → t.inBuf[k] = s.inBuf[k]

theorem State.KeptAbove.of_eq {n m : Nat} {s t : State} (h1 : t.outBuf = s.outBuf) (h2 : t.inBuf = s.inBuf) :
    s.KeptAbove n m t := ⟨fun k h _ => by rw [h1], fun k h _ => by rw [h2]⟩

theorem State.KeptAbove.trans {n m : Nat} {s t u : State} (h1 : s.KeptAbove n m t) (h2 : t.KeptAbove n m u) :
    s.KeptAbove n m u :=
  ⟨fun k h hk => (h2.out k h hk).trans (h1.out k h hk), fun k h hk => (h2.inb k h hk).trans (h1.inb k h hk)⟩

theorem State.called_keptAbove {n m : Nat} (s : State) (f : List Bool) (m' : Nat) (c : List Bool) (hn : f.length ≤ n)
    (hm : m' ≤ m) (hf : f.length ≤ Config.bufCap) : s.KeptAbove n m (s.called f m' c) where
  out k h hk := by
    have hc := appendBits_outCur_of_reset f s hf
    exact appendBits_keeps_above f (resetOut s) (by simp) k h (by omega)
  inb k h hk := by
    rw [State.called_inBuf, storeFrom_getElem, if_neg (by simp only [capture_length]; omega)]

theorem State.readCalled_keptAbove {n m : Nat} (s : State) (f : List Bool) (c : List Bool) (hn : f.length ≤ n)
    (hm : Config.rxMargin ≤ m) (hf : f.length ≤ Config.bufCap) : s.KeptAbove n m (s.readCalled f c) :=
  (s.called_keptAbove f Config.rxMargin c hn hm hf).trans (.of_eq rfl rfl)

theorem State.hung_keptAbove {n m : Nat} (s : State) (f : List Bool) (hn : f.length ≤ n)
    (hf : f.length ≤ Config.bufCap) : s.KeptAbove n m (s.hung f) where
  out k h hk := by
    have hc := appendBits_outCur_of_reset f s hf
    exact appendBits_keeps_above f (resetOut s) (by simp) k h (by omega)
  inb _ _ _ := rfl

theorem State.KeptAbove.refl {n m : Nat} (s : State) : s.KeptAbove n m s := .of_eq rfl rfl

theorem State.KeptAbove.called {n m : Nat} {s t : State} (h : s.KeptAbove n m t) (f : List Bool) (m' : Nat)
    (c : List Bool) (hn : f.length ≤ n) (hm : m' ≤ m) (hf : f.length ≤ Config.bufCap) :
    s.KeptAbove n m (t.called f m' c) := h.trans (t.called_keptAbove f m' c hn hm hf)

theorem State.KeptAbove.readCalled {n m : Nat} {s t : State} (h : s.KeptAbove n m t) (f : List Bool) (c : List Bool)
    (hn : f.length ≤ n) (hm : Config.rxMargin ≤ m) (hf : f.length ≤ Config.bufCap) :
    s.KeptAbove n m (t.readCalled f c) := h.trans (t.readCalled_keptAbove f c hn hm hf)

theorem State.KeptAbove.setTxn {n m : Nat} {s t : State} (h : s.KeptAbove n m t) (x : Txn) :
    s.KeptAbove n m (t.setTxn x) := h.trans (.of_eq rfl rfl)

theorem State.called_outBits (s : State) (f : List Bool) (m : Nat) (c : List Bool) (hf : f.length ≤ Config.bufCap) :
    (s.called f m c).outBits f.length = f := appendBits_outBits_of_reset f s hf

/-! ### A call neither reads nor writes what the last call handed back -/

theorem State.returns_called (s : State) (r : Ret) (f : List Bool) (m : Nat) (c : List Bool) :
    (s.returns r).called f m c = (s.called f m c).returns r := by
  have h := (appendBits_congr f (s := resetOut (s.returns r)) (t := resetOut s) rfl rfl).1
  simp only [State.called, h]
  rfl

theorem State.returns_hung (s : State) (r : Ret) (f : List Bool) : (s.returns r).hung f = (s.hung f).returns r := by
  have h := (appendBits_congr f (s := resetOut (s.returns r)) (t := resetOut s) rfl rfl).1
  simp only [State.hung, h]
  rfl

theorem State.returns_readCalled (s : State) (r : Ret) (f c : List Bool) :
    (s.returns r).readCalled f c = (s.readCalled f c).returns r := by
  rw [State.readCalled, State.returns_called]
  rfl

/-! ### Where a primitive completes (R111 to R116) -/

theorem State.nextAnswer_cons {s : State} {a : Answer} {rest : List Answer} (h : s.answers = a :: rest) :
    s.nextAnswer = a := by rw [State.nextAnswer, h]

/-- A primitive that the table admits, or that no table forbids, may run (R110). -/
theorem State.mayRun_of {s : State} {op : Primitive}
    (h : s.params.enforceSequence = true → s.txn.admits op = true) : s.mayRun op = true := by
  rw [State.mayRun]
  cases he : s.params.enforceSequence with
  | false => rfl
  | true => simpa using h he

/-- Where a transaction may be opened (R110). -/
def State.mayOpen (s : State) : Prop := s.params.enforceSequence = true → s.txn = .idle ∨ s.txn = .closed

theorem State.mayOpen.readFirst {s : State} (h : s.mayOpen) : s.mayRun .readFirst = true :=
  s.mayRun_of fun he => by rcases h he with h | h <;> rw [h] <;> rfl

theorem State.mayOpen.writeFirst {s : State} (h : s.mayOpen) : s.mayRun .writeFirst = true :=
  s.mayRun_of fun he => by rcases h he with h | h <;> rw [h] <;> rfl

theorem State.mayOpen_of_txn {s : State} (h : s.txn = .closed) : s.mayOpen := fun _ => .inr h

theorem State.mayRun_of_txn {s : State} {op : Primitive} (t : Txn) (h : s.txn = t) (ha : t.admits op = true) :
    s.mayRun op = true := s.mayRun_of fun _ => h ▸ ha

section completes

variable {s : State} {c : List Bool} {rest : List Answer}

theorem readFirst_completes (a : Word) (h : s.mayRun .readFirst = true) (ha : s.answers = .completes c :: rest) :
    readFirst a s = .done (s.readByte c) ((s.readCalled (frameRF a) c).setTxn .reading) := by
  rw [readFirst_eq, if_pos h, State.nextAnswer_cons ha]

theorem readNext_completes (h : s.mayRun .readNext = true) (ha : s.answers = .completes c :: rest) :
    readNext s = .done (s.readByte c) (s.readCalled frameRN c) := by
  rw [readNext_eq, if_pos h, State.nextAnswer_cons ha]

theorem finishReading_completes (h : s.mayRun .finishReading = true) (ha : s.answers = .completes c :: rest) :
    finishReading s = .done () ((s.called frameEND 0 c).setTxn .closed) := by
  rw [finishReading_eq, if_pos h, State.nextAnswer_cons ha]

theorem writeFirst_completes (a : Word) (v : Byte) (h : s.mayRun .writeFirst = true)
    (ha : s.answers = .completes c :: rest) :
    writeFirst a v s = .done () ((s.called (frameWF a v) 0 c).setTxn .writing) := by
  rw [writeFirst_eq, if_pos h, State.nextAnswer_cons ha]

theorem writeNext_completes (v : Byte) (h : s.mayRun .writeNext = true) (ha : s.answers = .completes c :: rest) :
    writeNext v s = .done () (s.called (frameWN v) 0 c) := by
  rw [writeNext_eq, if_pos h, State.nextAnswer_cons ha]

theorem finishWriting_completes (h : s.mayRun .finishWriting = true) (ha : s.answers = .completes c :: rest) :
    finishWriting s = .done () ((s.called frameEND 0 c).setTxn .closed) := by
  rw [finishWriting_eq, if_pos h, State.nextAnswer_cons ha]

end completes

/-! ### Where a primitive hangs (R181) -/

section stalls

variable {s : State} {rest : List Answer}

theorem readFirst_stalls (a : Word) (h : s.mayRun .readFirst = true) (ha : s.answers = .stalls :: rest) :
    readFirst a s = .stopped .stall (s.hung (frameRF a)) := by
  rw [readFirst_eq, if_pos h, State.nextAnswer_cons ha]

theorem readNext_stalls (h : s.mayRun .readNext = true) (ha : s.answers = .stalls :: rest) :
    readNext s = .stopped .stall (s.hung frameRN) := by
  rw [readNext_eq, if_pos h, State.nextAnswer_cons ha]

theorem finishReading_stalls (h : s.mayRun .finishReading = true) (ha : s.answers = .stalls :: rest) :
    finishReading s = .stopped .stall (s.hung frameEND) := by
  rw [finishReading_eq, if_pos h, State.nextAnswer_cons ha]

theorem writeFirst_stalls (a : Word) (v : Byte) (h : s.mayRun .writeFirst = true) (ha : s.answers = .stalls :: rest) :
    writeFirst a v s = .stopped .stall (s.hung (frameWF a v)) := by
  rw [writeFirst_eq, if_pos h, State.nextAnswer_cons ha]

theorem writeNext_stalls (v : Byte) (h : s.mayRun .writeNext = true) (ha : s.answers = .stalls :: rest) :
    writeNext v s = .stopped .stall (s.hung (frameWN v)) := by
  rw [writeNext_eq, if_pos h, State.nextAnswer_cons ha]

theorem finishWriting_stalls (h : s.mayRun .finishWriting = true) (ha : s.answers = .stalls :: rest) :
    finishWriting s = .stopped .stall (s.hung frameEND) := by
  rw [finishWriting_eq, if_pos h, State.nextAnswer_cons ha]

end stalls

end Sys2Proof.Machine
end

