-- ==== Sys2Proof/Laws/Codec.lean ====
section
/-! SUPPORT. Reading back what the encoders write: hex fields and host commands (R64 to R72), symbols, bytes and frames (R50 to R60). -/

namespace Sys2Proof

/-! ### Hex fields -/

theorem hexValue_hexDigit (n : Nat) (h : n < 16) : hexValue (hexDigit n) = some n := by
  interval_cases n <;> rfl

theorem hexValue_lt {c : Byte} {v : Nat} (h : hexValue c = some v) : v < 16 := by
  unfold hexValue at h
  split_ifs at h <;> simp_all <;> omega

theorem hexField_length (k v : Nat) : (hexField k v).length = k := by
  induction k with
  | zero => rfl
  | succ k ih => simp [hexField, ih]

theorem hexFrom_hexField (k v x : Nat) (rest : List Byte) :
    hexFrom v k (hexField k x ++ rest) = .value (v * 16 ^ k + x % 16 ^ k) rest := by
  induction k generalizing v with
  | zero => simp [hexField, hexFrom, Nat.mod_one]
  | succ k ih =>
    have hd : x / 16 ^ k % 16 < 16 := Nat.mod_lt _ (by decide)
    rw [hexField, List.cons_append, hexFrom, hexValue_hexDigit _ hd]
    simp only
    rw [ih]
    congr 1
    rw [Nat.pow_succ, Nat.mod_mul]
    ring

theorem readHex_hexField (k x : Nat) (rest : List Byte) (h : x < 16 ^ k) :
    readHex k (hexField k x ++ rest) = .value x rest := by
  rw [readHex, hexFrom_hexField, Nat.mod_eq_of_lt h]
  simp

/-- What a hex field takes from the stream (R154). -/
theorem hexFrom_value {v k r : Nat} {bytes rest : List Byte} (h : hexFrom v k bytes = .value r rest) :
    ∃ used, bytes = used ++ rest ∧ used.length = k := by
  induction k generalizing v bytes with
  | zero =>
    simp only [hexFrom, HexRead.value.injEq] at h
    exact ⟨[], by simp [h.2]⟩
  | succ k ih =>
    match bytes with
    | [] => simp [hexFrom] at h
    | c :: bytes =>
      rw [hexFrom] at h
      split at h
      · simp at h
      · obtain ⟨used, hu, hl⟩ := ih h
        exact ⟨c :: used, by simp [hu], by simp [hl]⟩

/-- Fewer digits than the field needs: the reader waits for more (R150, R154). -/
theorem hexFrom_short {v k : Nat} {digits : List Byte} (h : ∀ d ∈ digits, hexValue d ≠ none) (hl : digits.length < k) :
    hexFrom v k digits = .dry := by
  induction k generalizing v digits with
  | zero => omega
  | succ k ih =>
    match digits, h, hl with
    | [], _, _ => rfl
    | d :: ds, h, hl =>
      obtain ⟨x, hx⟩ := Option.ne_none_iff_exists'.mp (h d (by simp))
      rw [hexFrom, hx]
      exact ih (fun e he => h e (by simp [he])) (by simpa using hl)

/-- Fewer digits than the field needs and then a byte that is none: HostArgumentError (R73, R154). -/
theorem hexFrom_bad {v k : Nat} {digits more : List Byte} {bad : Byte} (h : ∀ d ∈ digits, hexValue d ≠ none)
    (hl : digits.length < k) (hb : hexValue bad = none) : hexFrom v k (digits ++ bad :: more) = .bad bad := by
  induction k generalizing v digits with
  | zero => omega
  | succ k ih =>
    match digits, h, hl with
    | [], _, _ => rw [List.nil_append, hexFrom, hb]
    | d :: ds, h, hl =>
      obtain ⟨x, hx⟩ := Option.ne_none_iff_exists'.mp (h d (by simp))
      rw [List.cons_append, hexFrom, hx]
      exact ih (fun e he => h e (by simp [he])) (by simpa using hl)

/-- Enough digits: the field has a value, and what follows its digits is left (R154). -/
theorem hexFrom_enough {v k : Nat} {digits : List Byte} (h : ∀ d ∈ digits, hexValue d ≠ none) (hl : k ≤ digits.length)
    (rest : List Byte) : ∃ x, hexFrom v k (digits ++ rest) = .value x (digits.drop k ++ rest) := by
  induction k generalizing v digits with
  | zero => exact ⟨v, rfl⟩
  | succ k ih =>
    match digits, h, hl with
    | [], _, hl => simp at hl
    | d :: ds, h, hl =>
      obtain ⟨x, hx⟩ := Option.ne_none_iff_exists'.mp (h d (by simp))
      rw [List.cons_append, hexFrom, hx]
      exact ih (fun e he => h e (by simp [he])) (by simpa using hl)

/-! ### Host commands -/

theorem decodeBlock_digits (make : Word → Word → Instr) (a n : Word) (rest : List Byte) :
    decodeBlock make (hexField 4 a.toNat ++ (hexField 4 n.toNat ++ rest)) = .command (make a n) rest := by
  rw [decodeBlock, readHex_hexField _ _ _ (by have := a.isLt; omega)]
  simp only [HexRead.next]
  rw [readHex_hexField _ _ _ (by have := n.isLt; omega)]
  simp

/-! ### Symbols, bytes and words -/

@[simp] theorem readSymbol_symbolBits (b : Bool) (rest : List Bool) :
    readSymbol (symbolBits b ++ rest) = .ok b rest := by
  cases b <;> rfl

@[simp] theorem WireRead.next_ok {α β : Type} (a : α) (rest : List Bool) (f : α → List Bool → WireRead β) :
    (WireRead.ok a rest).next f = f a rest := rfl

@[simp] theorem WireRead.next_error {α β : Type} (e : CodeError) (f : α → List Bool → WireRead β) :
    (WireRead.error e : WireRead α).next f = .error e := rfl

@[simp] theorem WireRead.whole_ok {α : Type} (a : α) (f : α → Instr) : (WireRead.ok a []).whole f = .instr (f a) := rfl

theorem readSymbols_flatMap (bs rest : List Bool) :
    readSymbols bs.length (bs.flatMap symbolBits ++ rest) = .ok bs rest := by
  induction bs with
  | nil => rfl
  | cons b bs ih => simp [readSymbols, List.append_assoc, ih]

theorem ofMsbFirst_msbFirst (b : Byte) : ofMsbFirst (msbFirst b) = b := by
  revert b
  decide +kernel

@[simp] theorem readByte_byteBits (b : Byte) (rest : List Bool) : readByte (byteBits b ++ rest) = .ok b rest := by
  have h := readSymbols_flatMap (msbFirst b) (symbolBits false ++ rest)
  rw [show (msbFirst b).length = 8 from rfl] at h
  simp [readByte, byteBits, List.append_assoc, h, ofMsbFirst_msbFirst]

@[simp] theorem readMarked_markedBits (m : Bool) (b : Byte) (rest : List Bool) :
    readMarked (markedBits m b ++ rest) = .ok (m, b) rest := by
  simp [readMarked, markedBits, List.append_assoc]

@[simp] theorem readData_markedBits (b : Byte) (rest : List Bool) :
    readData (markedBits false b ++ rest) = .ok b rest := by
  simp [readData]

@[simp] theorem readCommand_markedBits (c : Byte) (rest : List Bool) :
    readCommand c (markedBits true c ++ rest) = .ok () rest := by
  simp [readCommand]

theorem highByte_append_lowByte (w : Word) : w.extractLsb' 8 8 ++ w.extractLsb' 0 8 = w := by
  ext i hi
  simp only [BitVec.getElem_append, BitVec.getElem_extractLsb']
  split <;> simp_all [BitVec.getLsbD_eq_getElem]

@[simp] theorem readDataWord_dataWordBits (w : Word) (rest : List Bool) :
    readDataWord (dataWordBits w ++ rest) = .ok w rest := by
  simp only [readDataWord, dataWordBits, List.append_assoc, readData_markedBits, WireRead.next_ok,
    highByte_append_lowByte]

/-! ### Frames (R55 to R59) -/

theorem decodeFirst_frameRF (a : Word) : decodeFirst (frameRF a) = .instr (.readFirst a) := by
  simp [decodeFirst, frameRF, List.append_assoc, idleBits, readIdle]

theorem decodeFirst_frameWF (a : Word) (v : Byte) : decodeFirst (frameWF a v) = .instr (.writeFirst a v) := by
  have h := readData_markedBits v []
  rw [List.append_nil] at h
  have hm : Config.modeWrite ≠ Config.modeRead := by decide
  simp [decodeFirst, frameWF, List.append_assoc, hm, h]

theorem decodeFrame_frameRN : decodeFrame .inRead frameRN = .instr .readNext := rfl

theorem decodeFrame_frameEND_inRead : decodeFrame .inRead frameEND = .instr .finishReading := by decide +kernel

theorem decodeFrame_frameEND_inWrite : decodeFrame .inWrite frameEND = .instr .finishWriting := by decide +kernel

theorem decodeFrame_frameWN (v : Byte) : decodeFrame .inWrite (frameWN v) = .instr (.writeNext v) := by
  have h := readMarked_markedBits false v []
  rw [List.append_nil] at h
  simp [decodeFrame, frameWN, h]

theorem quadBytes_append (v : Quad) :
    v.extractLsb' 24 8 ++ v.extractLsb' 16 8 ++ v.extractLsb' 8 8 ++ v.extractLsb' 0 8 = v := by
  have h1 : v.extractLsb' 24 8 ++ v.extractLsb' 16 8 = v.extractLsb' 16 16 :=
    BitVec.extractLsb'_append_extractLsb'_eq_extractLsb' rfl
  have h2 : v.extractLsb' 16 16 ++ v.extractLsb' 8 8 = v.extractLsb' 8 24 :=
    BitVec.extractLsb'_append_extractLsb'_eq_extractLsb' rfl
  have h3 : v.extractLsb' 8 24 ++ v.extractLsb' 0 8 = v.extractLsb' 0 32 :=
    BitVec.extractLsb'_append_extractLsb'_eq_extractLsb' rfl
  rw [h1, h2, h3, BitVec.extractLsb'_eq_self]

end Sys2Proof
end

