-- ==== Sys2Proof/Laws/Composites.lean ====
section
/-! SUPPORT. What a hung call leaves, the bytes of replies, and the composites the sequencer is made of, where all their calls complete (R121, R122, R124): the result, the events, and what the transaction leaves of the state. And what a completed L1 operation keeps. In proofs over several calls the state after each call is given a name of its own: a term that nests them is slow to compare. -/

namespace Sys2Proof.Machine

theorem State.called_END_outBits (s : State) (m : Nat) (c : List Bool) : (s.called frameEND m c).outBits 50 = frameEND := by
  have h := s.called_outBits frameEND m c (by simp [Config.bufCap])
  rwa [frameEND_length] at h

theorem State.KeptAbove.endsTransaction {s t : State} {n m : Nat} (h : s.KeptAbove n m t) (h1 : t.outCur = 50)
    (h2 : t.outBits 50 = frameEND) (h3 : t.inLen = 0) : EndsTransaction s t n m := ⟨h1, h2, h3, h.out, h.inb⟩

/-- A word is its two bytes, the first read below the second (R34, R121). -/
theorem wordOfBytes_eq (lo hi : Byte) : wordOfBytes lo hi = hi ++ lo := by
  apply BitVec.eq_of_toNat_eq
  refine Eq.trans ?_ (BitVec.toNat_append hi lo).symm
  have h1 := lo.isLt
  have h2 := hi.isLt
  simp only [wordOfBytes, BitVec.toNat_or, BitVec.toNat_shiftLeft, BitVec.truncate_eq_setWidth, BitVec.toNat_setWidth]
  rw [Nat.mod_eq_of_lt (by omega : lo.toNat < 2 ^ 16), Nat.mod_eq_of_lt (by omega : hi.toNat < 2 ^ 16), Nat.or_comm,
    Nat.mod_eq_of_lt]
  rw [Nat.shiftLeft_eq]
  omega

theorem State.readByte_eq (s : State) (c : List Bool) :
    s.readByte c = byteOf s.params.truncPolicy (capture 100 c s.draws) := rfl

/-! ### A hung call -/

/-- The hung call of `f` behind calls that kept the upper bits (R181). -/
theorem State.KeptAbove.hangsSending {s t : State} {n m : Nat} (h : s.KeptAbove n m t) (f : List Bool)
    (hn : f.length ≤ n) (hf : f.length ≤ Config.bufCap) : HangsSending s (t.hung f) f n m :=
  have k := h.trans (t.hung_keptAbove f hn hf)
  ⟨rfl, rfl, rfl, appendBits_outBits_of_reset f t hf, k.out, k.inb⟩

/-! ### txn after a row of calls -/

@[simp] theorem txnAfter_nil (before : Txn) : txnAfter before [] = before := rfl

theorem txnAfter_append (before : Txn) (a b : List (List Bool × List Bool)) :
    txnAfter before (a ++ b) = txnAfter (txnAfter before a) b := by
  cases h : b.getLast? with
  | none => simp [List.getLast?_eq_none_iff.mp h]
  | some call => simp only [txnAfter, List.getLast?_append, h, Option.some_or]

/-! ### The bytes of replies -/

/-- `hex2` writes the two lower-case characters (R8, R74). -/
theorem hex2_eq_lowerPair : ∀ b : Byte, hex2 b = lowerPair b := by decide +kernel

theorem occursIn_of_isInfix {p t : List Byte} (h : p <:+: t) : occursIn p t = true := by
  induction t with
  | nil => simp [List.infix_nil.mp h, occursIn]
  | cons b t ih =>
    rw [occursIn, Bool.or_eq_true, List.isPrefixOf_iff_prefix]
    exact (List.infix_cons_iff.mp h).imp_right ih

/-- DIAG's text does not contain EOL (R7), unless EOL is empty. -/
theorem not_isInfix_diagText {eol : List Byte} (h : eol ≠ []) (c : DiagContext) : ¬ eol <:+: diagText eol c := by
  rw [diagText]
  split
  · exact fun hi => h (List.infix_nil.mp hi)
  · exact fun hi => absurd (occursIn_of_isInfix hi) ‹_›

/-- Appended puts append their bytes (R151). -/
theorem State.replyBytes_append {s t : State} {out : List Put} (h : t.hostOut = s.hostOut ++ out)
    (hp : t.params = s.params) : t.replyBytes = s.replyBytes ++ out.flatMap (Put.bytes s.params) := by
  rw [State.replyBytes, State.replyBytes, h, hp, List.flatMap_append]

/-! ### One completed call in terms of the state before it -/

/-- What a completed L1 operation leaves alone. -/
structure State.KeptByL1 (s t : State) : Prop where
  conn : t.conn = s.conn
  rst : t.rst = s.rst
  greeted : t.greeted = s.greeted
  params : t.params = s.params
  hostIn : t.hostIn = s.hostIn
  presence : t.presence = s.presence
  calls : t.calls = s.calls
  hostOut : t.hostOut = s.hostOut
  ret : t.ret = s.ret
  blocked : t.blocked = s.blocked

theorem State.KeptByL1.refl (s : State) : s.KeptByL1 s := by constructor <;> rfl

theorem State.KeptByL1.trans {s t u : State} (h : s.KeptByL1 t) (k : t.KeptByL1 u) : s.KeptByL1 u :=
  ⟨k.conn.trans h.conn, k.rst.trans h.rst, k.greeted.trans h.greeted, k.params.trans h.params, k.hostIn.trans h.hostIn,
    k.presence.trans h.presence, k.calls.trans h.calls, k.hostOut.trans h.hostOut, k.ret.trans h.ret,
    k.blocked.trans h.blocked⟩

theorem Res.andThen_eq_done {α β : Type} {r : Res α} {f : α → State → Res β} {b : β} {u : State}
    (h : r.andThen f = .done b u) : ∃ a t, r = .done a t ∧ f a t = .done b u := by
  cases r with
  | done a t => exact ⟨a, t, rfl, h⟩
  | stopped e t => cases h

theorem readFirst_kept {a : Word} {s t : State} {v : Byte} (h : readFirst a s = .done v t) :
    s.KeptByL1 t ∧ t.txn = .reading := by
  rw [readFirst_eq] at h
  split at h
  · split at h
    · cases h
    · injection h with _ h
      subst h
      exact ⟨by constructor <;> simp, by simp⟩
  · cases h

theorem readNext_kept {s t : State} {v : Byte} (h : readNext s = .done v t) : s.KeptByL1 t ∧ t.txn = s.txn := by
  rw [readNext_eq] at h
  split at h
  · split at h
    · cases h
    · injection h with _ h
      subst h
      exact ⟨by constructor <;> simp, by simp⟩
  · cases h

theorem finishReading_kept {s t : State} {x : Unit} (h : finishReading s = .done x t) :
    s.KeptByL1 t ∧ t.txn = .closed := by
  rw [finishReading_eq] at h
  split at h
  · split at h
    · cases h
    · injection h with _ h
      subst h
      exact ⟨by constructor <;> simp, by simp⟩
  · cases h

theorem writeFirst_kept {a : Word} {v : Byte} {s t : State} {x : Unit} (h : writeFirst a v s = .done x t) :
    s.KeptByL1 t ∧ t.txn = .writing := by
  rw [writeFirst_eq] at h
  split at h
  · split at h
    · cases h
    · injection h with _ h
      subst h
      exact ⟨by constructor <;> simp, by simp⟩
  · cases h

theorem writeNext_kept {v : Byte} {s t : State} {x : Unit} (h : writeNext v s = .done x t) :
    s.KeptByL1 t ∧ t.txn = s.txn := by
  rw [writeNext_eq] at h
  split at h
  · split at h
    · cases h
    · injection h with _ h
      subst h
      exact ⟨by constructor <;> simp, by simp⟩
  · cases h

theorem finishWriting_kept {s t : State} {x : Unit} (h : finishWriting s = .done x t) :
    s.KeptByL1 t ∧ t.txn = .closed := by
  rw [finishWriting_eq] at h
  split at h
  · split at h
    · cases h
    · injection h with _ h
      subst h
      exact ⟨by constructor <;> simp, by simp⟩
  · cases h

/-! ### The composites of the sequencer -/

/-- `write_single_byte` where both calls complete (R122). -/
theorem writeSingleByte_completes {s : State} (a : Word) (v : Byte) {c0 c1 : List Bool} {rest : List Answer}
    (ho : s.mayOpen) (ha : s.answers = completing [c0, c1] ++ rest) :
    ∃ t, writeSingleByte a v s = .done () t ∧ EndsTransaction s t 250 0 ∧ s.KeptByL1 t ∧ t.txn = .closed ∧
      t.inPos = s.inPos ∧ t.answers = rest ∧ t.draws = s.draws + 2 ∧
      t.trace = s.trace ++ [.wire (frameWF a v) [], .wire frameEND []] := by
  rw [show completing [c0, c1] ++ rest = .completes c0 :: .completes c1 :: rest from rfl] at ha
  have h1 := writeFirst_completes a v ho.writeFirst ha
  have k1 := (State.KeptAbove.refl (n := 250) (m := 0) s).called (frameWF a v) 0 c0 (by simp) (by simp)
    (by simp [Config.bufCap])
  have p1 : ((s.called (frameWF a v) 0 c0).setTxn .writing).inPos = s.inPos := by simp
  have a1 : ((s.called (frameWF a v) 0 c0).setTxn .writing).answers = .completes c1 :: rest := by simp [ha]
  have d1 : ((s.called (frameWF a v) 0 c0).setTxn .writing).draws = s.draws + 1 := by simp
  have e1 : ((s.called (frameWF a v) 0 c0).setTxn .writing).trace = s.trace ++ [.wire (frameWF a v) []] := by simp
  have k1 := k1.setTxn .writing
  generalize (s.called (frameWF a v) 0 c0).setTxn .writing = t at h1 k1 p1 a1 d1 e1
  have q1 := writeFirst_kept h1
  have h2 := finishWriting_completes (State.mayRun_of_txn .writing q1.2 rfl) a1
  refine ⟨(t.called frameEND 0 c1).setTxn .closed, ?_, ?_, q1.1.trans (finishWriting_kept h2).1, rfl, by simpa using p1,
    by simp [a1], by simp [d1], by simp [e1]⟩
  · rw [writeSingleByte, h1]
    exact h2
  · refine State.KeptAbove.endsTransaction ?_ (by simp) (by rw [State.setTxn_outBits, State.called_END_outBits]) (by simp)
    exact (k1.called frameEND 0 c1 (by simp) (by simp) (by simp [Config.bufCap])).setTxn .closed

/-- `read_single_word` where all three calls complete (R121). -/
theorem readSingleWord_completes {s : State} (a : Word) {c0 c1 c2 : List Bool} {rest : List Answer} (ho : s.mayOpen)
    (ha : s.answers = completing [c0, c1, c2] ++ rest) :
    ∃ t, readSingleWord a s =
        .done (identityOf s.params.truncPolicy (capture 100 c0 s.draws) (capture 100 c1 (s.draws + 1))) t ∧
      EndsTransaction s t 204 100 ∧ s.KeptByL1 t ∧ t.txn = .closed ∧ t.answers = rest ∧ t.draws = s.draws + 3 ∧
      t.trace = s.trace ++ [.wire (frameRF a) (capture 100 c0 s.draws), .wire frameRN (capture 100 c1 (s.draws + 1)),
        .wire frameEND []] := by
  rw [show completing [c0, c1, c2] ++ rest = .completes c0 :: .completes c1 :: .completes c2 :: rest from rfl] at ha
  have h1 := readFirst_completes a ho.readFirst ha
  have k1 := ((State.KeptAbove.refl (n := 204) (m := 100) s).readCalled (frameRF a) c0 (by simp) (by decide)
    (by simp [Config.bufCap])).setTxn .reading
  have a1 : ((s.readCalled (frameRF a) c0).setTxn .reading).answers = .completes c1 :: .completes c2 :: rest := by
    simp [ha]
  have d1 : ((s.readCalled (frameRF a) c0).setTxn .reading).draws = s.draws + 1 := by simp
  have e1 : ((s.readCalled (frameRF a) c0).setTxn .reading).trace =
      s.trace ++ [.wire (frameRF a) (capture 100 c0 s.draws)] := by simp [Config.rxMargin]
  generalize (s.readCalled (frameRF a) c0).setTxn .reading = t at h1 k1 a1 d1 e1
  have q1 := readFirst_kept h1
  have h2 := readNext_completes (State.mayRun_of_txn .reading q1.2 rfl) a1
  have k2 := k1.readCalled frameRN c1 (by simp) (by decide) (by simp [Config.bufCap])
  have a2 : (t.readCalled frameRN c1).answers = .completes c2 :: rest := by simp [a1]
  have d2 : (t.readCalled frameRN c1).draws = s.draws + 2 := by simp [d1]
  have e2 : (t.readCalled frameRN c1).trace =
      s.trace ++ [.wire (frameRF a) (capture 100 c0 s.draws), .wire frameRN (capture 100 c1 (s.draws + 1))] := by
    simp [e1, d1, Config.rxMargin]
  generalize t.readCalled frameRN c1 = u at h2 k2 a2 d2 e2
  have q2 := readNext_kept h2
  have h3 := finishReading_completes (State.mayRun_of_txn .reading (q2.2.trans q1.2) rfl) a2
  refine ⟨(u.called frameEND 0 c2).setTxn .closed, ?_, ?_, q1.1.trans (q2.1.trans (finishReading_kept h3).1), rfl,
    by simp [a2], by simp [d2], by simp [e2]⟩
  · rw [readSingleWord, h1]
    simp only [Res.andThen_done, h2, h3]
    rw [wordOfBytes_eq, State.readByte_eq, State.readByte_eq, q1.1.params, d1]
    rfl
  · refine State.KeptAbove.endsTransaction ?_ (by simp) (by rw [State.setTxn_outBits, State.called_END_outBits]) (by simp)
    exact (k2.called frameEND 0 c2 (by simp) (by simp) (by simp [Config.bufCap])).setTxn .closed

end Sys2Proof.Machine
end

