-- ==== Sys2Proof/Laws/Decoder.lean ====
section
/-! SUPPORT. The decoder's runs (R90, R91): what a low-run and a high-run in front of a capture decode to, and what is left. -/

namespace Sys2Proof.Machine

/-! ### Runs -/

theorem runLength_replicate (level : Bool) (n : Nat) (rest : List Bool) (h : rest.head? ≠ some level) :
    runLength level (List.replicate n level ++ rest) = n := by
  induction n with
  | zero =>
    cases rest with
    | nil => rfl
    | cons b rest =>
      have hb : b ≠ level := by simpa using h
      simp [runLength, hb]
  | succ n ih => simp [List.replicate_succ, runLength, ih]

theorem afterRun_replicate (level : Bool) (n : Nat) (rest : List Bool) (h : rest.head? ≠ some level) :
    afterRun level (List.replicate n level ++ rest) = rest := by
  induction n with
  | zero =>
    cases rest with
    | nil => rfl
    | cons b rest =>
      have hb : b ≠ level := by simpa using h
      simp [afterRun, hb]
  | succ n ih => simp [List.replicate_succ, afterRun, ih]

theorem afterRun_length_le (level : Bool) (bits : List Bool) : (afterRun level bits).length ≤ bits.length := by
  induction bits with
  | nil => simp [afterRun]
  | cons b bits ih =>
    rw [afterRun]
    split
    · simp only [List.length_cons]
      omega
    · rfl

/-- The raw bits of a low-run and a high-run. -/
def pairBits (r : Nat × Nat) : List Bool := List.replicate r.1 false ++ List.replicate r.2 true

theorem pair_head (r : Nat × Nat) (rest : List Bool) (h : 0 < r.2) :
    (List.replicate r.2 true ++ rest).head? ≠ some false := by
  obtain ⟨n, hn⟩ := Nat.exists_eq_succ_of_ne_zero (Nat.pos_iff_ne_zero.mp h)
  simp [hn, List.replicate_succ]

theorem pairs_head (rs : List (Nat × Nat)) (tail : List Bool) (h : ∀ r ∈ rs, 0 < r.1 ∧ 0 < r.2)
    (ht : tail.head? ≠ some true) : (rs.flatMap pairBits ++ tail).head? ≠ some true := by
  cases rs with
  | nil => simpa using ht
  | cons r rs =>
    obtain ⟨n, hn⟩ := Nat.exists_eq_succ_of_ne_zero (Nat.pos_iff_ne_zero.mp (h r (by simp)).1)
    simp [pairBits, hn, List.replicate_succ]

theorem runBit_pair (r : Nat × Nat) (rest : List Bool) (h : 0 < r.2) (hr : rest.head? ≠ some true) :
    runBit (pairBits r ++ rest) = decide (r.1 > r.2) := by
  rw [runBit, pairBits, List.append_assoc, runLength_replicate _ _ _ (pair_head r rest h),
    afterRun_replicate _ _ _ (pair_head r rest h), runLength_replicate _ _ _ hr]

theorem afterRuns_pair (r : Nat × Nat) (rest : List Bool) (h : 0 < r.2) (hr : rest.head? ≠ some true) :
    afterRuns (pairBits r ++ rest) = rest := by
  rw [afterRuns, pairBits, List.append_assoc, afterRun_replicate _ _ _ (pair_head r rest h),
    afterRun_replicate _ _ _ hr]

/-! ### The accumulator -/

/-- `result <- (result << 1) | bit`. -/
def shiftIn (acc : Byte) (b : Bool) : Byte := acc <<< 1 ||| (if b then 1 else 0)

theorem ofMsbFirst_eq_foldl (bits : List Bool) : ofMsbFirst bits = bits.foldl shiftIn 0 := rfl

theorem decodeRuns_succ_of_ne (policy : TruncPolicy) (k : Nat) (acc : Byte) (bits : List Bool) (h : bits ≠ []) :
    decodeRuns policy (k + 1) acc bits = decodeRuns policy k (shiftIn acc (runBit bits)) (afterRuns bits) := by
  rw [decodeRuns, if_neg (fun hc => h hc.2)]
  rfl

/-- Whole pairs in front of a capture shift their bits in, one iteration each (R90). -/
theorem decodeRuns_pairs (policy : TruncPolicy) (rs : List (Nat × Nat)) (k : Nat) (acc : Byte) (tail : List Bool)
    (h : ∀ r ∈ rs, 0 < r.1 ∧ 0 < r.2) (ht : tail.head? ≠ some true) :
    decodeRuns policy (rs.length + k) acc (rs.flatMap pairBits ++ tail) =
      decodeRuns policy k ((rs.map fun r => decide (r.1 > r.2)).foldl shiftIn acc) tail := by
  induction rs generalizing acc with
  | nil => simp
  | cons r rs ih =>
    have hr := h r (by simp)
    have hs : ∀ r ∈ rs, 0 < r.1 ∧ 0 < r.2 := fun q hq => h q (by simp [hq])
    have hhead := pairs_head rs tail hs ht
    have hne : pairBits r ++ (rs.flatMap pairBits ++ tail) ≠ [] := by
      intro hc
      have : (pairBits r).length = 0 := by
        rw [(List.append_eq_nil_iff.mp hc).1]; rfl
      simp only [pairBits, List.length_append, List.length_replicate] at this
      omega
    rw [List.length_cons, show rs.length + 1 + k = (rs.length + k) + 1 by omega, List.flatMap_cons, List.append_assoc,
      decodeRuns_succ_of_ne _ _ _ _ hne, runBit_pair _ _ hr.2 hhead, afterRuns_pair _ _ hr.2 hhead, ih _ hs]
    rfl

theorem decodeRuns_exhausted_early (k : Nat) (acc : Byte) : decodeRuns .earlyReturn k acc [] = (acc, []) := by
  cases k <;> simp [decodeRuns]

theorem decodeRuns_exhausted_fill (k : Nat) (acc : Byte) : decodeRuns .zeroFill k acc [] = (acc <<< k, []) := by
  induction k generalizing acc with
  | zero => simp [decodeRuns]
  | succ k ih =>
    have h0 : runBit [] = false := rfl
    have h1 : afterRuns [] = [] := rfl
    rw [decodeRuns, if_neg (by simp), h0, h1]
    have hz : (acc <<< 1 ||| (if false = true then 1 else 0) : Byte) = acc <<< 1 := by
      ext i hi
      simp
    rw [hz, ih, ← BitVec.shiftLeft_add, Nat.add_comm]

theorem decodeRuns_length_le (policy : TruncPolicy) (k : Nat) (acc : Byte) (bits : List Bool) :
    (decodeRuns policy k acc bits).2.length ≤ bits.length := by
  induction k generalizing acc bits with
  | zero => simp [decodeRuns]
  | succ k ih =>
    rw [decodeRuns]
    split
    · exact Nat.le_refl _
    · refine Nat.le_trans (ih _ _) ?_
      exact Nat.le_trans (afterRun_length_le _ _) (afterRun_length_le _ _)

theorem pairs_length (rs : List (Nat × Nat)) : (rs.flatMap pairBits).length = (rs.map fun r => r.1 + r.2).sum := by
  induction rs with
  | nil => rfl
  | cons r rs ih =>
    rw [List.flatMap_cons, List.length_append, ih, List.map_cons, List.sum_cons]
    simp [pairBits]

/-! ### Symbols are pairs (R51) -/

/-- The run lengths of a symbol. -/
def symbolRuns (b : Bool) : Nat × Nat := if b then (4, 1) else (1, 4)

theorem symbolBits_eq_pair (b : Bool) : symbolBits b = pairBits (symbolRuns b) := by cases b <;> rfl

theorem symbolRuns_pos (b : Bool) : 0 < (symbolRuns b).1 ∧ 0 < (symbolRuns b).2 := by cases b <;> decide

theorem symbolRuns_bit (b : Bool) : decide ((symbolRuns b).1 > (symbolRuns b).2) = b := by cases b <;> rfl

theorem symbols_eq_pairs (bs : List Bool) : bs.flatMap symbolBits = (bs.map symbolRuns).flatMap pairBits := by
  induction bs with
  | nil => rfl
  | cons b bs ih => simp [symbolBits_eq_pair, ih]

theorem symbolRuns_bits (bs : List Bool) :
    ((bs.map symbolRuns).map fun r => decide (r.1 > r.2)) = bs := by
  induction bs with
  | nil => rfl
  | cons b bs ih => rw [List.map_cons, List.map_cons, ih, symbolRuns_bit]

end Sys2Proof.Machine
end

