-- ==== Sys2Proof/Laws/Machine.lean ====
section
/-! SUPPORT. What an operation can do to the state, said once: a relation between the states before and after that every elementary effect keeps is kept by every operation, every command and every meaning. And what a step can do. -/

namespace Sys2Proof.Machine

/-! ### The elementary effects -/

/-- A relation kept by the effects the L1 operations are made of. -/
structure CallEffects (R : State → State → Prop) : Prop where
  refl : ∀ s, R s s
  trans : ∀ {s t u}, R s t → R t u → R s u
  called : ∀ s f m c, ProtocolCall f m → R s (s.called f m c)
  hung : ∀ s f m, ProtocolCall f m → R s (s.hung f)
  decoded : ∀ s, R s (afterDecode s)
  txn : ∀ s t, R s (s.setTxn t)
  rejected : ∀ s op, s.mayRun op = false → R s (s.returns (.sequenceError op s.txn))

/-- A relation kept by the effects of the initializer too. -/
structure InitEffects (R : State → State → Prop) : Prop extends CallEffects R where
  rst : ∀ s l, R s (s.setRst l)
  delay : ∀ s t, R s (s.delay t)
  conn : ∀ s c, R s (s.setConn c)

/-- A relation kept by the effects of the commands `s`, `R`, `W` and of an unrecognized verb too. -/
structure HostEffects (R : State → State → Prop) : Prop extends CallEffects R where
  put : ∀ s p, R s (s.put p)
  hostIn : ∀ s used rest, s.hostIn = used ++ rest → R s { s with hostIn := rest }
  dry : ∀ s, R s { s with hostIn := [], blocked := .inHostGet }

/-- A relation kept by the effects of every host command. -/
structure CommandEffects (R : State → State → Prop) : Prop extends InitEffects R, HostEffects R

/-- A relation kept by the L0 operations and a direct Transport call too: by every meaning. -/
structure AllEffects (R : State → State → Prop) : Prop extends CommandEffects R where
  rawBit : ∀ s b, R s (writeRawBit b s)
  cursor : ∀ s, R s (resetOut s)
  ret : ∀ s r, (∀ op x, r ≠ .sequenceError op x) → R s (s.returns r)
  wire : ∀ s n m, n ≤ s.outCur → s.outCur ≤ Config.bufCap → m ≤ Config.bufCap → R s (transport n m s).state

/-! ### The five frames are protocol calls (R63, R104) -/

theorem protocol_RF (a : Word) : ProtocolCall (frameRF a) Config.rxMargin := .inl ⟨⟨a, rfl⟩, by simp, rfl⟩

theorem protocol_RN : ProtocolCall frameRN Config.rxMargin := .inr (.inl ⟨rfl, rfl, rfl⟩)

theorem protocol_END : ProtocolCall frameEND 0 := .inr (.inr (.inl ⟨rfl, by simp, rfl⟩))

theorem protocol_WF (a : Word) (v : Byte) : ProtocolCall (frameWF a v) 0 :=
  .inr (.inr (.inr (.inl ⟨⟨a, v, rfl⟩, by simp, rfl⟩)))

theorem protocol_WN (v : Byte) : ProtocolCall (frameWN v) 0 := .inr (.inr (.inr (.inr ⟨⟨v, rfl⟩, by simp, rfl⟩)))

/-! ### Operations made of the effects -/

namespace CallEffects

variable {R : State → State → Prop}

theorem andThen (h : CallEffects R) {α β : Type} {s : State} {r : Res α} {f : α → State → Res β} (h1 : R s r.state)
    (h2 : ∀ a t, R t (f a t).state) : R s (r.andThen f).state := by
  cases r with
  | done a t => exact h.trans h1 (h2 a t)
  | stopped e t => exact h1

theorem readFirst (h : CallEffects R) (a : Word) (s : State) : R s (readFirst a s).state := by
  rw [readFirst_eq]
  split
  · split
    · exact h.hung _ _ _ (protocol_RF a)
    · exact h.trans (h.trans (h.called _ _ _ _ (protocol_RF a)) (h.decoded _)) (h.txn _ _)
  · exact h.rejected _ _ (Bool.eq_false_iff.mpr ‹_›)

theorem readNext (h : CallEffects R) (s : State) : R s (readNext s).state := by
  rw [readNext_eq]
  split
  · split
    · exact h.hung _ _ _ protocol_RN
    · exact h.trans (h.called _ _ _ _ protocol_RN) (h.decoded _)
  · exact h.rejected _ _ (Bool.eq_false_iff.mpr ‹_›)

theorem finishReading (h : CallEffects R) (s : State) : R s (finishReading s).state := by
  rw [finishReading_eq]
  split
  · split
    · exact h.hung _ _ _ protocol_END
    · exact h.trans (h.called _ _ _ _ protocol_END) (h.txn _ _)
  · exact h.rejected _ _ (Bool.eq_false_iff.mpr ‹_›)

theorem writeFirst (h : CallEffects R) (a : Word) (v : Byte) (s : State) : R s (writeFirst a v s).state := by
  rw [writeFirst_eq]
  split
  · split
    · exact h.hung _ _ _ (protocol_WF a v)
    · exact h.trans (h.called _ _ _ _ (protocol_WF a v)) (h.txn _ _)
  · exact h.rejected _ _ (Bool.eq_false_iff.mpr ‹_›)

theorem writeNext (h : CallEffects R) (v : Byte) (s : State) : R s (writeNext v s).state := by
  rw [writeNext_eq]
  split
  · split
    · exact h.hung _ _ _ (protocol_WN v)
    · exact h.called _ _ _ _ (protocol_WN v)
  · exact h.rejected _ _ (Bool.eq_false_iff.mpr ‹_›)

theorem finishWriting (h : CallEffects R) (s : State) : R s (finishWriting s).state := by
  rw [finishWriting_eq]
  split
  · split
    · exact h.hung _ _ _ protocol_END
    · exact h.trans (h.called _ _ _ _ protocol_END) (h.txn _ _)
  · exact h.rejected _ _ (Bool.eq_false_iff.mpr ‹_›)

theorem readSingleByte (h : CallEffects R) (a : Word) (s : State) : R s (readSingleByte a s).state :=
  h.andThen (h.readFirst a s) fun _ t => h.andThen (h.finishReading t) fun _ _ => h.refl _

theorem readSingleWord (h : CallEffects R) (a : Word) (s : State) : R s (readSingleWord a s).state :=
  h.andThen (h.readFirst a s) fun _ t =>
    h.andThen (h.readNext t) fun _ u => h.andThen (h.finishReading u) fun _ _ => h.refl _

theorem writeSingleByte (h : CallEffects R) (a : Word) (v : Byte) (s : State) : R s (writeSingleByte a v s).state :=
  h.andThen (h.writeFirst a v s) fun _ t => h.finishWriting t

theorem writeSingleWord (h : CallEffects R) (a v : Word) (s : State) : R s (writeSingleWord a v s).state :=
  h.andThen (h.writeFirst a _ s) fun _ t => h.andThen (h.writeNext _ t) fun _ u => h.finishWriting u

theorem writeSingleQuad (h : CallEffects R) (a : Word) (v : Quad) (s : State) : R s (writeSingleQuad a v s).state :=
  h.andThen (h.writeFirst a _ s) fun _ t =>
    h.andThen (h.writeNext _ t) fun _ u =>
      h.andThen (h.writeNext _ u) fun _ w => h.andThen (h.writeNext _ w) fun _ x => h.finishWriting x

end CallEffects

namespace HostEffects

variable {R : State → State → Prop}

theorem emitStatus (h : HostEffects R) (c : Byte) (s : State) : R s (s.emitStatus c) := h.trans (h.put _ _) (h.put _ _)

theorem emitDiag (h : HostEffects R) (c : DiagContext) (s : State) : R s (s.emitDiag c) := h.trans (h.put _ _) (h.put _ _)

theorem cmdShow (h : HostEffects R) (s : State) : R s (cmdShow s).state :=
  h.andThen (h.readSingleWord _ s) fun _ _ => h.trans (h.emitDiag _ _) (h.emitStatus _ _)

theorem readRest (h : HostEffects R) (n : Nat) (s : State) : R s (readRest n s).state := by
  induction n generalizing s with
  | zero => exact h.refl s
  | succ n ih => exact h.andThen (h.readNext s) fun _ t => h.trans (h.put _ _) (ih _)

theorem cmdReadSome (h : HostEffects R) (a : Word) (n : Nat) (s : State) : R s (cmdReadSome a n s).state :=
  h.andThen (h.readFirst a s) fun _ _ =>
    h.trans (h.put _ _) (h.andThen (h.readRest _ _) fun _ u =>
      h.andThen (h.finishReading u) fun _ _ => h.trans (h.put _ _) (h.emitStatus _ _))

theorem cmdRead (h : HostEffects R) (a n : Word) (s : State) : R s (cmdRead a n s).state := by
  rw [Machine.cmdRead]
  split
  · exact h.emitStatus _ _
  · exact h.cmdReadSome _ _ _

theorem hostHex (h : HostEffects R) (k : Nat) (s : State) : R s (hostHex k s).state := by
  rw [Machine.hostHex]
  split
  · rename_i hv
    obtain ⟨used, hu, -⟩ := hexFrom_value hv
    exact h.hostIn _ _ _ hu
  · exact h.dry s
  · exact h.refl s

theorem payloadByte (h : HostEffects R) (s : State) : R s (payloadByte s).state :=
  h.andThen (h.hostHex 2 s) fun _ _ => h.refl _

theorem writeRest (h : HostEffects R) (n : Nat) (s : State) : R s (writeRest n s).state := by
  induction n generalizing s with
  | zero => exact h.refl s
  | succ n ih => exact h.andThen (h.payloadByte s) fun _ t => h.andThen (h.writeNext _ t) fun _ u => ih u

theorem cmdWriteSome (h : HostEffects R) (a : Word) (n : Nat) (s : State) : R s (cmdWriteSome a n s).state :=
  h.andThen (h.payloadByte s) fun _ t =>
    h.andThen (h.writeFirst a _ t) fun _ u =>
      h.andThen (h.writeRest _ u) fun _ w => h.andThen (h.finishWriting w) fun _ _ => h.emitStatus _ _

theorem cmdWrite (h : HostEffects R) (a n : Word) (s : State) : R s (cmdWrite a n s).state := by
  rw [Machine.cmdWrite]
  split
  · exact h.emitStatus _ _
  · exact h.cmdWriteSome _ _ _

theorem cmdOther (h : HostEffects R) (verb : Byte) (s : State) : R s (cmdOther verb s) :=
  h.trans (h.emitStatus _ _) (h.emitDiag _ _)

end HostEffects

/-- The outcome of a command is its state or a refusal. -/
theorem Res.outcome_next {r : Res Unit} {t : State} (h : r.outcome = .next t) : t = r.state := by
  cases r with
  | done a s => exact (Host.Outcome.next.inj h).symm
  | stopped e s =>
    cases e with
    | badDigit b => cases h
    | stall => exact (Host.Outcome.next.inj h).symm
    | hostDry => exact (Host.Outcome.next.inj h).symm
    | sequenceError => exact (Host.Outcome.next.inj h).symm

namespace InitEffects

variable {R : State → State → Prop}

theorem onMatch (h : InitEffects R) (d : Nat) (s : State) : R s (onMatch d s).state :=
  h.andThen (h.writeSingleByte _ _ s) fun _ _ =>
    h.trans (h.conn _ _) (h.andThen (h.writeSingleQuad _ _ _) fun _ _ => h.refl _)

theorem scan (h : InitEffects R) (ds : List Nat) (s : State) : R s (scan ds s).state := by
  induction ds generalizing s with
  | nil => exact h.conn _ _
  | cons d ds ih =>
    refine h.andThen (h.writeSingleByte _ _ s) fun _ t => h.andThen (h.readSingleWord _ t) fun id u => ?_
    split
    · exact h.onMatch d u
    · exact ih u

theorem initTarget (h : InitEffects R) (s : State) : R s (initTarget s).state := by
  have hp : R s ((resetPulse s).setConn .resetting) :=
    h.trans (h.trans (h.trans (h.trans (h.rst _ _) (h.delay _ _)) (h.rst _ _)) (h.delay _ _)) (h.conn _ _)
  refine h.trans hp (h.andThen (h.writeSingleByte _ _ _) fun _ t => ?_)
  exact h.trans (h.conn _ _) (h.scan _ _)

end InitEffects

namespace CommandEffects

variable {R : State → State → Prop}

theorem cmdInit (h : CommandEffects R) (s : State) : R s (cmdInit s).state :=
  h.andThen (h.initTarget s) fun _ _ => h.emitStatus _ _

theorem cmdReset (h : CommandEffects R) (flag : Nibble) (s : State) : R s (cmdReset flag s) := by
  rw [Machine.cmdReset]
  split
  · exact h.trans (h.trans (h.rst _ _) (h.conn _ _)) (h.emitStatus _ _)
  · exact h.trans (h.rst _ _) (h.emitStatus _ _)

end CommandEffects

namespace AllEffects

variable {R : State → State → Prop}

theorem appendBits (h : AllEffects R) (bits : List Bool) (s : State) : R s (appendBits bits s) := by
  induction bits generalizing s with
  | nil => exact h.refl s
  | cons b bits ih => exact h.trans (h.rawBit s b) (ih _)

theorem report (h : AllEffects R) {α : Type} {s : State} {r : Res α} (f : α → Ret)
    (hf : ∀ a op x, f a ≠ .sequenceError op x) (h1 : R s r.state) :
    R s (r.report f) := by
  cases r with
  | done a t => exact h.trans h1 (h.ret _ _ (hf a))
  | stopped e t => exact h1

/-- Every meaning keeps a relation that every elementary effect keeps. -/
theorem exec (h : AllEffects R) {i : Instr} {s t : State} (hx : exec i s = .next t) : R s t := by
  cases i with
  | writeRawBit b => rw [← Host.Outcome.next.inj hx]; exact h.trans (h.rawBit s b) (h.ret _ _ (by simp))
  | writeBakedOne => rw [← Host.Outcome.next.inj hx]; rw [writeBakedBit_eq]; exact h.trans (h.appendBits _ s) (h.ret _ _ (by simp))
  | writeBakedZero => rw [← Host.Outcome.next.inj hx]; rw [writeBakedBit_eq]; exact h.trans (h.appendBits _ s) (h.ret _ _ (by simp))
  | writeByte b => rw [← Host.Outcome.next.inj hx]; rw [writeByte_eq]; exact h.trans (h.appendBits _ s) (h.ret _ _ (by simp))
  | writeCmdByte b => rw [← Host.Outcome.next.inj hx]; rw [writeCmdByte_eq]; exact h.trans (h.appendBits _ s) (h.ret _ _ (by simp))
  | writeDataByte b => rw [← Host.Outcome.next.inj hx]; rw [writeDataByte_eq]; exact h.trans (h.appendBits _ s) (h.ret _ _ (by simp))
  | writeDataWord w => rw [← Host.Outcome.next.inj hx]; rw [writeDataWord_eq]; exact h.trans (h.appendBits _ s) (h.ret _ _ (by simp))
  | resetOut => rw [← Host.Outcome.next.inj hx]; exact h.trans (h.cursor s) (h.ret _ _ (by simp))
  | decodeByte => rw [← Host.Outcome.next.inj hx]; exact h.trans (h.decoded s) (h.ret _ _ (by simp))
  | transport n m =>
    simp only [Machine.exec, execTransport] at hx
    split at hx
    · rename_i hr
      rw [← Host.Outcome.next.inj hx]
      exact h.report _ (by simp) (h.wire s n m hr.1 hr.2.1 hr.2.2)
    · cases hx
  | readFirst a => rw [← Host.Outcome.next.inj hx]; exact h.report _ (by simp) (h.readFirst a s)
  | readNext => rw [← Host.Outcome.next.inj hx]; exact h.report _ (by simp) (h.readNext s)
  | finishReading => rw [← Host.Outcome.next.inj hx]; exact h.report _ (by simp) (h.finishReading s)
  | writeFirst a v => rw [← Host.Outcome.next.inj hx]; exact h.report _ (by simp) (h.writeFirst a v s)
  | writeNext v => rw [← Host.Outcome.next.inj hx]; exact h.report _ (by simp) (h.writeNext v s)
  | finishWriting => rw [← Host.Outcome.next.inj hx]; exact h.report _ (by simp) (h.finishWriting s)
  | readSingleByte a => rw [← Host.Outcome.next.inj hx]; exact h.report _ (by simp) (h.readSingleByte a s)
  | readSingleWord a => rw [← Host.Outcome.next.inj hx]; exact h.report _ (by simp) (h.readSingleWord a s)
  | writeSingleByte a v => rw [← Host.Outcome.next.inj hx]; exact h.report _ (by simp) (h.writeSingleByte a v s)
  | writeSingleWord a v => rw [← Host.Outcome.next.inj hx]; exact h.report _ (by simp) (h.writeSingleWord a v s)
  | writeSingleQuad a v => rw [← Host.Outcome.next.inj hx]; exact h.report _ (by simp) (h.writeSingleQuad a v s)
  | init => rw [← Host.Outcome.next.inj hx]; exact h.report _ (by simp) (h.initTarget s)
  | cmdInit => rw [← Host.Outcome.next.inj hx]; exact h.cmdInit s
  | cmdReset flag => rw [← Host.Outcome.next.inj hx]; exact h.cmdReset flag s
  | cmdShow => rw [← Host.Outcome.next.inj hx]; exact h.cmdShow s
  | cmdRead a n => rw [← Host.Outcome.next.inj hx]; exact h.cmdRead a n s
  | cmdWrite a n => rw [Res.outcome_next hx]; exact h.cmdWrite a n s
  | cmdOther verb => rw [← Host.Outcome.next.inj hx]; exact h.cmdOther verb s

end AllEffects

/-! ### What a step can do -/

/-- A step that answers a next state comes from a running block: the first pending call run, a host command run after
the banner check, or a host stream that ran dry. -/
theorem step_cases {s t : State} (h : step s = .next t) :
    s.blocked = .running ∧
      ((∃ i calls, s.calls = i :: calls ∧ i.wellFormed = true ∧ i.isHostCommand = false ∧
          exec i { s with calls := calls, ret := .none } = .next t) ∨
        (∃ i rest, s.calls = [] ∧ decode s.hostIn = .command i rest ∧
          exec i { bannerCheck s with hostIn := rest } = .next t) ∨
        (s.calls = [] ∧ decode s.hostIn = .dry ∧ t = { bannerCheck s with hostIn := [], blocked := .inHostGet })) := by
  have hb : s.blocked = .running := by
    rw [step] at h
    cases hb : s.blocked with
    | running => rfl
    | inTransport => rw [hb] at h; cases h
    | inHostGet => rw [hb] at h; cases h
  refine ⟨hb, ?_⟩
  rw [step, hb] at h
  simp only [fetch] at h
  cases hc : s.calls with
  | cons i calls =>
    rw [hc] at h
    by_cases hi : (i.wellFormed && !i.isHostCommand) = true
    · simp only [hi, if_true] at h
      simp only [Bool.and_eq_true, Bool.not_eq_true'] at hi
      exact .inl ⟨i, calls, rfl, hi.1, hi.2, h⟩
    · simp only [hi] at h
      cases h
  | nil =>
    rw [hc] at h
    simp only [fetchCommand] at h
    cases hd : decode s.hostIn with
    | command i rest => rw [hd] at h; exact .inr (.inl ⟨i, rest, rfl, rfl, h⟩)
    | dry => rw [hd] at h; exact .inr (.inr ⟨rfl, rfl, (Host.Outcome.next.inj h).symm⟩)
    | badDigit b => rw [hd] at h; cases h

end Sys2Proof.Machine
end

