-- ==== Sys2Proof/Laws/PerInstr.lean ====
section
/-! SUPPORT. A statement made of every instruction as syntax: its encoding has the length its row of spec/opcode_table.json gives. -/

namespace Sys2Proof.Laws.EncodeLength

/-- How many raw bits (wire rows) or host bytes (host rows, `W` up to its count field) an encoding has; a row without an
encoding has none. -/
def size : Code → Nat
  | .host bytes => bytes.length
  | .line _ bits => bits.length
  | .frame _ bits => bits.length
  | .frames fs => (fs.map List.length).sum
  | .named _ => 0

/-- The lengths of the table's rows: `raw_length` of the L0 and L1 rows, the sum of the frames' lengths (R63) of the
composites, `length_bytes` of the host commands (R72). -/
def tableLength : Instr → Nat
  | .writeRawBit _ => 1
  | .writeBakedOne => 5
  | .writeBakedZero => 5
  | .writeByte _ => 45
  | .writeCmdByte _ => 50
  | .writeDataByte _ => 50
  | .writeDataWord _ => 100
  | .resetOut => 0
  | .decodeByte => 0
  | .transport _ _ => 0
  | .readFirst _ => 204
  | .readNext => 4
  | .finishReading => 50
  | .writeFirst _ _ => 250
  | .writeNext _ => 50
  | .finishWriting => 50
  | .readSingleByte _ => 204 + 50
  | .readSingleWord _ => 204 + 4 + 50
  | .writeSingleByte _ _ => 250 + 50
  | .writeSingleWord _ _ => 250 + 50 + 50
  | .writeSingleQuad _ _ => 250 + 50 + 50 + 50 + 50
  | .init => 0
  | .cmdInit => 1
  | .cmdReset _ => 2
  | .cmdShow => 1
  | .cmdRead _ _ => 9
  | .cmdWrite _ _ => 9
  | .cmdOther _ => 1

/-- The encoding's length is the table's. -/
def Statement (i : Instr) : Prop := size (encode i) = tableLength i

theorem writeRawBit (bit : Bool) : Statement (.writeRawBit bit) := rfl

theorem writeBakedOne : Statement .writeBakedOne := rfl

theorem writeBakedZero : Statement .writeBakedZero := rfl

theorem writeByte (b : Byte) : Statement (.writeByte b) := Machine.byteBits_length b

theorem writeCmdByte (b : Byte) : Statement (.writeCmdByte b) := Machine.markedBits_length true b

theorem writeDataByte (b : Byte) : Statement (.writeDataByte b) := Machine.markedBits_length false b

theorem writeDataWord (w : Word) : Statement (.writeDataWord w) := Machine.dataWordBits_length w

theorem resetOut : Statement .resetOut := rfl

theorem decodeByte : Statement .decodeByte := rfl

theorem transport (n m : Nat) : Statement (.transport n m) := rfl

theorem readFirst (address : Word) : Statement (.readFirst address) := Machine.frameRF_length address

theorem readNext : Statement .readNext := rfl

theorem finishReading : Statement .finishReading := Machine.frameEND_length

theorem writeFirst (address : Word) (value : Byte) : Statement (.writeFirst address value) :=
  Machine.frameWF_length address value

theorem writeNext (value : Byte) : Statement (.writeNext value) := Machine.frameWN_length value

theorem finishWriting : Statement .finishWriting := Machine.frameEND_length

theorem readSingleByte (address : Word) : Statement (.readSingleByte address) := by
  simp [Statement, encode, size, tableLength]

theorem readSingleWord (address : Word) : Statement (.readSingleWord address) := by
  simp [Statement, encode, size, tableLength]

theorem writeSingleByte (address : Word) (value : Byte) : Statement (.writeSingleByte address value) := by
  simp [Statement, encode, size, tableLength]

theorem writeSingleWord (address value : Word) : Statement (.writeSingleWord address value) := by
  simp [Statement, encode, size, tableLength]

theorem writeSingleQuad (address : Word) (value : Quad) : Statement (.writeSingleQuad address value) := by
  simp [Statement, encode, size, tableLength]

theorem init : Statement .init := rfl

theorem cmdInit : Statement .cmdInit := rfl

theorem cmdReset (flag : Nibble) : Statement (.cmdReset flag) := rfl

theorem cmdShow : Statement .cmdShow := rfl

theorem cmdRead (address count : Word) : Statement (.cmdRead address count) := rfl

theorem cmdWrite (address count : Word) : Statement (.cmdWrite address count) := rfl

theorem cmdOther (verb : Byte) : Statement (.cmdOther verb) := rfl

end Sys2Proof.Laws.EncodeLength
end

