-- ==== Sys2Proof/Laws/TwoRuns.lean ====
section
/-! SUPPORT. Two runs side by side: a relation between the states of two runs that the elementary effects keep, made in both, is kept by every operation, every command and every meaning, and both runs end the same way. -/

namespace Sys2Proof.Machine

/-- A relation between two states that the same elementary effect, made in both, keeps, and that fixes what the
operations read. -/
structure TwoRuns (Q : State → State → Prop) : Prop where
  params : ∀ {s t}, Q s t → t.params = s.params
  txn : ∀ {s t}, Q s t → t.txn = s.txn
  answers : ∀ {s t}, Q s t → t.answers = s.answers
  draws : ∀ {s t}, Q s t → t.draws = s.draws
  hostIn : ∀ {s t}, Q s t → t.hostIn = s.hostIn
  called : ∀ {s t f m} c, Q s t → ProtocolCall f m → Q (s.called f m c) (t.called f m c)
  hung : ∀ {s t f m}, Q s t → ProtocolCall f m → Q (s.hung f) (t.hung f)
  decoded : ∀ {s t}, Q s t → Q (afterDecode s) (afterDecode t)
  setTxn : ∀ {s t} x, Q s t → Q (s.setTxn x) (t.setTxn x)
  returns : ∀ {s t} r, Q s t → Q (s.returns r) (t.returns r)
  setRst : ∀ {s t} l, Q s t → Q (s.setRst l) (t.setRst l)
  delay : ∀ {s t} d, Q s t → Q (s.delay d) (t.delay d)
  setConn : ∀ {s t} c, Q s t → Q (s.setConn c) (t.setConn c)
  put : ∀ {s t} p, Q s t → Q (s.put p) (t.put p)
  consume : ∀ {s t} rest, Q s t → Q { s with hostIn := rest } { t with hostIn := rest }
  dry : ∀ {s t}, Q s t → Q { s with hostIn := [], blocked := .inHostGet } { t with hostIn := [], blocked := .inHostGet }

/-- Both operations end the same way, in related states. -/
def Res.Same {α : Type} (Q : State → State → Prop) : Res α → Res α → Prop
  | .done a s, .done b t => a = b ∧ Q s t
  | .stopped e s, .stopped f t => e = f ∧ Q s t
  | .done _ _, .stopped _ _ => False
  | .stopped _ _, .done _ _ => False

theorem Res.Same.andThen {α β : Type} {Q : State → State → Prop} {r r' : Res α} {f : α → State → Res β}
    (h : Res.Same Q r r') (hf : ∀ a s t, Q s t → Res.Same Q (f a s) (f a t)) :
    Res.Same Q (r.andThen f) (r'.andThen f) := by
  cases r with
  | done a s =>
    cases r' with
    | done b t =>
      obtain ⟨rfl, q⟩ := h
      exact hf a s t q
    | stopped g t => exact h.elim
  | stopped e s =>
    cases r' with
    | done b t => exact h.elim
    | stopped g t => exact h

namespace TwoRuns

variable {Q : State → State → Prop} {s t : State}

theorem mayRun (h : TwoRuns Q) (q : Q s t) (op : Primitive) : t.mayRun op = s.mayRun op := by
  rw [State.mayRun, State.mayRun, h.params q, h.txn q]

theorem nextAnswer (h : TwoRuns Q) (q : Q s t) : t.nextAnswer = s.nextAnswer := by
  rw [State.nextAnswer, State.nextAnswer, h.answers q, h.draws q]

theorem readByte (h : TwoRuns Q) (q : Q s t) (c : List Bool) : t.readByte c = s.readByte c := by
  rw [State.readByte, State.readByte, h.params q, h.draws q]

theorem sequenceError (h : TwoRuns Q) (q : Q s t) {α : Type} (op : Primitive) :
    Res.Same Q (Machine.sequenceError op s : Res α) (Machine.sequenceError op t) := by
  refine ⟨rfl, ?_⟩
  rw [h.txn q]
  exact h.returns _ q

theorem readFirst (h : TwoRuns Q) (a : Word) (q : Q s t) : Res.Same Q (readFirst a s) (readFirst a t) := by
  rw [readFirst_eq, readFirst_eq, h.mayRun q, h.nextAnswer q]
  split
  · split
    · exact ⟨rfl, h.hung q (protocol_RF a)⟩
    · exact ⟨(h.readByte q _).symm, h.setTxn _ (h.decoded (h.called _ q (protocol_RF a)))⟩
  · exact h.sequenceError q _

theorem readNext (h : TwoRuns Q) (q : Q s t) : Res.Same Q (readNext s) (readNext t) := by
  rw [readNext_eq, readNext_eq, h.mayRun q, h.nextAnswer q]
  split
  · split
    · exact ⟨rfl, h.hung q protocol_RN⟩
    · exact ⟨(h.readByte q _).symm, h.decoded (h.called _ q protocol_RN)⟩
  · exact h.sequenceError q _

theorem finishReading (h : TwoRuns Q) (q : Q s t) : Res.Same Q (finishReading s) (finishReading t) := by
  rw [finishReading_eq, finishReading_eq, h.mayRun q, h.nextAnswer q]
  split
  · split
    · exact ⟨rfl, h.hung q protocol_END⟩
    · exact ⟨rfl, h.setTxn _ (h.called _ q protocol_END)⟩
  · exact h.sequenceError q _

theorem writeFirst (h : TwoRuns Q) (a : Word) (v : Byte) (q : Q s t) :
    Res.Same Q (writeFirst a v s) (writeFirst a v t) := by
  rw [writeFirst_eq, writeFirst_eq, h.mayRun q, h.nextAnswer q]
  split
  · split
    · exact ⟨rfl, h.hung q (protocol_WF a v)⟩
    · exact ⟨rfl, h.setTxn _ (h.called _ q (protocol_WF a v))⟩
  · exact h.sequenceError q _

theorem writeNext (h : TwoRuns Q) (v : Byte) (q : Q s t) : Res.Same Q (writeNext v s) (writeNext v t) := by
  rw [writeNext_eq, writeNext_eq, h.mayRun q, h.nextAnswer q]
  split
  · split
    · exact ⟨rfl, h.hung q (protocol_WN v)⟩
    · exact ⟨rfl, h.called _ q (protocol_WN v)⟩
  · exact h.sequenceError q _

theorem finishWriting (h : TwoRuns Q) (q : Q s t) : Res.Same Q (finishWriting s) (finishWriting t) := by
  rw [finishWriting_eq, finishWriting_eq, h.mayRun q, h.nextAnswer q]
  split
  · split
    · exact ⟨rfl, h.hung q protocol_END⟩
    · exact ⟨rfl, h.setTxn _ (h.called _ q protocol_END)⟩
  · exact h.sequenceError q _

theorem readSingleByte (h : TwoRuns Q) (a : Word) (q : Q s t) :
    Res.Same Q (readSingleByte a s) (readSingleByte a t) :=
  (h.readFirst a q).andThen fun _ _ _ q => (h.finishReading q).andThen fun _ _ _ q => ⟨rfl, q⟩

theorem readSingleWord (h : TwoRuns Q) (a : Word) (q : Q s t) :
    Res.Same Q (readSingleWord a s) (readSingleWord a t) :=
  (h.readFirst a q).andThen fun _ _ _ q =>
    (h.readNext q).andThen fun _ _ _ q => (h.finishReading q).andThen fun _ _ _ q => ⟨rfl, q⟩

theorem writeSingleByte (h : TwoRuns Q) (a : Word) (v : Byte) (q : Q s t) :
    Res.Same Q (writeSingleByte a v s) (writeSingleByte a v t) :=
  (h.writeFirst a v q).andThen fun _ _ _ q => h.finishWriting q

theorem writeSingleWord (h : TwoRuns Q) (a v : Word) (q : Q s t) :
    Res.Same Q (writeSingleWord a v s) (writeSingleWord a v t) :=
  (h.writeFirst a _ q).andThen fun _ _ _ q => (h.writeNext _ q).andThen fun _ _ _ q => h.finishWriting q

theorem writeSingleQuad (h : TwoRuns Q) (a : Word) (v : Quad) (q : Q s t) :
    Res.Same Q (writeSingleQuad a v s) (writeSingleQuad a v t) :=
  (h.writeFirst a _ q).andThen fun _ _ _ q =>
    (h.writeNext _ q).andThen fun _ _ _ q =>
      (h.writeNext _ q).andThen fun _ _ _ q => (h.writeNext _ q).andThen fun _ _ _ q => h.finishWriting q

theorem emitStatus (h : TwoRuns Q) (c : Byte) (q : Q s t) : Q (s.emitStatus c) (t.emitStatus c) :=
  h.put _ (h.put _ q)

theorem emitDiag (h : TwoRuns Q) (c : DiagContext) (q : Q s t) : Q (s.emitDiag c) (t.emitDiag c) :=
  h.put _ (h.put _ q)

theorem onMatch (h : TwoRuns Q) (d : Nat) (q : Q s t) : Res.Same Q (onMatch d s) (onMatch d t) :=
  (h.writeSingleByte _ _ q).andThen fun _ _ _ q =>
    (h.writeSingleQuad _ _ (h.setConn _ q)).andThen fun _ _ _ q => ⟨rfl, q⟩

theorem scan (h : TwoRuns Q) (ds : List Nat) (q : Q s t) : Res.Same Q (scan ds s) (scan ds t) := by
  induction ds generalizing s t with
  | nil => exact ⟨rfl, h.setConn _ q⟩
  | cons d ds ih =>
    refine (h.writeSingleByte _ _ q).andThen fun _ _ _ q => (h.readSingleWord _ q).andThen fun id _ _ q => ?_
    split
    · exact h.onMatch d q
    · exact ih q

theorem initTarget (h : TwoRuns Q) (q : Q s t) : Res.Same Q (initTarget s) (initTarget t) := by
  have hp : Q ((resetPulse s).setConn .resetting) ((resetPulse t).setConn .resetting) := by
    rw [resetPulse, resetPulse, h.params q]
    exact h.setConn _ (h.delay _ (h.setRst _ (h.delay _ (h.setRst _ q))))
  refine (h.writeSingleByte _ _ hp).andThen fun _ _ _ q => ?_
  rw [h.params q]
  exact h.scan _ (h.setConn _ q)

theorem cmdInit (h : TwoRuns Q) (q : Q s t) : Res.Same Q (cmdInit s) (cmdInit t) :=
  (h.initTarget q).andThen fun _ _ _ q => ⟨rfl, h.emitStatus _ q⟩

theorem cmdReset (h : TwoRuns Q) (flag : Nibble) (q : Q s t) : Q (cmdReset flag s) (cmdReset flag t) := by
  rw [Machine.cmdReset, Machine.cmdReset]
  split
  · exact h.emitStatus _ (h.setConn _ (h.setRst _ q))
  · exact h.emitStatus _ (h.setRst _ q)

theorem cmdShow (h : TwoRuns Q) (q : Q s t) : Res.Same Q (cmdShow s) (cmdShow t) :=
  (h.readSingleWord _ q).andThen fun _ _ _ q => ⟨rfl, h.emitStatus _ (h.emitDiag _ q)⟩

theorem readRest (h : TwoRuns Q) (n : Nat) (q : Q s t) : Res.Same Q (readRest n s) (readRest n t) := by
  induction n generalizing s t with
  | zero => exact ⟨rfl, q⟩
  | succ n ih => exact (h.readNext q).andThen fun _ _ _ q => ih (h.put _ q)

theorem cmdRead (h : TwoRuns Q) (a n : Word) (q : Q s t) : Res.Same Q (cmdRead a n s) (cmdRead a n t) := by
  rw [Machine.cmdRead, Machine.cmdRead]
  split
  · exact ⟨rfl, h.emitStatus _ q⟩
  · exact (h.readFirst a q).andThen fun _ _ _ q => (h.readRest _ (h.put _ q)).andThen fun _ _ _ q =>
      (h.finishReading q).andThen fun _ _ _ q => ⟨rfl, h.emitStatus _ (h.put _ q)⟩

theorem payloadByte (h : TwoRuns Q) (q : Q s t) : Res.Same Q (payloadByte s) (payloadByte t) := by
  refine Res.Same.andThen ?_ fun _ _ _ q => ⟨rfl, q⟩
  rw [hostHex, hostHex, h.hostIn q]
  split
  · exact ⟨rfl, h.consume _ q⟩
  · exact ⟨rfl, h.dry q⟩
  · exact ⟨rfl, q⟩

theorem writeRest (h : TwoRuns Q) (n : Nat) (q : Q s t) : Res.Same Q (writeRest n s) (writeRest n t) := by
  induction n generalizing s t with
  | zero => exact ⟨rfl, q⟩
  | succ n ih => exact (h.payloadByte q).andThen fun _ _ _ q => (h.writeNext _ q).andThen fun _ _ _ q => ih q

theorem cmdWrite (h : TwoRuns Q) (a n : Word) (q : Q s t) : Res.Same Q (cmdWrite a n s) (cmdWrite a n t) := by
  rw [Machine.cmdWrite, Machine.cmdWrite]
  split
  · exact ⟨rfl, h.emitStatus _ q⟩
  · exact (h.payloadByte q).andThen fun _ _ _ q => (h.writeFirst a _ q).andThen fun _ _ _ q =>
      (h.writeRest _ q).andThen fun _ _ _ q => (h.finishWriting q).andThen fun _ _ _ q => ⟨rfl, h.emitStatus _ q⟩

theorem cmdOther (h : TwoRuns Q) (verb : Byte) (q : Q s t) : Q (cmdOther verb s) (cmdOther verb t) :=
  h.emitDiag _ (h.emitStatus _ q)

end TwoRuns

theorem Res.Same.state {α : Type} {Q : State → State → Prop} {r r' : Res α} (h : Res.Same Q r r') :
    Q r.state r'.state := by
  cases r with
  | done a s =>
    cases r' with
    | done b t => exact h.2
    | stopped g t => exact h.elim
  | stopped e s =>
    cases r' with
    | done b t => exact h.elim
    | stopped g t => exact h.2

theorem TwoRuns.report {Q : State → State → Prop} (hQ : TwoRuns Q) {α : Type} {r r' : Res α} (f : α → Ret)
    (h : Res.Same Q r r') : Q (r.report f) (r'.report f) := by
  cases r with
  | done a s =>
    cases r' with
    | done b t =>
      obtain ⟨rfl, q⟩ := h
      exact hQ.returns _ q
    | stopped g t => exact h.elim
  | stopped e s =>
    cases r' with
    | done b t => exact h.elim
    | stopped g t => exact h.2

end Sys2Proof.Machine
end

