-- ==== Sys2Proof/Tests/Slice0.lean ====
section
/-! SUPPORT. The model's own tests. Expected results are the spec's: the rows of spec/95_test_vectors.md named in each comment (E encoder, V decoder, F frames, T transactions, K composites, I initializer, H host commands, X errors, P programs), written out here from its hex columns. And, for each statement with hypotheses, a state that meets them. -/

namespace Sys2Proof.Tests

open Sys2Proof.Machine

/-! ### Helpers -/

/-- The first `n` bits of `digits` hex digits, most significant bit first: the hex columns of the vectors. -/
def hexBits (digits n v : Nat) : List Bool := (List.range n).map fun k => v.testBit (4 * digits - 1 - k)

/-- The parameters of the programs (section 4 of the vectors), with a divider range. -/
def prm (last : Nat) : Params where
  divLast := last
  divStep := 1
  resetHold := 7
  eol := [0x0a]
  banner := []
  truncPolicy := .earlyReturn
  enforceSequence := true

/-- A block after reset with known buffers and an absent host presence. -/
def fresh : State :=
  { State.reset with
    outBuf := Vector.replicate Config.bufCap false, inBuf := Vector.replicate Config.bufCap false, rst := true,
    params := prm 8, presence := [false] }

/-- `fresh` in a transaction state, with the transport's coming answers. -/
def inTxn (x : Txn) (as : List Answer) : State := { fresh with txn := x, answers := as }

/-- `fresh` with an outbound cursor. -/
def atCursor (n : Nat) : State := { fresh with outCur := n }

/-- `fresh` with a capture in the inbound buffer. -/
def captured (bits : List Bool) (p : TruncPolicy) : State :=
  { fresh with inBuf := storeFrom 0 bits fresh.inBuf, inLen := bits.length, params := { prm 8 with truncPolicy := p } }

/-- A field of the next state. -/
def view {α : Type} (o : Host.Outcome State Fault Refusal) (f : State → α) : Option α :=
  match o with
  | .next t => some (f t)
  | .fault _ => none
  | .refused _ => none

/-- A call that captures nothing and completes. -/
def ok : Answer := .completes []

/-- A capture `111` B(v) `1`^52, from the 45 bits of the vectors' rows E5 to E10. -/
def cap (hex : Nat) : List Bool := [true, true, true] ++ hexBits 12 45 hex ++ List.replicate 52 true

/-- V10: 0xa5 -/
def capA5 : List Bool := cap 0x0bc2f785e178
/-- V11: 0x16 -/
def cap16 : List Bool := cap 0x7bde17842f78
/-- V12: 0x53 -/
def cap53 : List Bool := cap 0x785e17bc2178
/-- V2: the target is silent -/
def quiet : List Bool := List.replicate 100 true

/-- The frames of the vectors' rows F1, F2, F7, F9, F11, F8, F13 and END. -/
def f1 : List Bool := hexBits 52 204 0x0bc2f085e17bdef7bdef7bdef7bc21084217bde17bdef7bdef00
def f2 : List Bool := hexBits 52 204 0x0bc2f085e17bdef7bdef7bdef7bdef7bdef7bde17bdef7bdef00
def f3 : List Bool := hexBits 52 204 0x0bc2f085e17bdef7bc2f785ef7bde10bc2f7bde17bdef7bdef00
def f7 : List Bool := hexBits 64 250 0x0bc2f085e17bdef7bdef085ef7bdef7bde17bdef7bdef7bdef7bdef7bc2f0bc0
def f8 : List Bool := hexBits 64 250 0x0bc2f085e17bdef7bdef7bdef7bdef7bdef7bdef7bdef7bdef7bdef7bdef0bc0
def f9 : List Bool := hexBits 64 250 0x0bc2f085e17bdef7bdef7bdef785e10bde17bdef7bdef7bdef7bdef7bde10bc0
def f10 : List Bool := hexBits 64 250 0x0bc2f085e17bdef7bdef7bdef785e10bde17bdef7bdef7bdef7bdef785e17bc0
def f11 : List Bool := hexBits 64 250 0x0bc2f085e17bdef7bdef085ef7bde17bdef7bdef7bdef7bdef7bdef7bdef7bc0
def f12 : List Bool := hexBits 64 250 0x0bc2f085e17bde1084210842f78421084210bdef7bdef7bdef78421084210bc0
def f13 : List Bool := hexBits 14 50 0x7bdef7bde17bc0
def fEND : List Bool := hexBits 14 50 0x08421084210bc0
/-- `write_next(0x00)`: row E14 -/
def fWN0 : List Bool := hexBits 14 50 0x7bdef7bdef7bc0
def fRN : List Bool := [false, false, false, false]

/-- ASCII bytes of host text, by their codes. -/
def hostR3 : List Byte := [0x52, 0x30, 0x30, 0x30, 0x30, 0x30, 0x30, 0x30, 0x33]

/-! ### Well-formedness: each check refuses an ill-formed term (R104, D28, R71) -/

theorem test_wf_transport_n : (Instr.transport 4097 0).wellFormed = false ∧ (Instr.transport 4096 0).wellFormed = true := by
  decide

theorem test_wf_transport_m : (Instr.transport 0 4097).wellFormed = false ∧ (Instr.transport 0 4096).wellFormed = true := by
  decide

theorem test_wf_other_is_no_verb :
    (Instr.cmdOther 0x69).wellFormed = false ∧ (Instr.cmdOther 0x57).wellFormed = false ∧
      (Instr.cmdOther 0x49).wellFormed = true := by decide

/-! ### Decoding: words written out from the vectors decode to what they stand for -/

/-- E2, E3, E4 -/
theorem test_decode_symbols :
    decodeCode (.line .rawBit [true]) = .instr (.writeRawBit true) ∧
    decodeCode (.line .symbol [false, false, false, false, true]) = .instr .writeBakedOne ∧
    decodeCode (.line .symbol [false, true, true, true, true]) = .instr .writeBakedZero := by decide +kernel

/-- E7, E9 -/
theorem test_decode_writeByte :
    decodeCode (.line .byte (hexBits 12 45 0x785e10bc2f78)) = .instr (.writeByte 0x5a) ∧
    decodeCode (.line .byte (hexBits 12 45 0x7bde17842f78)) = .instr (.writeByte 0x16) := by decide +kernel

/-- E11, E13 -/
theorem test_decode_markedBytes :
    decodeCode (.line .markedByte (hexBits 14 50 0x0bc2f085e17bc0)) = .instr (.writeCmdByte 0x5a) ∧
    decodeCode (.line .markedByte (hexBits 14 50 0x785ef7bdef7bc0)) = .instr (.writeDataByte 0x80) := by decide +kernel

/-- E18, E19 -/
theorem test_decode_writeDataWord :
    decodeCode (.line .dataWord (hexBits 26 100 0x7bdef7bc217bdef7bdef785ef0)) = .instr (.writeDataWord 0x0602) ∧
    decodeCode (.line .dataWord (hexBits 26 100 0x7bdef0bde17bdef7842f0bdef0)) = .instr (.writeDataWord 0x1234) := by
  decide +kernel

/-- F1, F3, F5, F6 -/
theorem test_decode_read_frames :
    decodeCode (.frame .start f1) = .instr (.readFirst 0x007e) ∧ decodeCode (.frame .start f3) = .instr (.readFirst 0x1234) ∧
    decodeCode (.frame .inRead fRN) = .instr .readNext ∧ decodeCode (.frame .inRead fEND) = .instr .finishReading := by
  decide +kernel

/-- F7, F12, F13, F14 -/
theorem test_decode_write_frames :
    decodeCode (.frame .start f7) = .instr (.writeFirst 0x0602 0x05) ∧
    decodeCode (.frame .start f12) = .instr (.writeFirst 0xffff 0xff) ∧
    decodeCode (.frame .inWrite f13) = .instr (.writeNext 0x02) ∧
    decodeCode (.frame .inWrite fEND) = .instr .finishWriting := by decide +kernel

/-- K1 (at 0x007e), K2 -/
theorem test_decode_read_composites :
    decodeCode (.frames [f1, fEND]) = .instr (.readSingleByte 0x007e) ∧
    decodeCode (.frames [f1, fRN, fEND]) = .instr (.readSingleWord 0x007e) := by decide +kernel

/-- K5, K6, K7 -/
theorem test_decode_write_composites :
    decodeCode (.frames [f7, fEND]) = .instr (.writeSingleByte 0x0602 0x05) ∧
    decodeCode (.frames [f8, f13, fEND]) = .instr (.writeSingleWord 0x0000 0x0201) ∧
    decodeCode (.frames [f11, fWN0, fWN0, fWN0, fEND]) = .instr (.writeSingleQuad 0x0620 0) := by decide +kernel

/-- Rows without an encoding: "emits no bits", "call (N, M)", "no encoding of its own". -/
theorem test_decode_named :
    decodeCode (.named .resetOut) = .instr .resetOut ∧ decodeCode (.named .decodeByte) = .instr .decodeByte ∧
    decodeCode (.named (.transport 204 100)) = .instr (.transport 204 100) ∧ decodeCode (.named .init) = .instr .init := by
  decide

/-- H3, H4, H7 and the verb `i` -/
theorem test_decode_host :
    decode [0x69] = .command .cmdInit [] ∧ decode [0x72, 0x66] = .command (.cmdReset 15) [] ∧
    decode [0x72, 0x46] = .command (.cmdReset 15) [] ∧
    decode [0x73] = .command .cmdShow [] ∧
    decode [0x52, 0x30, 0x30, 0x37, 0x45, 0x30, 0x30, 0x30, 0x32] = .command (.cmdRead 0x007e 2) [] := by decide

/-- P2, H10 (its first byte), H12 -/
theorem test_decode_host_write_and_other :
    decode [0x57, 0x30, 0x30, 0x31, 0x30, 0x30, 0x30, 0x30, 0x32, 0x30, 0x31, 0x30, 0x32] =
      .command (.cmdWrite 0x0010 2) [0x30, 0x31, 0x30, 0x32] ∧
    decode [0x51, 0x30] = .command (.cmdOther 0x51) [0x30] ∧ decode [0x49] = .command (.cmdOther 0x49) [] := by decide

/-- H14, X6, and a stream that ends inside a field -/
theorem test_decode_host_rejects :
    decode [0x52, 0x30, 0x30, 0x67, 0x30] = .badDigit 0x67 ∧ decode [0x72, 0x78] = .badDigit 0x78 ∧
    decode [0x57, 0x30, 0x30] = .dry ∧ decode [] = .dry := by decide

/-- Reserved wire values are rejected by name (R62). -/
theorem test_decode_wire_rejects :
    decodeCode (.line .symbol [false, false, true, true, true]) = .error .badSymbol ∧
    decodeCode (.frame .inRead (hexBits 14 50 0x0bc2f085e17bc0)) = .error (.reservedCommand 0x5a) ∧
    decodeCode (.frame .start fEND) = .error (.reservedCommand 0xff) := by decide +kernel

/-- The table's words: `match` of the host rows, `raw_match` of write_baked_bit(1), index 0 first. -/
theorem test_decodeTableWord :
    decodeTableWord 8 0x69 = some .cmdInit ∧ decodeTableWord 8 0x72 = some (.cmdReset 0) ∧
    decodeTableWord 8 0x73 = some .cmdShow ∧ decodeTableWord 8 0x52 = some (.cmdRead 0 0) ∧
    decodeTableWord 8 0x57 = some (.cmdWrite 0 0) ∧ decodeTableWord 8 0x78 = some (.cmdOther 0x78) ∧
    decodeTableWord 5 0x10 = some .writeBakedOne := by decide

/-- A table word placed in the reset state is what the next step runs: `r0` (R156). -/
theorem test_withFetchWord_runs :
    view (step (State.reset.withFetchWord 8 0x72)) (fun t => (t.rst, t.conn, t.trace, t.hostIn)) =
      some (false, .disconnected, [.setRst false], []) := by decide

/-! ### L0 -/

/-- E2, E20 -/
theorem test_writeRawBit :
    view (exec (.writeRawBit true) fresh) (fun t => (t.outCur, t.outBits 2)) = some (1, [true, false]) ∧
    view (exec (.writeRawBit true) (atCursor 4096)) (fun t => (t.outCur, t.outBuf[0], t.outBuf[4095])) = some (4096, false, false) := by
  decide +kernel

/-- E3, E21 -/
theorem test_writeBakedOne :
    view (exec .writeBakedOne fresh) (fun t => t.outBits t.outCur) = some [false, false, false, false, true] ∧
    view (exec .writeBakedOne (atCursor 4094)) (fun t => (t.outCur, t.outBuf[4094], t.outBuf[4095])) = some (4096, false, false) := by
  decide +kernel

/-- E4 -/
theorem test_writeBakedZero :
    view (exec .writeBakedZero fresh) (fun t => t.outBits t.outCur) = some [false, true, true, true, true] := by
  decide +kernel

/-- E8, E22 -/
theorem test_writeByte :
    view (exec (.writeByte 0xa5) fresh) (fun t => t.outBits t.outCur) = some (hexBits 12 45 0x0bc2f785e178) ∧
    view (exec (.writeByte 0xff) (atCursor 4095)) (fun t => (t.outCur, t.outBuf[4095])) = some (4096, false) := by
  decide +kernel

/-- E12 -/
theorem test_writeCmdByte : view (exec (.writeCmdByte 0xff) fresh) (fun t => t.outBits t.outCur) = some fEND := by
  decide +kernel

/-- E15 -/
theorem test_writeDataByte :
    view (exec (.writeDataByte 0x05) fresh) (fun t => t.outBits t.outCur) = some (hexBits 14 50 0x7bdef7bc2f0bc0) := by
  decide +kernel

/-- E18 -/
theorem test_writeDataWord :
    view (exec (.writeDataWord 0x0602) fresh) (fun t => t.outBits t.outCur) =
      some (hexBits 26 100 0x7bdef7bc217bdef7bdef785ef0) := by decide +kernel

/-- E23 -/
theorem test_resetOut :
    view (exec .resetOut { atCursor 4096 with outBuf := fresh.outBuf.set 4095 true }) (fun t => (t.outCur, t.outBuf[4095])) =
      some (0, true) := by
  decide +kernel

/-- V10, V3 -/
theorem test_decodeByte :
    view (exec .decodeByte (captured capA5 .earlyReturn)) (fun t => (t.ret, t.inPos)) = some (.byte 0xa5, 43) ∧
    view (exec .decodeByte (captured (List.replicate 100 false) .zeroFill)) (fun t => (t.ret, t.inPos)) =
      some (.byte 0x80, 100) := by decide +kernel

/-- V15 under both policies; V19: the eighth low-run is cut by the end of the capture -/
theorem test_decodeByte_truncated :
    view (exec .decodeByte (captured (hexBits 5 17 0x08420) .earlyReturn)) (fun t => (t.ret, t.inPos)) =
      some (.byte 0x0f, 17) ∧
    view (exec .decodeByte (captured (hexBits 5 17 0x08420) .zeroFill)) (fun t => (t.ret, t.inPos)) =
      some (.byte 0xf0, 17) ∧
    view (exec .decodeByte (captured ((byteBits 0x01).take 39) .zeroFill)) (fun t => (t.ret, t.inPos)) =
      some (.byte 0x01, 39) := by decide +kernel

/-! ### Constants -/

/-- The table of R6, row by row; the swire registers stand in R37's order, and timer-control written to 0 has its watchdog
bit clear (R226). -/
theorem test_constants :
    [Config.bufCap, Config.symLen, Config.oneLow, Config.oneHigh, Config.zeroLow, Config.zeroHigh, Config.idleBitCount,
      Config.rxMargin, Config.addrWidth, Config.divFirst, Config.watchdogBit] = [4096, 5, 4, 1, 1, 4, 4, 100, 16, 3, 23] ∧
    [Config.markCmd, Config.markData, Config.frameBit] = [true, false, false] ∧
    [Config.start, Config.finish, Config.modeRead, Config.modeWrite, Config.haltValue] = [0x5a, 0xff, 0x80, 0x00, 0x05] ∧
    [Config.idAddr, Config.swDataAddr, Config.swCtrl1Addr, Config.clkDivAddr, Config.swIdAddr, Config.tmrCtlAddr,
      Config.runStateAddr] = [0x007e, 0x00b0, 0x00b1, 0x00b2, 0x00b3, 0x0620, 0x0602] ∧ Config.idExpect = 0x5316 ∧
    (0x00000000 : Quad).getLsbD Config.watchdogBit = false := by decide

/-! ### Transport -/

/-- R100: exactly M bits are captured, more that the engine offers are not; N = 2 of the 4 bits are sent. -/
theorem test_transport :
    view (exec (.transport 2 3) { atCursor 4 with answers := [.completes [true, false, true, true]] })
        (fun t => (t.inBits, t.outCur, t.trace)) =
      some ([true, false, true], 4, [.wire [false, false] [true, false, true]]) := by decide +kernel

/-- R100: N above out.cur is outside the "requires". -/
theorem test_transport_requires :
    exec (.transport 5 0) (atCursor 4) = .refused (.transportRequires 5 0) := by rfl

/-! ### L1 -/

/-- F3 (from Closed), T5 -/
theorem test_readFirst :
    view (exec (.readFirst 0x1234) (inTxn .closed [.completes capA5])) (fun t => (t.txn, t.outCur, t.inLen, t.ret)) =
      some (.reading, 204, 100, .byte 0xa5) ∧
    view (exec (.readFirst 0x1234) (inTxn .closed [.completes capA5])) (fun t => t.trace) = some [.wire f3 capA5] ∧
    view (exec (.readFirst 0) (inTxn .reading [])) (fun t => (t.txn, t.trace, t.ret)) =
      some (.reading, [], .sequenceError .readFirst .reading) := by decide +kernel

/-- F5, T1 -/
theorem test_readNext :
    view (exec .readNext (inTxn .reading [.completes quiet])) (fun t => (t.txn, t.outCur, t.inLen, t.ret, t.trace)) =
      some (.reading, 4, 100, .byte 0x00, [.wire fRN quiet]) ∧
    view (exec .readNext (inTxn .idle [ok])) (fun t => (t.ret, t.trace, t.outCur)) =
      some (.sequenceError .readNext .idle, [], 0) := by decide +kernel

/-- F6, T8 -/
theorem test_finishReading :
    view (exec .finishReading (inTxn .reading [ok])) (fun t => (t.txn, t.outCur, t.inLen, t.trace)) =
      some (.closed, 50, 0, [.wire fEND []]) ∧
    view (exec .finishReading (inTxn .writing [ok])) (fun t => (t.txn, t.trace)) = some (.writing, []) := by
  decide +kernel

/-- F9 -/
theorem test_writeFirst :
    view (exec (.writeFirst 0x00b2 0x03) (inTxn .closed [ok])) (fun t => (t.txn, t.outCur, t.inLen, t.trace)) =
      some (.writing, 250, 0, [.wire f9 []]) := by decide +kernel

/-- F13, T3 -/
theorem test_writeNext :
    view (exec (.writeNext 0x02) (inTxn .writing [ok])) (fun t => (t.txn, t.outCur, t.inLen, t.trace)) =
      some (.writing, 50, 0, [.wire f13 []]) ∧
    view (exec (.writeNext 0x00) (inTxn .idle [ok])) (fun t => (t.txn, t.trace)) = some (.idle, []) := by decide +kernel

/-- F14, T7 -/
theorem test_finishWriting :
    view (exec .finishWriting (inTxn .writing [ok])) (fun t => (t.txn, t.trace)) = some (.closed, [.wire fEND []]) ∧
    view (exec .finishWriting (inTxn .reading [ok])) (fun t => (t.txn, t.trace)) = some (.reading, []) := by
  decide +kernel

/-- K1 (at 0x007e) -/
theorem test_readSingleByte :
    view (exec (.readSingleByte 0x007e) (inTxn .idle [.completes capA5, ok])) (fun t => (t.txn, t.ret, t.trace)) =
      some (.closed, .byte 0xa5, [.wire f1 capA5, .wire fEND []]) := by decide +kernel

/-- K2, K4 -/
theorem test_readSingleWord :
    view (exec (.readSingleWord 0x007e) (inTxn .idle [.completes cap16, .completes cap53, ok])) (fun t => (t.txn, t.ret)) =
      some (.closed, .word 0x5316) ∧
    view (exec (.readSingleWord 0x007e) (inTxn .idle [.completes cap53, .completes cap16, ok])) (fun t => (t.trace, t.ret)) =
      some ([.wire f1 cap53, .wire fRN cap16, .wire fEND []], .word 0x1653) := by decide +kernel

/-- K5 -/
theorem test_writeSingleByte :
    view (exec (.writeSingleByte 0x0602 0x05) (inTxn .idle [ok, ok])) (fun t => (t.txn, t.trace)) =
      some (.closed, [.wire f7 [], .wire fEND []]) := by decide +kernel

/-- K6 -/
theorem test_writeSingleWord :
    view (exec (.writeSingleWord 0x0000 0x0201) (inTxn .idle [ok, ok, ok])) (fun t => (t.txn, t.trace)) =
      some (.closed, [.wire f8 [], .wire f13 [], .wire fEND []]) := by decide +kernel

/-- K7 -/
theorem test_writeSingleQuad :
    view (exec (.writeSingleQuad 0x0620 0) (inTxn .idle [ok, ok, ok, ok, ok])) (fun t => (t.txn, t.trace)) =
      some (.closed, [.wire f11 [], .wire fWN0 [], .wire fWN0 [], .wire fWN0 [], .wire fEND []]) := by decide +kernel

/-- K8: 0x12345678 goes out as 0x78, 0x56, 0x34, 0x12. -/
theorem test_writeSingleQuad_order :
    view (exec (.writeSingleQuad 0x0010 0x12345678) (inTxn .idle [ok, ok, ok, ok, ok])) (fun t => t.trace.map fun e =>
        match e with
        | .wire sent _ => (match decodeFrame .inWrite sent with | .instr (.writeNext v) => v | _ => 0)
        | .setRst _ => 0
        | .delay _ => 0) = some [0, 0x56, 0x34, 0x12, 0] := by decide +kernel

/-! ### L2 -/

/-- I6: the smallest range, a silent target: one divider, seven calls, failure. -/
theorem test_init_fails :
    view (exec .init { inTxn .idle [ok, ok, ok, ok, .completes quiet, .completes quiet, ok] with params := prm 3 })
        (fun t => (t.ret, t.conn, t.txn, t.rst, t.trace.length)) =
      some (.initResult false, .disconnected, .closed, true, 11) := by decide +kernel

/-- I1: a match at the first try, dividers 3 and 6. -/
theorem test_init_succeeds :
    view (exec .init (inTxn .idle [ok, ok, ok, ok, .completes cap16, .completes cap53, ok, ok, ok, ok, ok, ok, ok, ok]))
        (fun t => (t.ret, t.conn, t.trace.length, t.trace.take 6, t.trace[6]?)) =
      some (.initResult true, .connected, 18, [.setRst false, .delay 7, .setRst true, .delay 7, .wire f7 [], .wire fEND []],
        some (.wire f9 [])) := by decide +kernel

/-- P3: the identity answers at the third divider. -/
theorem test_cmdInit :
    view (exec .cmdInit (inTxn .idle ([ok, ok] ++
        [ok, ok, .completes quiet, .completes quiet, ok] ++ [ok, ok, .completes quiet, .completes quiet, ok] ++
        [ok, ok, .completes cap16, .completes cap53, ok] ++ [ok, ok, ok, ok, ok, ok, ok])))
        (fun t => (t.conn, t.replyBytes, t.answers)) = some (.connected, [0x53, 0x0a], []) := by decide +kernel

/-- I5, as the command: an identity with its bytes swapped is no match; `E`. -/
theorem test_cmdInit_fails :
    view (exec .cmdInit { inTxn .idle [ok, ok, ok, ok, .completes cap53, .completes cap16, ok] with params := prm 3 })
        (fun t => (t.conn, t.replyBytes, t.ret)) = some (.disconnected, [0x45, 0x0a], .none) := by decide +kernel

/-- H1 from Connected (S7), H3 -/
theorem test_cmdReset :
    view (exec (.cmdReset 0) { fresh with conn := .connected }) (fun t => (t.rst, t.conn, t.replyBytes)) =
      some (false, .disconnected, [0x53, 0x0a]) ∧
    view (exec (.cmdReset 15) { fresh with rst := false, conn := .connected }) (fun t => (t.rst, t.conn, t.replyBytes)) =
      some (true, .connected, [0x53, 0x0a]) := by decide +kernel

/-- P6 -/
theorem test_cmdShow :
    view (exec .cmdShow (inTxn .idle [.completes cap16, .completes cap53, ok])) (fun t => (t.conn, t.txn, t.hostOut)) =
      some (.disconnected, .closed, [.diag (.identity 0x5316), .eol, .text [0x53], .eol]) := by decide +kernel

/-- P1, with the captures of V11, V12 and V10 in place of 0x11, 0x22, 0x33: "1653a5\nS\n". -/
theorem test_cmdRead :
    view (step { inTxn .idle [.completes cap16, .completes cap53, .completes capA5, ok] with hostIn := hostR3 })
        (fun t => (t.replyBytes, t.txn, t.outCur, t.trace.length, t.hostIn)) =
      some ([0x31, 0x36, 0x35, 0x33, 0x61, 0x35, 0x0a, 0x53, 0x0a], .closed, 50, 4, []) := by
  decide +kernel

/-- X1: the third call stalls. -/
theorem test_cmdRead_stalls :
    view (step { inTxn .idle [.completes cap16, .completes cap53, .stalls] with hostIn := hostR3 ++ [0x69] })
        (fun t => (t.replyBytes, t.txn, t.hostIn, t.blocked)) =
      some ([0x31, 0x36, 0x35, 0x33], .reading, [0x69], .inTransport) := by decide +kernel

/-- P2, steps 1 to 5 -/
theorem test_cmdWrite :
    view (step { inTxn .idle [ok, ok, ok] with
        hostIn := [0x57, 0x30, 0x30, 0x30, 0x30, 0x30, 0x30, 0x30, 0x32, 0x30, 0x31, 0x30, 0x32, 0x52] })
        (fun t => (t.replyBytes, t.txn, t.trace, t.hostIn)) =
      some ([0x53, 0x0a], .closed, [.wire f8 [], .wire f13 [], .wire fEND []], [0x52]) := by decide +kernel

/-- H15: the host stops inside the payload. -/
theorem test_cmdWrite_starves :
    view (step { inTxn .idle [ok, ok] with
        hostIn := [0x57, 0x30, 0x30, 0x30, 0x30, 0x30, 0x30, 0x30, 0x32, 0x61, 0x62] })
        (fun t => (t.replyBytes, t.txn, t.trace.length, t.blocked)) = some ([], .writing, 1, .inHostGet) := by
  decide +kernel

/-- H9, H11 -/
theorem test_cmdOther :
    view (exec (.cmdOther 0x78) fresh) (fun t => t.hostOut) =
      some [.text [0x3f], .eol, .diag (.unrecognized 0x78), .eol] ∧
    view (step { fresh with hostIn := [0x0a] }) (fun t => replyLines t.hostOut) = some [[0x3f]] := by decide +kernel

/-- R152: a host that appears is greeted once, and again after it has gone. -/
theorem test_banner :
    view (step { fresh with hostIn := [0x78], presence := [true] }) (fun t => (t.greeted, t.hostOut.head?)) =
      some (true, some .banner) ∧
    view (step { fresh with hostIn := [0x78], presence := [true], greeted := true }) (fun t => (t.greeted, t.hostOut.head?)) =
      some (true, some (.text [0x3f])) ∧
    view (step { fresh with hostIn := [0x78], presence := [false], greeted := true }) (fun t => t.greeted) = some false := by
  decide +kernel

/-- D9: with ENFORCE_SEQUENCE = false T1 makes the call and returns the byte. -/
theorem test_unenforced :
    view (exec .readNext { inTxn .idle [.completes capA5] with params := { prm 8 with enforceSequence := false } })
        (fun t => (t.ret, t.txn, t.trace.length)) = some (.byte 0xa5, .idle, 1) := by decide +kernel

/-! ### Witnesses: states and operands that meet the hypotheses of each statement, clause by clause -/

/-- A block without sequence enforcement. -/
def unenforced (x : Txn) (as : List Answer) : State :=
  { inTxn x as with params := { prm 8 with enforceSequence := false } }

/-- What a statement about opening a transaction asks of a state. -/
def mayOpen (s : State) : Prop := s.params.enforceSequence = true → s.txn = .idle ∨ s.txn = .closed

theorem mayOpen_witnesses : mayOpen (inTxn .idle []) ∧ mayOpen (inTxn .closed []) ∧ mayOpen (unenforced .reading []) := by
  refine ⟨fun _ => .inl rfl, fun _ => .inr rfl, fun h => ?_⟩
  cases h

theorem witness_LineOperationAppendsItsEncoding :
    encode (.writeRawBit true) = .line .rawBit [true] ∧ (atCursor 0).outCur ≤ 4096 ∧ (atCursor 4096).outCur ≤ 4096 ∧
    encode .writeBakedOne = .line .symbol (symbolBits true) ∧ encode .writeBakedZero = .line .symbol (symbolBits false) ∧
    encode (.writeByte 7) = .line .byte (byteBits 7) ∧ encode (.writeCmdByte 7) = .line .markedByte (markedBits true 7) ∧
    encode (.writeDataByte 7) = .line .markedByte (markedBits false 7) ∧
    encode (.writeDataWord 7) = .line .dataWord (dataWordBits 7) :=
  ⟨rfl, Nat.zero_le _, Nat.le_refl _, rfl, rfl, rfl, rfl, rfl, rfl⟩

theorem witness_WriteAtCapacityIsDropped : (atCursor 4096).outCur = 4096 := rfl

/-- The raw bits of pairs of a low-run and a high-run. -/
def pairsOf (runs : List (Nat × Nat)) : List Bool :=
  runs.flatMap fun r => List.replicate r.1 false ++ List.replicate r.2 true

/-- V6 behind two high bits and in front of a low bit; V19, whose eighth low-run is cut by the end of the capture -/
theorem witness_DecodeByteComparesRunLengths :
    (List.replicate 8 (2, 2)).length = 8 ∧ (∀ r ∈ List.replicate 8 (2, 2), 0 < r.1 ∧ 0 < r.2) ∧
    [false].head? ≠ some true ∧
    (captured ([true, true] ++ (List.replicate 8 [false, false, true, true]).flatten ++ [false]) .earlyReturn).inBits =
      List.replicate 2 true ++
        (List.replicate 8 (2, 2)).flatMap (fun r => List.replicate r.1 false ++ List.replicate r.2 true) ++ [false] ∧
    (List.replicate 7 (1, 4) ++ [(4, 0)]).length = 8 ∧ (∀ r ∈ List.replicate 7 (1, 4) ++ [(4, 0)], 0 < r.1) ∧
    (∀ r ∈ (List.replicate 7 (1, 4) ++ [(4, 0)]).dropLast, 0 < r.2) ∧
    (captured ((byteBits 0x01).take 39) .zeroFill).inBits =
      List.replicate 0 true ++ pairsOf (List.replicate 7 (1, 4) ++ [(4, 0)]) ++ [] := by
  decide +kernel

theorem witness_LoopbackReproducesEveryByte_loop :
    ∃ t u, exec .resetOut fresh = .next t ∧ exec (.writeByte 0x5a) t = .next u := ⟨_, _, rfl, rfl⟩

/-- V10 and V13 -/
theorem witness_LoopbackReproducesEveryByte_capture :
    (captured capA5 .zeroFill).inBits = List.replicate 3 true ++ byteBits 0xa5 ++ List.replicate 52 true ∧
    (captured (byteBits 0x3c) .earlyReturn).inBits = List.replicate 0 true ++ byteBits 0x3c ++ [] ∧
    (captured (true :: markedBits true 0xff ++ [false]) .earlyReturn).inBits =
      List.replicate 1 true ++ markedBits true 0xff ++ [false] := by decide +kernel

/-- V1 and V14; seven pairs, the last without its high-run -/
theorem witness_TruncatedDecodeFollowsThePolicy :
    (captured [] .zeroFill).inBits = List.replicate 0 true ++ pairsOf [] ∧
    (captured (hexBits 4 15 0x0bc2) .earlyReturn).inBits =
      List.replicate 0 true ++ pairsOf [(4, 1), (1, 4), (4, 1)] ∧
    (List.replicate 6 (4, 1) ++ [(1, 0)]).length < 8 ∧ (∀ r ∈ List.replicate 6 (4, 1) ++ [(1, 0)], 0 < r.1) ∧
    (∀ r ∈ (List.replicate 6 (4, 1) ++ [(1, 0)]).dropLast, 0 < r.2) := by decide +kernel

/-- V1, V2; V4, V3 -/
theorem witness_SilentAndStuckLinesDecodeToFixedBytes :
    (captured [] .zeroFill).inBits = List.replicate 0 true ∧ (captured quiet .zeroFill).inBits = List.replicate 100 true ∧
    (captured [false] .zeroFill).inBits = List.replicate 1 false ∧
    (captured (List.replicate 100 false) .zeroFill).inBits = List.replicate 100 false := by decide +kernel

theorem witness_TransportCapturesExactlyM :
    4096 ≤ (atCursor 4096).outCur ∧ (atCursor 4096).outCur ≤ 4096 ∧
    ({ atCursor 4096 with answers := [ok] } : State).nextAnswer = .completes [] := by decide

theorem witness_TransportOutsideItsRequiresIsRefused :
    (atCursor 4).outCur < 5 ∧ 4096 < (atCursor 4097).outCur ∧ 4096 < 4097 := by decide

theorem witness_StalledTransportHangsTheBlock :
    (inTxn .idle [.stalls]).nextAnswer = .stalls ∧ 0 ≤ (inTxn .idle [.stalls]).outCur ∧
    ({ fresh with blocked := .inTransport } : State).blocked = .inTransport := by decide

theorem witness_StalledPrimitiveKeepsTxn :
    (inTxn .idle [.stalls]).nextAnswer = .stalls ∧
    (inTxn .idle [.stalls]).txn.admits .readFirst = true ∧ (inTxn .closed [.stalls]).txn.admits .writeFirst = true ∧
    (inTxn .reading [.stalls]).txn.admits .readNext = true ∧ (inTxn .reading [.stalls]).txn.admits .finishReading = true ∧
    (inTxn .writing [.stalls]).txn.admits .writeNext = true ∧
    (inTxn .writing [.stalls]).txn.admits .finishWriting = true := by decide

/-- T1 to T9, T11 -/
theorem witness_OutOfOrderPrimitiveIsRejected :
    fresh.params.enforceSequence = true ∧
    ∀ p ∈ [(Txn.idle, Primitive.readNext), (.idle, .finishReading), (.idle, .writeNext), (.idle, .finishWriting),
      (.reading, .readFirst), (.reading, .writeFirst), (.reading, .finishWriting), (.writing, .finishReading),
      (.writing, .readNext), (.closed, .finishReading)],
      p ∉ [(Txn.idle, Primitive.readFirst), (.closed, .readFirst), (.idle, .writeFirst), (.closed, .writeFirst),
        (.reading, .readNext), (.reading, .finishReading), (.writing, .writeNext), (.writing, .finishWriting)] := by decide

theorem witness_CompositeInsideATransactionIsRejected :
    (inTxn .reading []).params.enforceSequence = true ∧ (inTxn .reading []).txn = .reading ∧
    (inTxn .writing []).txn = .writing := by decide

theorem witness_ReadFirstSendsRFAndReturnsTheByte :
    mayOpen (inTxn .closed [.completes capA5]) ∧ (inTxn .closed [.completes capA5]).nextAnswer = .completes capA5 :=
  ⟨fun _ => .inr rfl, rfl⟩

theorem witness_ReadNextClocksOneByte :
    (inTxn .reading [ok]).txn = .reading ∧ (inTxn .reading [ok]).nextAnswer = .completes [] := ⟨rfl, rfl⟩

theorem witness_FinishOperationsSendENDAndClose :
    (inTxn .reading [ok]).txn = .reading ∧ (inTxn .reading [ok]).nextAnswer = .completes [] ∧
    (inTxn .writing [ok]).txn = .writing ∧ (inTxn .writing [ok]).nextAnswer = .completes [] := ⟨rfl, rfl, rfl, rfl⟩

theorem witness_WriteFirstSendsWF :
    mayOpen (unenforced .writing [ok]) ∧ (unenforced .writing [ok]).nextAnswer = .completes [] :=
  ⟨fun h => (by cases h), rfl⟩

theorem witness_WriteNextSendsOneDataByte :
    (inTxn .writing [ok]).txn = .writing ∧ (inTxn .writing [ok]).nextAnswer = .completes [] := ⟨rfl, rfl⟩

theorem witness_UnenforcedSequenceAdmitsEverything :
    (unenforced .writing [ok]).params.enforceSequence = false ∧ (unenforced .writing [ok]).ret = .none ∧
    ∃ t, exec .readNext (unenforced .writing [ok]) = .next t := ⟨rfl, rfl, _, rfl⟩

theorem witness_ReadSingleByteReturnsTheFirstCapture :
    mayOpen (inTxn .idle [.completes capA5, ok]) ∧
    (inTxn .idle [.completes capA5, ok]).answers = completing [capA5, []] ++ [] := ⟨fun _ => .inl rfl, rfl⟩

theorem witness_ReadSingleWordIsLittleEndian :
    mayOpen (inTxn .idle [.completes cap16, .completes cap53, ok]) ∧
    (inTxn .idle [.completes cap16, .completes cap53, ok]).answers = completing [cap16, cap53, []] ++ [] :=
  ⟨fun _ => .inl rfl, rfl⟩

theorem witness_WriteCompositesSendLowByteFirst :
    mayOpen (inTxn .idle [ok, ok, ok, ok, ok]) ∧ (inTxn .idle [ok, ok]).answers = completing [[], []] ++ [] ∧
    (inTxn .idle [ok, ok, ok]).answers = completing [[], [], []] ++ [] ∧
    (inTxn .idle [ok, ok, ok, ok, ok]).answers = completing [[], [], [], [], []] ++ [] := ⟨fun _ => .inl rfl, rfl, rfl, rfl⟩

/-- What a run of operations, each called on the state the one before leaves, hands back, while the block is unblocked. -/
def results : List Instr → State → List Ret
  | [], _ => []
  | i :: is, s => match exec i s with
    | .next t => if t.blocked = .running then t.ret :: results is t else []
    | .fault _ => []
    | .refused _ => []

/-- K1's and K2's calls, one after the other -/
theorem witness_CompositesAreTheirExpansions_read :
    results [.readFirst 0x00b2, .finishReading] (inTxn .idle [.completes cap16, ok]) = [.byte 0x16, .done] ∧
    results [.readFirst 0x007e, .readNext, .finishReading] (inTxn .idle [.completes cap16, .completes cap53, ok]) =
      [.byte 0x16, .byte 0x53, .done] := by decide +kernel

/-- The calls of the three write composites, one after the other -/
theorem witness_CompositesAreTheirExpansions_write :
    results [.writeFirst 0 1, .finishWriting] (inTxn .idle [ok, ok]) = [.done, .done] ∧
    results [.writeFirst 0 1, .writeNext 2, .finishWriting] (inTxn .closed [ok, ok, ok]) = [.done, .done, .done] ∧
    results [.writeFirst 0 1, .writeNext 2, .writeNext 3, .writeNext 4, .finishWriting]
      (inTxn .idle [ok, ok, ok, ok, ok]) = [.done, .done, .done, .done, .done] := by decide +kernel

/-- I1 at the smallest range (no miss), and a match at the last divider of a range after one miss. -/
theorem witness_InitConnectsAtTheFirstMatchingDivider :
    (prm 3).legal = true ∧ 3 + 0 * (prm 3).divStep ≤ (prm 3).divLast ∧ 3 + 1 * (prm 4).divStep ≤ (prm 4).divLast ∧
    cap16.length = 100 ∧ cap53.length = 100 ∧ quiet.length = 100 ∧ identityOf .earlyReturn cap16 cap53 = 0x5316 ∧
    identityOf .earlyReturn quiet quiet ≠ 0x5316 ∧
    (inTxn .idle [ok, ok, ok, ok, .completes quiet, .completes quiet, ok, ok, ok, .completes cap16, .completes cap53, ok,
      ok, ok, ok, ok, ok, ok, ok]).answers = completing [[], []] ++ [(quiet, quiet)].flatMap probeAnswers ++
      probeAnswers (cap16, cap53) ++ completing [[], [], [], [], [], [], []] ++ [] := by decide +kernel

/-- I6 and I3's shape with two dividers -/
theorem witness_InitFailsWhenEveryDividerMisses :
    (prm 3).legal = true ∧ 3 + (1 - 1) * (prm 3).divStep ≤ (prm 3).divLast ∧
    (prm 3).divLast < 3 + 1 * (prm 3).divStep ∧ quiet.length = 100 ∧ identityOf .earlyReturn quiet quiet ≠ 0x5316 ∧
    (inTxn .idle [ok, ok, ok, ok, .completes quiet, .completes quiet, ok]).answers =
      completing [[], []] ++ [(quiet, quiet)].flatMap probeAnswers ++ [] := by decide +kernel

theorem witness_ShowCommandReportsTheIdentity :
    mayOpen (inTxn .idle [.completes cap16, .completes cap53, ok]) ∧
    (inTxn .idle [.completes cap16, .completes cap53, ok]).answers = completing [cap16, cap53, []] ++ [] :=
  ⟨fun _ => .inl rfl, rfl⟩

/-- P1's shape -/
theorem witness_ReadCommandPrintsThePayload :
    0 < (3 : Word).toNat ∧ [cap16, cap53, capA5].length = (3 : Word).toNat ∧ (∀ c ∈ [cap16, cap53, capA5], c.length = 100) ∧
    (inTxn .idle [.completes cap16, .completes cap53, .completes capA5, ok]).answers =
      completing ([cap16, cap53, capA5] ++ [[]]) ++ [] := by decide +kernel

/-- P2's payload `0102`, and a payload byte `aB` -/
theorem witness_WriteCommandSendsThePayload :
    (2 : Word).toNat = [((0x30, 0x31), 0x01), ((0x61, 0x42), (0xab : Byte))].length ∧
    SpelledPayload [((0x30, 0x31), 0x01), ((0x61, 0x42), 0xab)] ∧
    payloadText [((0x30, 0x31), 0x01), ((0x61, 0x42), 0xab)] = [0x30, 0x31, 0x61, 0x42] ∧
    [[], [], ([] : List Bool)].length = (2 : Word).toNat + 1 ∧
    (inTxn .idle [ok, ok, ok]).answers = completing [[], [], []] ++ [] := by
  refine ⟨rfl, ?_, rfl, rfl, rfl⟩
  intro p hp
  simp only [List.mem_cons, List.not_mem_nil, or_false] at hp
  rcases hp with rfl | rfl
  · exact ⟨0, 1, rfl, rfl, rfl⟩
  · exact ⟨10, 11, rfl, rfl, rfl⟩

/-- X1's shape; a stall of the first call; a stall of the last -/
theorem witness_StalledReadCommandKeepsItsPrefix :
    [cap16, cap53].length ≤ (3 : Word).toNat ∧ (∀ c ∈ [cap16, cap53], c.length = 100) ∧
    (inTxn .idle [.completes cap16, .completes cap53, .stalls]).answers = completing [cap16, cap53] ++ .stalls :: [] ∧
    (inTxn .idle [.stalls]).answers = completing [] ++ .stalls :: [] ∧ [cap16].length ≤ (1 : Word).toNat := by
  decide +kernel

/-- The composites and `s`, stalled in their first call and in their last one -/
theorem witness_StalledReadCommandKeepsItsPrefix_composites :
    mayOpen (inTxn .closed [.stalls]) ∧ 0 < [f1, fEND].length ∧ [cap16].length < [f1, fEND].length ∧
    [cap16, cap53].length < [f1, fRN, fEND].length ∧ (∀ c ∈ [cap16, cap53], c.length = 100) ∧
    (inTxn .closed [.stalls]).answers = completing [] ++ .stalls :: [] ∧
    (inTxn .closed [.completes cap16, .completes cap53, .stalls]).answers =
      completing [cap16, cap53] ++ .stalls :: [] ∧
    [[], [], [], ([] : List Bool)].length < [f11, fWN0, fWN0, fWN0, fEND].length ∧
    (inTxn .closed [ok, ok, ok, ok, .stalls]).answers = completing [[], [], [], []] ++ .stalls :: [] := by
  refine ⟨fun _ => .inr rfl, ?_⟩
  decide +kernel

/-- R190's example, a `W` of three bytes that stalls on its third; one that stalls on its first; one on its END frame -/
theorem witness_StalledReadCommandKeepsItsPrefix_write :
    [((0x30, 0x31), 0x01), ((0x30, 0x32), 0x02), ((0x30, 0x33), (0x03 : Byte))].length = min (2 + 1) (3 : Word).toNat ∧
    SpelledPayload [((0x30, 0x31), 0x01), ((0x30, 0x32), 0x02), ((0x30, 0x33), 0x03)] ∧
    ({ inTxn .idle [ok, ok, .stalls] with hostIn := [0x30, 0x31, 0x30, 0x32, 0x30, 0x33, 0x69] } : State).hostIn =
      payloadText [((0x30, 0x31), 0x01), ((0x30, 0x32), 0x02), ((0x30, 0x33), 0x03)] ++ [0x69] ∧
    (inTxn .idle [ok, ok, .stalls]).answers = completing [[], []] ++ .stalls :: [] ∧
    [((0x30, 0x31), (0x01 : Byte))].length = min (0 + 1) (3 : Word).toNat ∧ 0 ≤ (3 : Word).toNat ∧
    [((0x30, 0x31), (0x01 : Byte))].length = min (1 + 1) (1 : Word).toNat ∧ 1 ≤ (1 : Word).toNat := by
  refine ⟨rfl, ?_, rfl, rfl, rfl, by decide, rfl, by decide⟩
  intro p hp
  simp only [List.mem_cons, List.not_mem_nil, or_false] at hp
  rcases hp with rfl | rfl | rfl
  · exact ⟨0, 1, rfl, rfl, rfl⟩
  · exact ⟨0, 2, rfl, rfl, rfl⟩
  · exact ⟨0, 3, rfl, rfl, rfl⟩

/-- `init` and `i` stalled in the halt write, and in the first call of the scan: there txn is Closed. -/
theorem witness_StalledReadCommandKeepsItsPrefix_init :
    fresh.blocked = .running ∧
    ∀ i ∈ [Instr.init, .cmdInit], ∀ p ∈ [([Answer.stalls], Txn.idle), ([ok, ok, .stalls], .closed)],
      view (exec i (inTxn .idle p.1)) (fun t => (t.blocked, t.txn)) = some (.inTransport, p.2) := by
  decide +kernel

/-- H15, and the host stopping before the first payload digit or inside a byte -/
theorem witness_StarvedWriteCommandWaitsInHostGet :
    [((0x61, 0x62), (0xab : Byte))].length < (2 : Word).toNat ∧ SpelledPayload [((0x61, 0x62), 0xab)] ∧
    ({ inTxn .idle [ok] with hostIn := [0x61, 0x62, 0x30] } : State).hostIn =
      payloadText [((0x61, 0x62), 0xab)] ++ [0x30] ∧
    hexValue 0x30 = some 0 ∧ (inTxn .idle [ok]).answers = completing [[]] ++ [] ∧
    SpelledPayload [] ∧ (inTxn .idle [ok]).hostIn = payloadText [] ++ [] := by
  refine ⟨by decide, ?_, rfl, rfl, rfl, ?_, rfl⟩
  · intro p hp
    rw [List.mem_singleton.mp hp]
    exact ⟨10, 11, rfl, rfl, rfl⟩
  · intro p hp
    cases hp

/-- Field prefixes at the ends of their ranges: no digit, and the last digit missing. -/
theorem partOfFields_witnesses :
    PartOfFields 0x72 [] ∧ PartOfFields 0x52 [] ∧ PartOfFields 0x52 (List.replicate 7 0x39) ∧
    PartOfFields 0x57 (List.replicate 7 0x46) ∧ ¬ PartOfFields 0x57 (List.replicate 8 0x46) := by
  unfold PartOfFields
  decide +kernel

/-- H14 in a command's fields; `W` with `g` as the second digit of its first payload byte -/
theorem witness_BadDigitIsRefused :
    ({ fresh with hostIn := [0x52, 0x67, 0x30] } : State).hostIn = 0x52 :: [] ++ 0x67 :: [0x30] ∧
    fresh.blocked = .running ∧ fresh.calls = [] ∧ 0 < (1 : Word).toNat ∧ hexValue 0x30 = some 0 ∧ hexValue 0x67 = none ∧
    ({ fresh with hostIn := [0x30, 0x67] } : State).hostIn = payloadText [] ++ [0x30] ++ 0x67 :: [] := by decide

theorem witness_CommandInsideAnOpenTransactionRepliesNothing :
    fresh.params.enforceSequence = true ∧ (inTxn .reading []).txn = .reading ∧ (inTxn .writing []).txn = .writing ∧
    (1 : Word) ≠ 0 ∧ ({ inTxn .reading [] with hostIn := [0x61, 0x42, 0x30] } : State).hostIn = 0x61 :: 0x42 :: [0x30] ∧
    Spells 0x61 0x42 0xab := ⟨rfl, rfl, rfl, by decide, rfl, 10, 11, rfl, rfl, rfl⟩

/-- The field `7eF` -/
theorem witness_HexFieldIsMostSignificantFirst :
    [(0x37 : Byte), 0x65, 0x46].map hexValue = [7, 14, 15].map some ∧ ([] : List Byte).map hexValue = [].map some := by decide

theorem witness_DecodeTakesExactlyTheCommand :
    decode [0x69, 0x72] = .command .cmdInit [0x72] ∧ decode [0x72, 0x30, 0x69] = .command (.cmdReset 0) [0x69] ∧
    decode hostR3 = .command (.cmdRead 0 3) [] := by decide

theorem witness_HostCommandDecodesInFrontOfAnything :
    (Instr.cmdOther 0x78).wellFormed = true ∧ encode (.cmdOther 0x78) = .host [0x78] ∧
    (Instr.cmdReset 0).wellFormed = true ∧ encode (.cmdReset 0) = .host [0x72, 0x30] := by decide

theorem witness_DecodeOfEncodeIsTheInstruction :
    (Instr.writeSingleQuad 0xffff 0xffffffff).wellFormed = true ∧ (Instr.transport 4096 4096).wellFormed = true ∧
    (Instr.cmdOther 0xff).wellFormed = true := by decide

theorem witness_StepRunsTheDecodedCommand :
    fresh.blocked = .running ∧ fresh.calls = [] ∧
    decode ({ fresh with hostIn := [0x72, 0x31, 0x78] } : State).hostIn = .command (.cmdReset 1) [0x78] := by decide

theorem witness_StepRunsTheFirstCall :
    fresh.blocked = .running ∧ ({ fresh with calls := [.transport 4096 4096] } : State).calls = [.transport 4096 4096] ∧
    (Instr.transport 4096 4096).wellFormed = true ∧ (Instr.transport 4096 4096).isHostCommand = false := by decide

theorem witness_StepWaitsWhereTheStreamRunsDry :
    fresh.blocked = .running ∧ fresh.calls = [] ∧ fresh.hostIn = [] ∧
    ({ fresh with hostIn := [0x57, 0x46, 0x46, 0x46, 0x46, 0x46, 0x46, 0x46] } : State).hostIn =
      0x57 :: List.replicate 7 0x46 ∧ PartOfFields 0x57 (List.replicate 7 0x46) :=
  ⟨rfl, rfl, rfl, rfl, partOfFields_witnesses.2.2.2.1⟩

/-- A step of a host-driven block: meets the hypotheses of EveryStepKeepsTheCursorsInRange, EveryStepEndsAtACommandBoundary,
EveryStepOnlyAppends and HostCommandsNeverMeetSequenceError. -/
theorem witness_step :
    ({ fresh with hostIn := [0x72, 0x30] } : State).cursorsInRange = true ∧
    ({ fresh with hostIn := [0x72, 0x30] } : State).dispatcherInvariant = true ∧
    ∃ t, step { fresh with hostIn := [0x72, 0x30] } = .next t := ⟨rfl, rfl, _, rfl⟩

/-- A step at the edges of the cursors' ranges, and of a blocked state that the invariant allows. -/
theorem witness_step_edges :
    ({ atCursor 4096 with inLen := 4096, calls := [.writeRawBit true] } : State).cursorsInRange = true ∧
    (∃ t, step { atCursor 4096 with inLen := 4096, calls := [.writeRawBit true] } = .next t) ∧
    ({ fresh with blocked := .inHostGet, txn := .writing } : State).dispatcherInvariant = true := ⟨rfl, ⟨_, rfl⟩, rfl⟩

theorem witness_OnlyTheFiveFramesAreSent :
    (∀ n m, Instr.readNext ≠ .transport n m) ∧ ∃ t, exec .readNext (inTxn .reading [ok]) = .next t :=
  ⟨fun _ _ h => Instr.noConfusion h, _, rfl⟩

theorem witness_OnlyInitAndResetDriveTheLine :
    Instr.cmdOther 0x78 ≠ .init ∧ Instr.cmdOther 0x78 ≠ .cmdInit ∧ (∀ f, Instr.cmdOther 0x78 ≠ .cmdReset f) ∧
    ∃ t, exec (.cmdOther 0x78) fresh = .next t :=
  ⟨fun h => Instr.noConfusion h, fun h => Instr.noConfusion h, fun _ h => Instr.noConfusion h, _, rfl⟩

/-- I6: a failing `init`; `test_init_succeeds` is a succeeding one from the same `ret`. -/
theorem witness_InitEndsConnectedOrDisconnected :
    (inTxn .idle []).ret = .none ∧
    view (exec .init { inTxn .idle [ok, ok, ok, ok, .completes quiet, .completes quiet, ok] with params := prm 3 })
      (fun t => t.ret) = some (.initResult false) := by decide +kernel

/-- Two states that differ in `conn` and in a stale bit of each buffer. -/
theorem witness_ConnAndStaleBitsInfluenceNothing :
    Indistinguishable fresh
      { fresh with conn := .connected, outBuf := fresh.outBuf.set 5 true, inBuf := fresh.inBuf.set 7 true } :=
  ⟨rfl, rfl, rfl⟩

/-- Each host command meets the hypotheses: it runs from a command boundary and ends unblocked (I6 for `i`). -/
theorem witness_EveryFinishedCommandReplies :
    ∀ p ∈ [(Instr.cmdInit, { inTxn .idle [ok, ok, ok, ok, .completes quiet, .completes quiet, ok] with params := prm 3 }),
        (.cmdReset 0, fresh), (.cmdReset 0xf, fresh), (.cmdShow, inTxn .closed [ok, ok, ok]),
        (.cmdRead 0 0, fresh), (.cmdRead 0 2, inTxn .idle [ok, ok, ok]), (.cmdWrite 0 0, fresh),
        (.cmdWrite 0 1, { inTxn .idle [ok, ok] with hostIn := [0x30, 0x31] }), (.cmdOther 0x78, fresh)],
      p.2.dispatcherInvariant = true ∧ p.2.blocked = .running ∧ p.1.isHostCommand = true ∧
        view (exec p.1 p.2) (fun t => t.blocked) = some .running := by decide +kernel

end Sys2Proof.Tests
end

section
/-! PROOFS. The statements about the block's state (10_state.md): what every step keeps, who drives the reset line, and
what block reset leaves. -/

/-! ### What every step keeps -/

namespace Sys2Proof

/-- Where a hex field leads to a command, the field had a value (R65, R154). -/
theorem HexRead.next_eq_command {h : HexRead} {f : Nat → List Byte → Decoded} {i : Instr} {rest : List Byte}
    (hn : h.next f = .command i rest) : ∃ v left, h = .value v left ∧ f v left = .command i rest := by
  cases h with
  | value v left => exact ⟨v, left, rfl, hn⟩
  | dry => cases hn
  | bad b => cases hn

/-- A hex field and a command after it take bytes from the front of the stream only. -/
theorem HexRead.next_suffix {k : Nat} {bytes : List Byte} {f : Nat → List Byte → Decoded} {i : Instr}
    {rest : List Byte} (hn : (readHex k bytes).next f = .command i rest)
    (hf : ∀ v left, f v left = .command i rest → rest <:+ left) : rest <:+ bytes := by
  obtain ⟨v, left, hv, hc⟩ := HexRead.next_eq_command hn
  obtain ⟨used, hu, -⟩ := hexFrom_value hv
  exact (hf v left hc).trans ⟨used, hu.symm⟩

theorem Decoded.rest_of_command_eq {i j : Instr} {rest left : List Byte} (h : Decoded.command j left = .command i rest) :
    rest <:+ left := by
  cases h
  exact List.suffix_rfl

theorem decodeBlock_suffix {make : Config.Address → Word → Instr} {args rest : List Byte} {i : Instr}
    (h : decodeBlock make args = .command i rest) : rest <:+ args :=
  HexRead.next_suffix h fun _ _ h => HexRead.next_suffix h fun _ _ h => Decoded.rest_of_command_eq h

/-- A decoded command takes bytes from the front of the host stream only (R72). -/
theorem decode_suffix {bytes rest : List Byte} {i : Instr} (h : decode bytes = .command i rest) : rest <:+ bytes := by
  cases bytes with
  | nil => cases h
  | cons verb args =>
    refine List.IsSuffix.trans ?_ (List.suffix_cons verb args)
    simp only [decode] at h
    split_ifs at h
    · exact Decoded.rest_of_command_eq h
    · exact HexRead.next_suffix h fun _ _ h => Decoded.rest_of_command_eq h
    · exact Decoded.rest_of_command_eq h
    · exact decodeBlock_suffix h
    · exact decodeBlock_suffix h
    · exact Decoded.rest_of_command_eq h

namespace Machine

/-- A relation kept by every effect of a step: those of the meanings, a pending call taken, the banner check. -/
structure StepEffects (R : State → State → Prop) : Prop extends AllEffects R where
  takeCall : ∀ s i calls, s.calls = i :: calls → R s { s with calls := calls, ret := .none }
  banner : ∀ s, R s (bannerCheck s)

/-- Every step keeps a relation that every effect of a step keeps. -/
theorem StepEffects.step {R : State → State → Prop} (h : StepEffects R) {s t : State} (hs : step s = .next t) :
    R s t := by
  obtain ⟨-, hcases⟩ := step_cases hs
  rcases hcases with ⟨i, calls, hc, -, -, hx⟩ | ⟨i, rest, -, hd, hx⟩ | ⟨-, -, rfl⟩
  · exact h.trans (h.takeCall s i calls hc) (h.exec hx)
  · obtain ⟨used, hu⟩ := decode_suffix hd
    exact h.trans (h.banner s) (h.trans (h.hostIn (bannerCheck s) used rest hu.symm) (h.exec hx))
  · exact h.trans (h.banner s) (h.dry (bannerCheck s))

/-- What a Transport call can do (R100, R102): hang with its answer used up, or complete with one capture and one
event. -/
theorem transport_cases (n m : Nat) (s : State) :
    (transport n m s).state = { s.drawAnswer with blocked := .inTransport } ∨
      ∃ c, (transport n m s).state = { s.drawAnswer with
        inBuf := storeFrom 0 c s.inBuf, inLen := m, trace := s.trace ++ [.wire (s.outBits n) c] } := by
  rw [transport]
  cases s.nextAnswer with
  | stalls => exact .inl rfl
  | completes bits => exact .inr ⟨_, rfl⟩

/-! ### The cursors (R11 to R13) -/

theorem State.cursorsInRange_iff (s : State) :
    s.cursorsInRange = true ↔ s.outCur ≤ Config.bufCap ∧ s.inLen ≤ Config.bufCap := by
  simp only [State.cursorsInRange, Bool.and_eq_true, decide_eq_true_eq]

theorem ProtocolCall.fits {f : List Bool} {m : Nat} (h : ProtocolCall f m) :
    f.length ≤ Config.bufCap ∧ m ≤ Config.bufCap := by
  rcases h with ⟨-, hl, hm⟩ | ⟨-, hl, hm⟩ | ⟨-, hl, hm⟩ | ⟨-, hl, hm⟩ | ⟨-, hl, hm⟩ <;>
    simp [hl, hm, Config.bufCap]

/-- If the cursors of the first state are in range, so are those of the second. -/
def KeepsCursors (s t : State) : Prop :=
  s.outCur ≤ Config.bufCap ∧ s.inLen ≤ Config.bufCap → t.outCur ≤ Config.bufCap ∧ t.inLen ≤ Config.bufCap

theorem keepsCursors_effects : StepEffects KeepsCursors where
  refl _ := id
  trans h k := k ∘ h
  called _ _ _ _ hp _ := hp.fits
  hung _ _ _ hp hs := ⟨hp.fits.1, hs.2⟩
  decoded _ := id
  txn _ _ := id
  rejected _ _ _ := id
  rst _ _ := id
  delay _ _ := id
  conn _ _ := id
  put _ _ := id
  hostIn _ _ _ _ := id
  dry _ := id
  rawBit s b hs := by
    rw [writeRawBit_outCur b s hs.1, writeRawBit_frame]
    exact ⟨Nat.min_le_right _ _, hs.2⟩
  cursor _ hs := ⟨Nat.zero_le _, hs.2⟩
  ret _ _ _ := id
  wire s n m _ _ hm hs := by
    rcases transport_cases n m s with h | ⟨c, h⟩ <;> rw [h]
    · exact hs
    · exact ⟨hs.1, hm⟩
  takeCall _ _ _ _ := id
  banner _ := id

/-! ### Append-only outputs and inputs that only move forward (R18, R42, R151) -/

/-- Replies and events are extended, the host stream and the pending calls lose bytes and calls at the front only, and
the parameters are kept. -/
structure OnlyAppends (s t : State) : Prop where
  hostOut : s.hostOut <+: t.hostOut
  trace : s.trace <+: t.trace
  hostIn : t.hostIn <:+ s.hostIn
  calls : t.calls <:+ s.calls
  params : t.params = s.params

namespace OnlyAppends

theorem trans {s t u : State} (h : OnlyAppends s t) (k : OnlyAppends t u) : OnlyAppends s u :=
  ⟨h.hostOut.trans k.hostOut, h.trace.trans k.trace, k.hostIn.trans h.hostIn, k.calls.trans h.calls,
    k.params.trans h.params⟩

/-- An effect that touches none of these fields. -/
theorem of_eq {s t : State} (h : (t.hostOut, t.trace, t.hostIn, t.calls, t.params) =
    (s.hostOut, s.trace, s.hostIn, s.calls, s.params)) : OnlyAppends s t := by
  simp only [Prod.mk.injEq] at h
  obtain ⟨ho, ht, hi, hc, hp⟩ := h
  exact ⟨ho ▸ List.prefix_rfl, ht ▸ List.prefix_rfl, hi ▸ List.suffix_rfl, hc ▸ List.suffix_rfl, hp⟩

/-- An effect that touches the trace alone of these fields, and extends it. -/
theorem of_events {s t : State} {events : List Event} (ht : t.trace = s.trace ++ events)
    (h : (t.hostOut, t.hostIn, t.calls, t.params) = (s.hostOut, s.hostIn, s.calls, s.params)) : OnlyAppends s t := by
  simp only [Prod.mk.injEq] at h
  obtain ⟨ho, hi, hc, hp⟩ := h
  exact ⟨ho ▸ List.prefix_rfl, ⟨events, ht.symm⟩, hi ▸ List.suffix_rfl, hc ▸ List.suffix_rfl, hp⟩

end OnlyAppends

theorem onlyAppends_effects : StepEffects OnlyAppends where
  refl _ := .of_eq rfl
  trans := .trans
  called _ _ _ _ _ := .of_events rfl rfl
  hung _ _ _ _ := .of_eq rfl
  decoded _ := .of_eq rfl
  txn _ _ := .of_eq rfl
  rejected _ _ _ := .of_eq rfl
  rst _ _ := .of_events rfl rfl
  delay _ _ := .of_events rfl rfl
  conn _ _ := .of_eq rfl
  put s p := ⟨⟨[p], rfl⟩, List.prefix_rfl, List.suffix_rfl, List.suffix_rfl, rfl⟩
  hostIn _ used _ hu := ⟨List.prefix_rfl, List.prefix_rfl, ⟨used, hu.symm⟩, List.suffix_rfl, rfl⟩
  dry _ := ⟨List.prefix_rfl, List.prefix_rfl, List.nil_suffix, List.suffix_rfl, rfl⟩
  rawBit s b := by
    rw [writeRawBit_frame]
    exact .of_eq rfl
  cursor _ := .of_eq rfl
  ret _ _ _ := .of_eq rfl
  wire s n m _ _ _ := by
    rcases transport_cases n m s with h | ⟨c, h⟩ <;> rw [h]
    · exact .of_eq rfl
    · exact .of_events rfl rfl
  takeCall s i calls hc :=
    ⟨List.prefix_rfl, List.prefix_rfl, List.suffix_rfl, hc ▸ List.suffix_cons i calls, rfl⟩
  banner s := by
    refine ⟨?_, List.prefix_rfl, List.suffix_rfl, List.suffix_rfl, rfl⟩
    rw [bannerCheck_hostOut]
    split
    · exact List.prefix_append _ _
    · exact List.prefix_rfl

/-! ### The reset line and `conn` (R15, R17) -/

/-- A relation kept by the effects of every operation but `init`, `i` and `r`. -/
structure LineFreeEffects (R : State → State → Prop) : Prop extends HostEffects R where
  rawBit : ∀ s b, R s (writeRawBit b s)
  cursor : ∀ s, R s (resetOut s)
  ret : ∀ s r, R s (s.returns r)
  wire : ∀ s n m, n ≤ s.outCur → s.outCur ≤ Config.bufCap → m ≤ Config.bufCap → R s (transport n m s).state

namespace LineFreeEffects

variable {R : State → State → Prop} {s t : State}

theorem appendBits (h : LineFreeEffects R) (bits : List Bool) (s : State) : R s (appendBits bits s) := by
  induction bits generalizing s with
  | nil => exact h.refl s
  | cons b bits ih => exact h.trans (h.rawBit s b) (ih _)

/-- The outcome of an L0 meaning: a state with a plain result handed back. -/
theorem returned (h : LineFreeEffects R) {u : State} {r : Ret}
    (hx : (.next (u.returns r) : Host.Outcome State Fault Refusal) = .next t) (hu : R s u) : R s t := by
  cases hx
  exact h.trans hu (h.ret u r)

/-- The outcome of a called operation: its state with its result handed back, if it has one. -/
theorem reported (h : LineFreeEffects R) {α : Type} {r : Res α} {f : α → Ret}
    (hx : (.next (r.report f) : Host.Outcome State Fault Refusal) = .next t) (hr : R s r.state) : R s t := by
  cases hx
  cases r with
  | done a u => exact h.trans hr (h.ret u _)
  | stopped e u => exact hr

/-- Every meaning but those of `init`, `i` and `r` keeps such a relation. -/
theorem exec (h : LineFreeEffects R) {i : Instr} (hinit : i ≠ .init) (hcmd : i ≠ .cmdInit)
    (hreset : ∀ f, i ≠ .cmdReset f) (hx : exec i s = .next t) : R s t := by
  cases i with
  | writeRawBit b => exact h.returned hx (h.rawBit s b)
  | writeBakedOne => exact h.returned hx (writeBakedBit_eq true s ▸ h.appendBits _ s)
  | writeBakedZero => exact h.returned hx (writeBakedBit_eq false s ▸ h.appendBits _ s)
  | writeByte b => exact h.returned hx (writeByte_eq b s ▸ h.appendBits _ s)
  | writeCmdByte b => exact h.returned hx (writeCmdByte_eq b s ▸ h.appendBits _ s)
  | writeDataByte b => exact h.returned hx (writeDataByte_eq b s ▸ h.appendBits _ s)
  | writeDataWord w => exact h.returned hx (writeDataWord_eq w s ▸ h.appendBits _ s)
  | resetOut => exact h.returned hx (h.cursor s)
  | decodeByte => exact h.returned hx (h.decoded s)
  | transport n m =>
    simp only [Machine.exec, execTransport] at hx
    split at hx
    next hr => exact h.reported hx (h.wire s n m hr.1 hr.2.1 hr.2.2)
    next => cases hx
  | readFirst a => exact h.reported hx (h.readFirst a s)
  | readNext => exact h.reported hx (h.readNext s)
  | finishReading => exact h.reported hx (h.finishReading s)
  | writeFirst a v => exact h.reported hx (h.writeFirst a v s)
  | writeNext v => exact h.reported hx (h.writeNext v s)
  | finishWriting => exact h.reported hx (h.finishWriting s)
  | readSingleByte a => exact h.reported hx (h.readSingleByte a s)
  | readSingleWord a => exact h.reported hx (h.readSingleWord a s)
  | writeSingleByte a v => exact h.reported hx (h.writeSingleByte a v s)
  | writeSingleWord a v => exact h.reported hx (h.writeSingleWord a v s)
  | writeSingleQuad a v => exact h.reported hx (h.writeSingleQuad a v s)
  | init => exact absurd rfl hinit
  | cmdInit => exact absurd rfl hcmd
  | cmdReset f => exact absurd rfl (hreset f)
  | cmdShow => exact Host.Outcome.next.inj hx ▸ h.cmdShow s
  | cmdRead a n => exact Host.Outcome.next.inj hx ▸ h.cmdRead a n s
  | cmdWrite a n => exact Res.outcome_next hx ▸ h.cmdWrite a n s
  | cmdOther verb => exact Host.Outcome.next.inj hx ▸ h.cmdOther verb s

end LineFreeEffects

/-- `conn` and the reset line are left alone, and no event drives the line. -/
structure LineKept (s t : State) : Prop where
  conn : t.conn = s.conn
  rst : t.rst = s.rst
  events : ∃ events, t.trace = s.trace ++ events ∧ ∀ l, Event.setRst l ∉ events

namespace LineKept

theorem of_eq {s t : State} (h : (t.conn, t.rst, t.trace) = (s.conn, s.rst, s.trace)) : LineKept s t := by
  simp only [Prod.mk.injEq] at h
  obtain ⟨hc, hr, ht⟩ := h
  exact ⟨hc, hr, [], by simp [ht], by simp⟩

/-- A completed Transport call is an event that drives no reset line. -/
theorem of_wire {s t : State} {sent captured : List Bool} (ht : t.trace = s.trace ++ [.wire sent captured])
    (h : (t.conn, t.rst) = (s.conn, s.rst)) : LineKept s t := by
  simp only [Prod.mk.injEq] at h
  exact ⟨h.1, h.2, [.wire sent captured], ht, by simp⟩

theorem trans {s t u : State} (h : LineKept s t) (k : LineKept t u) : LineKept s u := by
  obtain ⟨es, hes, hn⟩ := h.events
  obtain ⟨fs, hfs, kn⟩ := k.events
  refine ⟨k.conn.trans h.conn, k.rst.trans h.rst, es ++ fs, by rw [hfs, hes, List.append_assoc], fun l hl => ?_⟩
  exact (List.mem_append.mp hl).elim (hn l) (kn l)

end LineKept

theorem lineKept_effects : LineFreeEffects LineKept where
  refl _ := .of_eq rfl
  trans := .trans
  called _ _ _ _ _ := .of_wire rfl rfl
  hung _ _ _ _ := .of_eq rfl
  decoded _ := .of_eq rfl
  txn _ _ := .of_eq rfl
  rejected _ _ _ := .of_eq rfl
  put _ _ := .of_eq rfl
  hostIn _ _ _ _ := .of_eq rfl
  dry _ := .of_eq rfl
  rawBit s b := by
    rw [writeRawBit_frame]
    exact .of_eq rfl
  cursor _ := .of_eq rfl
  ret _ _ := .of_eq rfl
  wire s n m _ _ _ := by
    rcases transport_cases n m s with h | ⟨c, h⟩ <;> rw [h]
    · exact .of_eq rfl
    · exact .of_wire rfl rfl

/-! ### Block reset (R7, R25) -/

/-- The parameters after reset are in R7's ranges, whatever the OPEN end of the divider range is. -/
theorem atReset_legal : Params.atReset.legal = true := by
  have hrange := Config.divRange.isLt
  simp only [Params.legal, Bool.and_eq_true, decide_eq_true_eq]
  exact ⟨⟨Nat.le_add_right _ _, show 3 + Config.divRange.val ≤ 127 by omega⟩, Nat.zero_lt_one⟩

end Machine
end Sys2Proof

/-! ### The obligations -/

open Sys2Proof Sys2Proof.Machine

/-- Settles O51: no effect of a step moves a cursor out of its range. -/
theorem everyStepKeepsTheCursorsInRange : Obligations.EveryStepKeepsTheCursorsInRange := by
  intro s t hs hstep
  rw [State.cursorsInRange_iff] at hs ⊢
  exact keepsCursors_effects.step hstep hs

/-- Settles O53: every effect of a step only appends, and appended puts append their bytes. -/
theorem everyStepOnlyAppends : Obligations.EveryStepOnlyAppends := by
  intro s t hstep
  obtain ⟨⟨out, hout⟩, ⟨events, hevents⟩, ⟨used, hused⟩, ⟨called, hcalled⟩, hparams⟩ := onlyAppends_effects.step hstep
  refine ⟨⟨out, hout.symm, ?_⟩, ⟨events, hevents.symm⟩, ⟨used, hused.symm⟩, ⟨called, hcalled.symm⟩, hparams⟩
  rw [State.replyBytes_append hout.symm hparams]
  exact congrArg (s.replyBytes ++ out.flatMap ·) (funext fun put => by cases put <;> rfl)

/-- Settles O55: no effect of another operation writes `conn` or `rst` or records a change of the line. -/
theorem onlyInitAndResetDriveTheLine : Obligations.OnlyInitAndResetDriveTheLine := by
  intro i s t hinit hcmd hreset hx
  obtain ⟨hconn, hrst, hevents⟩ := lineKept_effects.exec hinit hcmd hreset hx
  exact ⟨hconn, hrst, hevents⟩

/-- Settles O3: at capacity the write itself is the identity (R12). -/
theorem writeAtCapacityIsDropped : Obligations.WriteAtCapacityIsDropped := by
  intro b s hfull
  have hdropped : writeRawBit b s = s := writeRawBit_full b s hfull
  simp only [exec, execWriteRawBit, hdropped]
  rfl

/-- Settles O49: the fields of `State.reset`. -/
theorem resetLeavesTheSpecsValues : Obligations.ResetLeavesTheSpecsValues := ⟨rfl, rfl, rfl, rfl, rfl, rfl⟩

/-- Settles O50: the cursors and the command boundary by computation, the parameters by `atReset_legal`. -/
theorem resetMeetsTheInvariants : Obligations.ResetMeetsTheInvariants := ⟨rfl, rfl, atReset_legal⟩

end

section
/-! PROOFS. The statements about the encodings (30_encoding.md): the host language, the symbols and frames, the decoder of
captures, the composites and their expansions, and what each host command replies. -/

namespace Sys2Proof

/-! ### Hex fields and host commands (R65 to R73) -/

/-- A field whose bytes are all digits has their base-16 value on top of what was read before (R154). -/
theorem hexFrom_digits {cs : List Byte} {ds : List Nat} (h : cs.map hexValue = ds.map some) (v : Nat)
    (rest : List Byte) :
    hexFrom v cs.length (cs ++ rest) = .value (v * 16 ^ cs.length + Nat.ofDigits 16 ds.reverse) rest := by
  induction cs generalizing v ds with
  | nil =>
    obtain rfl : ds = [] := by simpa using h.symm
    simp [hexFrom]
  | cons c cs ih =>
    cases ds with
    | nil => cases h
    | cons d ds =>
      obtain ⟨hc, hcs⟩ : hexValue c = some d ∧ cs.map hexValue = ds.map some := by simpa using h
      have hlen : cs.length = ds.length := by simpa using congrArg List.length hcs
      have hvalue : (v * 16 + d) * 16 ^ cs.length + Nat.ofDigits 16 ds.reverse =
          v * 16 ^ (cs.length + 1) + Nat.ofDigits 16 (d :: ds).reverse := by
        rw [List.reverse_cons, Nat.ofDigits_append, Nat.ofDigits_singleton, List.length_reverse, hlen]
        ring
      simp only [List.length_cons, List.cons_append, hexFrom, hc, ih hcs, hvalue]

/-- Where a hex field leads to a command, the field took its digits from the stream (R154). -/
theorem HexRead.next_takes {k : Nat} {bytes rest : List Byte} {f : Nat → List Byte → Decoded} {i : Instr}
    (h : (readHex k bytes).next f = .command i rest) :
    ∃ digits v left, digits.length = k ∧ bytes = digits ++ left ∧ f v left = .command i rest := by
  obtain ⟨v, left, hv, hc⟩ := HexRead.next_eq_command h
  obtain ⟨digits, hd, hl⟩ := hexFrom_value hv
  exact ⟨digits, v, left, hl, hd, hc⟩

/-- An address and a count take eight bytes from the stream (R69, R70). -/
theorem decodeBlock_takes {make : Config.Address → Word → Instr} {args rest : List Byte} {i : Instr}
    (h : decodeBlock make args = .command i rest) :
    ∃ fields a n, fields.length = 8 ∧ args = fields ++ rest ∧ i = make a n := by
  obtain ⟨address, a, behind, ha, rfl, hcount⟩ := HexRead.next_takes h
  obtain ⟨count, n, left, hn, rfl, hmade⟩ := HexRead.next_takes hcount
  cases hmade
  exact ⟨address ++ count, _, _, by simp [ha, hn], by simp, rfl⟩

/-- A byte that is no digit stops the reader in either field (R73). -/
theorem decodeBlock_bad (make : Config.Address → Word → Instr) {digits more : List Byte} {bad : Byte}
    (hd : ∀ d ∈ digits, hexValue d ≠ none) (hl : digits.length < 8) (hb : hexValue bad = none) :
    decodeBlock make (digits ++ bad :: more) = .badDigit bad := by
  by_cases h : digits.length < 4
  · rw [decodeBlock, readHex, hexFrom_bad hd h hb]
    rfl
  · obtain ⟨a, ha⟩ := hexFrom_enough (v := 0) hd (Nat.le_of_not_lt h) (bad :: more)
    have hcount : readHex 4 (digits.drop 4 ++ bad :: more) = .bad bad :=
      hexFrom_bad (fun d hm => hd d (List.mem_of_mem_drop hm)) (by rw [List.length_drop]; omega) hb
    rw [decodeBlock, readHex, ha]
    simp only [HexRead.next, hcount]

theorem decode_r (args : List Byte) : decode (0x72 :: args) =
    (readHex 1 args).next fun f rest => .command (.cmdReset (BitVec.ofNat 4 f)) rest := rfl

theorem decode_R (args : List Byte) : decode (0x52 :: args) = decodeBlock .cmdRead args := rfl

theorem decode_W (args : List Byte) : decode (0x57 :: args) = decodeBlock .cmdWrite args := rfl

/-- Behind `r`, `R` or `W`, a byte that is no digit inside the fields stops the decoder (R73). -/
theorem decode_badDigit {verb : Byte} {digits more : List Byte} {bad : Byte} (h : Machine.PartOfFields verb digits)
    (hb : hexValue bad = none) : decode (verb :: digits ++ bad :: more) = .badDigit bad := by
  obtain ⟨hd, ⟨rfl, hl⟩ | ⟨rfl | rfl, hl⟩⟩ := h
  · rw [List.cons_append, decode_r, readHex, hexFrom_bad hd hl hb]
    rfl
  · rw [List.cons_append, decode_R, decodeBlock_bad _ hd hl hb]
  · rw [List.cons_append, decode_W, decodeBlock_bad _ hd hl hb]

/-- The unrecognized verbs are those that `decode` gives no meaning of their own (R71). -/
theorem Instr.wellFormed_cmdOther_iff (verb : Byte) : (Instr.cmdOther verb).wellFormed = true ↔
    verb ≠ 0x52 ∧ verb ≠ 0x57 ∧ verb ≠ 0x69 ∧ verb ≠ 0x72 ∧ verb ≠ 0x73 := by
  simp [Instr.wellFormed, verbs]

theorem decode_cmdOther {verb : Byte} (h : (Instr.cmdOther verb).wellFormed = true) (rest : List Byte) :
    decode (verb :: rest) = .command (.cmdOther verb) rest := by
  obtain ⟨hR, hW, hi, hr, hs⟩ := (Instr.wellFormed_cmdOther_iff verb).mp h
  simp only [decode, hi, hr, hs, hR, hW, if_false]

/-! ### Symbols (R51 to R53) -/

theorem symbolBits_eq_ite (b : Bool) : symbolBits b =
    if b then [false, false, false, false, true] else [false, true, true, true, true] := by
  cases b <;> rfl

/-- A marked byte is a row of symbols: the marker, the byte's bits, the framing 0 (R52, R53). -/
theorem markedBits_eq_symbols (marker : Bool) (b : Byte) :
    markedBits marker b = (marker :: (msbFirst b ++ [false])).flatMap symbolBits := by
  simp [markedBits, byteBits]

theorem msbFirst_lowByte (w : Word) :
    msbFirst (w.extractLsb' 0 8) = (List.range 8).map fun i => w.getLsbD (7 - i) := by
  simp [msbFirst, List.range_succ]

theorem msbFirst_highByte (w : Word) :
    msbFirst (w.extractLsb' 8 8) = (List.range 8).map fun i => w.getLsbD (15 - i) := by
  simp [msbFirst, List.range_succ]

namespace Machine

/-! ### Captures (R61, R90, R92) -/

/-- What follows a low-run does not go on low: a pair's high-run is missing at the end of a capture only. -/
theorem highRun_head {n : Nat} {rest : List Bool} (h : rest = [] ∨ 0 < n) :
    (List.replicate n true ++ rest).head? ≠ some false := by
  rcases h with rfl | h
  · cases n <;> simp [List.replicate_succ]
  · exact pair_head (0, n) rest h

/-- The last pair of a capture, which may be cut short or lack its high-run, decodes from the runs it has (R92). -/
theorem runBit_lastPair {r : Nat × Nat} {rest : List Bool} (h : rest = [] ∨ 0 < r.2) (hr : rest.head? ≠ some true) :
    runBit (pairBits r ++ rest) = decide (r.1 > r.2) := by
  rw [runBit, pairBits, List.append_assoc, runLength_replicate _ _ _ (highRun_head h),
    afterRun_replicate _ _ _ (highRun_head h), runLength_replicate _ _ _ hr]

theorem afterRuns_lastPair {r : Nat × Nat} {rest : List Bool} (h : rest = [] ∨ 0 < r.2)
    (hr : rest.head? ≠ some true) : afterRuns (pairBits r ++ rest) = rest := by
  rw [afterRuns, pairBits, List.append_assoc, afterRun_replicate _ _ _ (highRun_head h),
    afterRun_replicate _ _ _ hr]

theorem pairBits_head {r : Nat × Nat} (h : 0 < r.1) (rest : List Bool) :
    (pairBits r ++ rest).head? = some false := by
  obtain ⟨n, hn⟩ := Nat.exists_eq_succ_of_ne_zero h.ne'
  simp [pairBits, hn, List.replicate_succ]

/-- Pairs of runs in front of a capture, the last of which may be cut where the capture ends. -/
structure RunsThenTail (runs : List (Nat × Nat)) (tail : List Bool) : Prop where
  low : ∀ r ∈ runs, 0 < r.1
  high : ∀ r ∈ runs.dropLast, 0 < r.2
  lastHigh : tail = [] ∨ ∀ r ∈ runs, 0 < r.2
  tailLow : tail.head? ≠ some true

namespace RunsThenTail

theorem head {runs : List (Nat × Nat)} {tail : List Bool} (h : RunsThenTail runs tail) :
    (runs.flatMap pairBits ++ tail).head? ≠ some true := by
  cases runs with
  | nil => exact h.tailLow
  | cons r rs =>
    rw [List.flatMap_cons, List.append_assoc, pairBits_head (h.low r (by simp))]
    simp

/-- Each pair, the last one cut or not, shifts its bit in, in one iteration (R90, R92). -/
theorem decodeRuns_eq {runs : List (Nat × Nat)} {tail : List Bool} (h : RunsThenTail runs tail) (policy : TruncPolicy)
    (k : Nat) (acc : Byte) :
    decodeRuns policy (runs.length + k) acc (runs.flatMap pairBits ++ tail) =
      decodeRuns policy k ((runs.map fun r => decide (r.1 > r.2)).foldl shiftIn acc) tail := by
  rcases List.eq_nil_or_concat' runs with rfl | ⟨init, last, rfl⟩
  · simp
  · have hlow : 0 < last.1 := h.low last (by simp)
    have hlast : tail = [] ∨ 0 < last.2 := h.lastHigh.imp_right (· last (by simp))
    have hinit : ∀ r ∈ init, 0 < r.1 ∧ 0 < r.2 := fun r hr =>
      ⟨h.low r (by simp [hr]), h.high r (by simpa using hr)⟩
    have hhead := pairBits_head hlow tail
    have hne : pairBits last ++ tail ≠ [] := fun hc => by simp [hc] at hhead
    have hwhole := decodeRuns_pairs policy init (k + 1) acc (pairBits last ++ tail) hinit (by simp [hhead])
    rw [decodeRuns_succ_of_ne _ _ _ _ hne, runBit_lastPair hlast h.tailLow, afterRuns_lastPair hlast h.tailLow] at hwhole
    simpa [List.append_assoc, Nat.add_assoc, Nat.add_comm 1 k] using hwhole

/-- `decode_byte` consumes the leading high bits and the eight pairs, and compares the runs of each (R61, R90). -/
theorem decodeBits_eq {runs : List (Nat × Nat)} {tail : List Bool} (h : RunsThenTail runs tail)
    (hl : runs.length = 8) (policy : TruncPolicy) (high : Nat) :
    decodeBits policy (List.replicate high true ++ runs.flatMap pairBits ++ tail) =
      (ofMsbFirst (runs.map fun r => decide (r.1 > r.2)), high + (runs.map fun r => r.1 + r.2).sum) := by
  have hruns := h.decodeRuns_eq policy 0 0
  rw [Nat.add_zero, hl] at hruns
  rw [decodeBits, List.append_assoc, afterRun_replicate _ _ _ h.head, hruns, decodeRuns, ofMsbFirst_eq_foldl]
  simp only [List.length_append, List.length_replicate, pairs_length, ← Nat.add_assoc, Nat.add_sub_cancel]

end RunsThenTail

theorem execDecodeByte_eq {s : State} {v : Byte} {pos : Nat}
    (h : decodeBits s.params.truncPolicy s.inBits = (v, pos)) :
    exec .decodeByte s = .next { s with inPos := pos, ret := .byte v } := by
  change Host.Outcome.next ((afterDecode s).returns (.byte (decodedByte s))) = _
  rw [afterDecode, decodedByte, h]
  rfl

/-! ### How an operation stops, and what a returned one leaves (R110, R117, R181) -/

/-- A stopped primitive is inside a call that never completes, or has been refused by R110's table and reports it. -/
def PrimitiveStop (op : Primitive) (s u : State) : Prop :=
  u.blocked = .inTransport ∨ (s.mayRun op = false ∧ u = s.returns (.sequenceError op s.txn))

section stopped

variable {α : Type} {s u : State} {e : Stop}

theorem primitive_stopped {op : Primitive} {build : State → State} {m : Nat}
    (h : primitive op build m s = .stopped e u) : PrimitiveStop op s u := by
  rw [primitive] at h
  split at h
  next =>
    rw [transport] at h
    split at h
    · cases h
      exact .inl rfl
    · cases h
  next hmay =>
    cases h
    exact .inr ⟨Bool.eq_false_iff.mpr hmay, rfl⟩

theorem thenDecode_stopped {r : Res Unit} (h : thenDecode r = .stopped e u) : r = .stopped e u := by
  cases r with
  | done a t => cases h
  | stopped f t => cases h; rfl

theorem thenTxn_stopped {r : Res α} {x : Txn} (h : thenTxn r x = .stopped e u) : r = .stopped e u := by
  cases r with
  | done a t => cases h
  | stopped f t => cases h; rfl

theorem readFirst_stopped {a : Word} (h : readFirst a s = .stopped e u) : PrimitiveStop .readFirst s u :=
  primitive_stopped (thenDecode_stopped (thenTxn_stopped h))

theorem readNext_stopped (h : readNext s = .stopped e u) : PrimitiveStop .readNext s u :=
  primitive_stopped (thenDecode_stopped h)

theorem finishReading_stopped (h : finishReading s = .stopped e u) : PrimitiveStop .finishReading s u :=
  primitive_stopped (thenTxn_stopped h)

theorem writeFirst_stopped {a : Word} {v : Byte} (h : writeFirst a v s = .stopped e u) :
    PrimitiveStop .writeFirst s u := primitive_stopped (thenTxn_stopped h)

theorem writeNext_stopped {v : Byte} (h : writeNext v s = .stopped e u) : PrimitiveStop .writeNext s u :=
  primitive_stopped h

theorem finishWriting_stopped (h : finishWriting s = .stopped e u) : PrimitiveStop .finishWriting s u :=
  primitive_stopped (thenTxn_stopped h)

end stopped

/-! ### A primitive called alone and inside a composite (R76) -/

/-- The states differ at most in what the last call handed back. -/
def EqualButRet (s t : State) : Prop := ∃ r, t = s.returns r

theorem EqualButRet.refl (s : State) : EqualButRet s s := ⟨s.ret, rfl⟩

theorem equalButRet_twoRuns : TwoRuns EqualButRet where
  params := by rintro s _ ⟨r, rfl⟩; rfl
  txn := by rintro s _ ⟨r, rfl⟩; rfl
  answers := by rintro s _ ⟨r, rfl⟩; rfl
  draws := by rintro s _ ⟨r, rfl⟩; rfl
  hostIn := by rintro s _ ⟨r, rfl⟩; rfl
  called := by rintro s _ f m c ⟨r, rfl⟩ -; exact ⟨r, s.returns_called r f m c⟩
  hung := by rintro s _ f m ⟨r, rfl⟩ -; exact ⟨r, s.returns_hung r f⟩
  decoded := by rintro s _ ⟨r, rfl⟩; exact ⟨r, rfl⟩
  setTxn := by rintro s _ x ⟨r, rfl⟩; exact ⟨r, rfl⟩
  returns := by rintro s _ x ⟨r, rfl⟩; exact ⟨x, rfl⟩
  setRst := by rintro s _ l ⟨r, rfl⟩; exact ⟨r, rfl⟩
  delay := by rintro s _ d ⟨r, rfl⟩; exact ⟨r, rfl⟩
  setConn := by rintro s _ c ⟨r, rfl⟩; exact ⟨r, rfl⟩
  put := by rintro s _ p ⟨r, rfl⟩; exact ⟨r, rfl⟩
  consume := by rintro s _ rest ⟨r, rfl⟩; exact ⟨r, rfl⟩
  dry := by rintro s _ ⟨r, rfl⟩; exact ⟨r, rfl⟩

/-- A directly called operation that has returned: from a state that differs only in what was handed back before, it
comes to the same end. -/
theorem done_of_returned {α : Type} {r r' : Res α} {f : α → Ret} {a : α} {op : Primitive} {s w : State}
    (hsame : Res.Same EqualButRet r r') (hstop : ∀ e u, r' = .stopped e u → PrimitiveStop op s u)
    (hinj : Function.Injective f) (hne : ∀ op x, f a ≠ .sequenceError op x)
    (hx : (.next (r'.report f) : Host.Outcome State Fault Refusal) = .next w) (hb : w.blocked = .running)
    (hr : w.ret = f a) : ∃ u, r = .done a u ∧ w = u.returns (f a) := by
  cases hx
  cases r' with
  | stopped e u =>
    rcases hstop e u rfl with hhung | ⟨-, hrefused⟩
    · rw [Res.report_stopped, hhung] at hb
      cases hb
    · rw [Res.report_stopped, hrefused] at hr
      exact absurd hr.symm (hne op s.txn)
  | done b t =>
    cases r with
    | stopped e u => exact hsame.elim
    | done c u =>
      obtain ⟨rfl, x, rfl⟩ := hsame
      obtain rfl : c = a := hinj hr
      exact ⟨u, rfl, rfl⟩

/-- What a call hands back tells its result: a byte, or none. -/
theorem Ret.byte_injective : Function.Injective Ret.byte := fun _ _ => Ret.byte.inj

theorem Ret.done_injective : Function.Injective fun _ : Unit => Ret.done := Function.injective_of_subsingleton _

section returned

variable {s t w : State} {a : Word} {v : Byte}

theorem readFirst_of_returned (hq : EqualButRet s t) (hx : exec (.readFirst a) t = .next w)
    (hb : w.blocked = .running) (hr : w.ret = .byte v) : ∃ u, readFirst a s = .done v u ∧ w = u.returns (.byte v) :=
  done_of_returned (equalButRet_twoRuns.readFirst a hq) (fun _ _ => readFirst_stopped)
    Ret.byte_injective nofun hx hb hr

theorem readNext_of_returned (hq : EqualButRet s t) (hx : exec .readNext t = .next w)
    (hb : w.blocked = .running) (hr : w.ret = .byte v) : ∃ u, readNext s = .done v u ∧ w = u.returns (.byte v) :=
  done_of_returned (equalButRet_twoRuns.readNext hq) (fun _ _ => readNext_stopped)
    Ret.byte_injective nofun hx hb hr

theorem finishReading_of_returned (hq : EqualButRet s t) (hx : exec .finishReading t = .next w)
    (hb : w.blocked = .running) (hr : w.ret = .done) : ∃ u, finishReading s = .done () u ∧ w = u.returns .done :=
  done_of_returned (equalButRet_twoRuns.finishReading hq) (fun _ _ => finishReading_stopped)
    Ret.done_injective nofun hx hb hr

theorem writeFirst_of_returned (hq : EqualButRet s t) (hx : exec (.writeFirst a v) t = .next w)
    (hb : w.blocked = .running) (hr : w.ret = .done) : ∃ u, writeFirst a v s = .done () u ∧ w = u.returns .done :=
  done_of_returned (equalButRet_twoRuns.writeFirst a v hq) (fun _ _ => writeFirst_stopped)
    Ret.done_injective nofun hx hb hr

theorem writeNext_of_returned (hq : EqualButRet s t) (hx : exec (.writeNext v) t = .next w)
    (hb : w.blocked = .running) (hr : w.ret = .done) : ∃ u, writeNext v s = .done () u ∧ w = u.returns .done :=
  done_of_returned (equalButRet_twoRuns.writeNext v hq) (fun _ _ => writeNext_stopped)
    Ret.done_injective nofun hx hb hr

theorem finishWriting_of_returned (hq : EqualButRet s t) (hx : exec .finishWriting t = .next w)
    (hb : w.blocked = .running) (hr : w.ret = .done) : ∃ u, finishWriting s = .done () u ∧ w = u.returns .done :=
  done_of_returned (equalButRet_twoRuns.finishWriting hq) (fun _ _ => finishWriting_stopped)
    Ret.done_injective nofun hx hb hr

end returned

/-! ### `W` and the bytes of its payload (R159, R73) -/

theorem readHex_spelled {c1 c2 b : Byte} (h : Spells c1 c2 b) (more : List Byte) :
    readHex 2 (c1 :: c2 :: more) = .value b.toNat more := by
  obtain ⟨v1, v2, h1, h2, hb⟩ := h
  simp [readHex, hexFrom, h1, h2, hb, Nat.mul_comm]

theorem payloadByte_spelled {s : State} {c1 c2 b : Byte} {more : List Byte} (h : Spells c1 c2 b)
    (hin : s.hostIn = c1 :: c2 :: more) : payloadByte s = .done b { s with hostIn := more } := by
  rw [payloadByte, hostHex, hin, readHex_spelled h]
  simp

/-- One round of `W`'s loop whose call completes: the payload byte is read and then sent (R159). -/
theorem writeRest_round {n : Nat} {s : State} {c1 c2 b : Byte} {more : List Byte} {c : List Bool} {rest : List Answer}
    (ht : s.txn = .writing) (h : Spells c1 c2 b) (hin : s.hostIn = c1 :: c2 :: more)
    (ha : s.answers = .completes c :: rest) :
    writeRest (n + 1) s = writeRest n (({ s with hostIn := more } : State).called (frameWN b) 0 c) := by
  have hsend := writeNext_completes (s := { s with hostIn := more }) b (State.mayRun_of_txn .writing ht rfl) ha
  rw [writeRest, payloadByte_spelled h hin, Res.andThen_done, hsend, Res.andThen_done]

/-- The first round of `W` where its call completes: the payload byte is read and opens the transaction (R159). -/
theorem cmdWriteSome_round {a : Word} {n : Nat} {s : State} {c1 c2 b : Byte} {more : List Byte} {c : List Bool}
    {rest : List Answer} (ho : s.mayOpen) (h : Spells c1 c2 b) (hin : s.hostIn = c1 :: c2 :: more)
    (ha : s.answers = .completes c :: rest) :
    cmdWriteSome a n s =
      (writeRest (n - 1) ((({ s with hostIn := more } : State).called (frameWF a b) 0 c).setTxn .writing)).andThen
        fun _ t => (finishWriting t).andThen fun _ t => .done () (t.emitStatus charS) := by
  have hsend := writeFirst_completes (s := { s with hostIn := more }) a b (State.mayOpen.writeFirst ho) ha
  rw [cmdWriteSome, payloadByte_spelled h hin, Res.andThen_done, hsend, Res.andThen_done]

theorem Res.andThen_stops {α β : Type} {r : Res α} {f : α → State → Res β} {e : Stop} (h : ∃ u, r = .stopped e u) :
    ∃ u, r.andThen f = .stopped e u := h.imp fun u hu => by rw [hu, Res.andThen_stopped]

/-- The host stream holds a payload and then, at most one digit later, a byte that is no digit; the calls of the payload
complete. -/
structure BadDigitBehind (payload : List ((Byte × Byte) × Byte)) (bad : Byte) (s : State) : Prop where
  spelled : SpelledPayload payload
  noDigit : hexValue bad = none
  stream : ∃ first more, (first = [] ∨ ∃ c v, first = [c] ∧ hexValue c = some v) ∧
    s.hostIn = payloadText payload ++ first ++ bad :: more
  answers : ∃ cs rest, cs.length = payload.length ∧ s.answers = completing cs ++ rest

namespace BadDigitBehind

variable {payload : List ((Byte × Byte) × Byte)} {p : (Byte × Byte) × Byte} {bad : Byte} {s : State}

/-- Where no payload byte is left the byte stands as either digit of the next one (R73). -/
theorem payloadByte_eq (h : BadDigitBehind [] bad s) : payloadByte s = .stopped (.badDigit bad) s := by
  obtain ⟨first, more, hfirst, hin⟩ := h.stream
  have hread : readHex 2 s.hostIn = .bad bad := by
    rw [hin]
    rcases hfirst with rfl | ⟨c, v, rfl, hc⟩
    · exact hexFrom_bad (digits := []) (by simp) (by simp) h.noDigit
    · exact hexFrom_bad (digits := [c]) (by simp [hc]) (by simp) h.noDigit
  rw [payloadByte, hostHex, hread]
  rfl

/-- Where a payload byte is left, it can be read and its call completes, and the rest is as before. -/
theorem uncons (h : BadDigitBehind (p :: payload) bad s) : ∃ more c rest, Spells p.1.1 p.1.2 p.2 ∧
    s.hostIn = p.1.1 :: p.1.2 :: more ∧ s.answers = .completes c :: rest ∧
    ∀ t : State, t.hostIn = more → t.answers = rest → BadDigitBehind payload bad t := by
  obtain ⟨first, more, hfirst, hin⟩ := h.stream
  obtain ⟨cs, rest, hcs, ha⟩ := h.answers
  obtain ⟨c, cs, rfl⟩ := List.exists_cons_of_length_eq_add_one hcs
  obtain ⟨hspelled, hpayload⟩ : Spells p.1.1 p.1.2 p.2 ∧ SpelledPayload payload := List.forall_mem_cons.mp h.spelled
  exact ⟨_, c, _, hspelled, hin, ha, fun t hint hat =>
    ⟨hpayload, h.noDigit, ⟨first, more, hfirst, hint⟩, ⟨cs, rest, Nat.succ.inj hcs, hat⟩⟩⟩

/-- `W`'s loop sends the payload and is stopped by the byte behind it (R73, R159). -/
theorem writeRest_stops {n : Nat} (h : BadDigitBehind payload bad s) (ht : s.txn = .writing)
    (hn : payload.length < n) : ∃ u, writeRest n s = .stopped (.badDigit bad) u := by
  obtain ⟨n, rfl⟩ := Nat.exists_eq_add_one_of_ne_zero (Nat.ne_zero_of_lt hn)
  induction payload generalizing n s with
  | nil => exact ⟨s, by rw [writeRest, h.payloadByte_eq, Res.andThen_stopped]⟩
  | cons p payload ih =>
    obtain ⟨more, c, rest, hspelled, hin, ha, hrest⟩ := h.uncons
    have hlt : payload.length < n := Nat.lt_of_succ_lt_succ hn
    obtain ⟨n, rfl⟩ := Nat.exists_eq_add_one_of_ne_zero (Nat.ne_zero_of_lt hlt)
    rw [writeRest_round ht hspelled hin ha]
    refine ih (hrest _ ?_ ?_) ?_ n hlt
    · rfl
    · exact congrArg List.tail ha
    · exact ht

theorem cmdWrite_stops (a : Word) {n : Word} (h : BadDigitBehind payload bad s) (ho : s.mayOpen)
    (hn : payload.length < n.toNat) : ∃ u, cmdWrite a n s = .stopped (.badDigit bad) u := by
  have hne : n ≠ 0 := by
    rintro rfl
    exact Nat.not_lt_zero _ hn
  rw [cmdWrite, if_neg hne]
  cases payload with
  | nil => exact ⟨s, by rw [cmdWriteSome, h.payloadByte_eq, Res.andThen_stopped]⟩
  | cons p payload =>
    obtain ⟨more, c, rest, hspelled, hin, ha, hrest⟩ := h.uncons
    rw [cmdWriteSome_round ho hspelled hin ha]
    exact Res.andThen_stops (writeRest_stops (hrest _ rfl (congrArg List.tail ha)) rfl (Nat.lt_sub_of_add_lt hn))

end BadDigitBehind

/-- Where the decoder meets a byte that is no digit, the step is refused (R73, R186). -/
theorem step_badDigit {s : State} {bad : Byte} (hb : s.blocked = .running) (hc : s.calls = [])
    (hd : decode s.hostIn = .badDigit bad) : step s = .refused (.hostArgumentError bad) := by
  simp only [step, hb, fetch, hc, fetchCommand, hd]

/-! ### What an operation leaves where it does not hang (R110 to R160) -/

/-- How an operation ends: stopped in a state that `stops` allows, or returned with `post`. -/
def Res.Ends {α : Type} (stops : Stop → State → Prop) (post : α → State → Prop) : Res α → Prop
  | .done a t => post a t
  | .stopped e t => stops e t

/-- Stopped in a state that takes no further step (R181, R150). -/
def Hangs (_ : Stop) (t : State) : Prop := t.blocked ≠ .running

/-- Stopped so, or by a host byte that is no digit, which is refused (R186). -/
def HangsOrBadDigit (e : Stop) (t : State) : Prop := t.blocked ≠ .running ∨ ∃ b, e = .badDigit b

namespace Res.Ends

variable {α β : Type} {stops : Stop → State → Prop} {post : α → State → Prop} {r : Res α}

theorem andThen {post' : β → State → Prop} {f : α → State → Res β} (h : r.Ends stops post)
    (hf : ∀ a t, post a t → (f a t).Ends stops post') : (r.andThen f).Ends stops post' := by
  cases r with
  | done a t => exact hf a t h
  | stopped e t => exact h

theorem imp {post' : α → State → Prop} (h : r.Ends stops post) (hp : ∀ a t, post a t → post' a t) :
    r.Ends stops post' := by
  cases r with
  | done a t => exact hp a t h
  | stopped e t => exact h

theorem orBadDigit (h : r.Ends Hangs post) : r.Ends HangsOrBadDigit post := by
  cases r with
  | done a t => exact h
  | stopped e t => exact .inl h

theorem of_running (h : r.Ends Hangs post) (hb : r.state.blocked = .running) : ∃ a, post a r.state := by
  cases r with
  | done a t => exact ⟨a, h⟩
  | stopped e t => exact absurd hb h

/-- A primitive that R110 lets run stops in a hung call only. -/
theorem of_primitive {op : Primitive} {s : State} (hmay : s.mayRun op = true)
    (hstop : ∀ e u, r = .stopped e u → PrimitiveStop op s u) (hdone : ∀ a t, r = .done a t → post a t) :
    r.Ends Hangs post := by
  cases r with
  | done a t => exact hdone a t rfl
  | stopped e t =>
    rcases hstop e t rfl with hhung | ⟨hrefused, -⟩
    · exact fun hb => by rw [hhung] at hb; cases hb
    · rw [hmay] at hrefused; cases hrefused

theorem of_outcome {r : Res Unit} {post : Unit → State → Prop} {t : State} (h : r.Ends HangsOrBadDigit post)
    (hx : r.outcome = .next t) (hb : t.blocked = .running) : post () t := by
  obtain rfl := Res.outcome_next hx
  cases r with
  | done a t => exact h
  | stopped e t =>
    rcases h with hhangs | ⟨b, rfl⟩
    · exact absurd hb hhangs
    · cases hx

end Res.Ends

section primitives

variable {s : State}

theorem readFirst_ends (a : Word) (h : s.mayRun .readFirst = true) :
    (readFirst a s).Ends Hangs fun _ t => s.KeptByL1 t ∧ t.txn = .reading :=
  .of_primitive h (fun _ _ => readFirst_stopped) fun _ _ => readFirst_kept

theorem readNext_ends (h : s.txn = .reading) :
    (readNext s).Ends Hangs fun _ t => s.KeptByL1 t ∧ t.txn = .reading :=
  .of_primitive (s.mayRun_of_txn .reading h rfl) (fun _ _ => readNext_stopped) fun _ _ hr =>
    (readNext_kept hr).imp_right (·.trans h)

theorem finishReading_ends (h : s.txn = .reading) :
    (finishReading s).Ends Hangs fun _ t => s.KeptByL1 t ∧ t.txn = .closed :=
  .of_primitive (s.mayRun_of_txn .reading h rfl) (fun _ _ => finishReading_stopped) fun _ _ => finishReading_kept

theorem writeFirst_ends (a : Word) (v : Byte) (h : s.mayRun .writeFirst = true) :
    (writeFirst a v s).Ends Hangs fun _ t => s.KeptByL1 t ∧ t.txn = .writing :=
  .of_primitive h (fun _ _ => writeFirst_stopped) fun _ _ => writeFirst_kept

theorem writeNext_ends (v : Byte) (h : s.txn = .writing) :
    (writeNext v s).Ends Hangs fun _ t => s.KeptByL1 t ∧ t.txn = .writing :=
  .of_primitive (s.mayRun_of_txn .writing h rfl) (fun _ _ => writeNext_stopped) fun _ _ hr =>
    (writeNext_kept hr).imp_right (·.trans h)

theorem finishWriting_ends (h : s.txn = .writing) :
    (finishWriting s).Ends Hangs fun _ t => s.KeptByL1 t ∧ t.txn = .closed :=
  .of_primitive (s.mayRun_of_txn .writing h rfl) (fun _ _ => finishWriting_stopped) fun _ _ => finishWriting_kept

end primitives

/-- An operation behind calls that kept the state keeps it from the first one on. -/
theorem Res.Ends.kept {α : Type} {stops : Stop → State → Prop} {s t : State} {r : Res α} {x : Txn}
    (h : r.Ends stops fun _ u => t.KeptByL1 u ∧ u.txn = x) (hk : s.KeptByL1 t) :
    r.Ends stops fun _ u => s.KeptByL1 u ∧ u.txn = x := h.imp fun _ _ hu => hu.imp_left hk.trans

section composites

variable {s : State}

theorem readSingleWord_ends (a : Word) (h : s.mayOpen) :
    (readSingleWord a s).Ends Hangs fun _ t => s.KeptByL1 t ∧ t.txn = .closed :=
  (readFirst_ends a h.readFirst).andThen fun _ _ ⟨hk, ht⟩ =>
    ((readNext_ends ht).kept hk).andThen fun _ _ ⟨hk, ht⟩ =>
      ((finishReading_ends ht).kept hk).andThen fun _ _ hu => hu

theorem writeSingleByte_ends (a : Word) (v : Byte) (h : s.mayOpen) :
    (writeSingleByte a v s).Ends Hangs fun _ t => s.KeptByL1 t ∧ t.txn = .closed :=
  (writeFirst_ends a v h.writeFirst).andThen fun _ _ ⟨hk, ht⟩ => (finishWriting_ends ht).kept hk

theorem writeSingleQuad_ends (a : Word) (v : Quad) (h : s.mayOpen) :
    (writeSingleQuad a v s).Ends Hangs fun _ t => s.KeptByL1 t ∧ t.txn = .closed :=
  (writeFirst_ends a _ h.writeFirst).andThen fun _ _ ⟨hk, ht⟩ =>
    ((writeNext_ends _ ht).kept hk).andThen fun _ _ ⟨hk, ht⟩ =>
      ((writeNext_ends _ ht).kept hk).andThen fun _ _ ⟨hk, ht⟩ =>
        ((writeNext_ends _ ht).kept hk).andThen fun _ _ ⟨hk, ht⟩ => (finishWriting_ends ht).kept hk

end composites

/-! ### The initializer (R140 to R146) -/

/-- What an `init` that comes to its end leaves: no reply, `conn` by its result, and its last transaction closed. -/
def InitEnds (s : State) (success : Bool) (t : State) : Prop :=
  t.hostOut = s.hostOut ∧ t.conn = (if success then .connected else .disconnected) ∧ t.txn = .closed

theorem onMatch_ends {s : State} (d : Nat) (h : s.mayOpen) : (onMatch d s).Ends Hangs (InitEnds s) :=
  (writeSingleByte_ends _ _ h).andThen fun _ t ⟨hk, ht⟩ =>
    (writeSingleQuad_ends (s := t.setConn .connected) _ _ (State.mayOpen_of_txn ht)).andThen fun _ _ ⟨hk', ht'⟩ =>
      ⟨hk'.hostOut.trans hk.hostOut, hk'.conn, ht'⟩

theorem scan_ends {s : State} (ds : List Nat) (h : s.txn = .closed) : (scan ds s).Ends Hangs (InitEnds s) := by
  induction ds generalizing s with
  | nil => exact ⟨rfl, rfl, h⟩
  | cons d ds ih =>
    refine (writeSingleByte_ends _ _ (State.mayOpen_of_txn h)).andThen fun _ t ⟨hk, ht⟩ => ?_
    refine ((readSingleWord_ends _ (State.mayOpen_of_txn ht)).kept hk).andThen fun id u ⟨hk, hu⟩ => ?_
    have hinit : (if id = Config.idExpect then onMatch d u else scan ds u).Ends Hangs (InitEnds u) := by
      split
      · exact onMatch_ends d (State.mayOpen_of_txn hu)
      · exact ih hu
    exact hinit.imp fun _ _ hw => hw.imp_left (·.trans hk.hostOut)

theorem initTarget_ends {s : State} (h : s.mayOpen) : (initTarget s).Ends Hangs (InitEnds s) :=
  (writeSingleByte_ends (s := (resetPulse s).setConn .resetting) _ _ h).andThen fun _ t ⟨hk, ht⟩ =>
    (scan_ends (s := t.setConn .scanningSpeed) _ ht).imp fun _ _ hw => hw.imp_left (·.trans hk.hostOut)

/-! ### Reply lines (R74, R75) -/

theorem State.emitStatus_hostOut (s : State) (c : Byte) : (s.emitStatus c).hostOut = s.hostOut ++ [.text [c], .eol] := by
  simp [State.emitStatus]

theorem State.emitDiag_hostOut (s : State) (c : DiagContext) : (s.emitDiag c).hostOut = s.hostOut ++ [.diag c, .eol] := by
  simp [State.emitDiag]

/-- The puts of the payload bytes a block read prints (R158). -/
def bytePuts (bytes : List Byte) : List Put := bytes.map fun b => .text (lowerPair b)

theorem linesFrom_bytePuts (bytes : List Byte) (line : List Byte) (isDiag : Bool) (ps : List Put) :
    linesFrom line isDiag (bytePuts bytes ++ ps) = linesFrom (line ++ bytes.flatMap lowerPair) isDiag ps := by
  induction bytes generalizing line with
  | nil => simp [bytePuts]
  | cons b bytes ih =>
    change linesFrom (line ++ lowerPair b) isDiag (bytePuts bytes ++ ps) = _
    rw [ih, List.flatMap_cons, List.append_assoc]

theorem replyLines_payload (bytes : List Byte) :
    replyLines (bytePuts bytes ++ [.eol, .text lineS, .eol]) = [bytes.flatMap lowerPair, lineS] := by
  rw [replyLines, linesFrom_bytePuts]
  rfl

/-! ### The commands that call (R155, R157 to R159) -/

theorem cmdInit_ends {s : State} (h : s.mayOpen) : (cmdInit s).Ends Hangs fun _ t =>
    ∃ success : Bool, t.conn = (if success then .connected else .disconnected) ∧
      t.hostOut = s.hostOut ++ [.text (if success then lineS else lineE), .eol] :=
  (initTarget_ends h).andThen fun success t ⟨ho, hconn, _⟩ => by
    refine ⟨success, hconn, ?_⟩
    rw [State.emitStatus_hostOut, ho]
    cases success <;> rfl

theorem cmdShow_ends {s : State} (h : s.mayOpen) : (cmdShow s).Ends Hangs fun _ t =>
    ∃ id, t.hostOut = s.hostOut ++ [.diag (.identity id), .eol, .text lineS, .eol] :=
  (readSingleWord_ends _ h).andThen fun id t ⟨hk, _⟩ => by
    refine ⟨id, ?_⟩
    rw [State.emitStatus_hostOut, State.emitDiag_hostOut, hk.hostOut, List.append_assoc]
    rfl

theorem readRest_ends {s : State} (n : Nat) (h : s.txn = .reading) : (readRest n s).Ends Hangs fun _ t =>
    t.txn = .reading ∧ ∃ bytes, bytes.length = n ∧ t.hostOut = s.hostOut ++ bytePuts bytes := by
  induction n generalizing s with
  | zero => exact ⟨h, [], rfl, (List.append_nil _).symm⟩
  | succ n ih =>
    refine (readNext_ends h).andThen fun v t ⟨hk, ht⟩ => ?_
    refine (ih (s := t.put (.text (hex2 v))) ht).imp fun _ u ⟨hu, bytes, hl, ho⟩ => ⟨hu, v :: bytes, by simp [hl], ?_⟩
    rw [ho, State.put_hostOut, hk.hostOut, hex2_eq_lowerPair, List.append_assoc]
    rfl

theorem cmdReadSome_ends {s : State} (a : Word) {n : Nat} (hn : n ≠ 0) (h : s.mayOpen) :
    (cmdReadSome a n s).Ends Hangs fun _ t =>
      ∃ bytes, bytes.length = n ∧ t.hostOut = s.hostOut ++ (bytePuts bytes ++ [.eol, .text lineS, .eol]) := by
  refine (readFirst_ends a h.readFirst).andThen fun v t ⟨hk, ht⟩ => ?_
  refine (readRest_ends (s := t.put (.text (hex2 v))) (n - 1) ht).andThen fun _ u ⟨hu, bytes, hl, ho⟩ => ?_
  refine (finishReading_ends hu).andThen fun _ w ⟨hk', _⟩ => ⟨v :: bytes, ?_, ?_⟩
  · rw [List.length_cons, hl, Nat.sub_add_cancel (Nat.pos_of_ne_zero hn)]
  · rw [State.emitStatus_hostOut, State.put_hostOut, hk'.hostOut, ho, State.put_hostOut, hk.hostOut, hex2_eq_lowerPair]
    simp only [List.append_assoc]
    rfl

theorem payloadByte_ends (s : State) : (payloadByte s).Ends HangsOrBadDigit fun _ t =>
    t.hostOut = s.hostOut ∧ t.txn = s.txn ∧ t.params = s.params := by
  rw [payloadByte, hostHex]
  cases readHex 2 s.hostIn with
  | value v rest => exact ⟨rfl, rfl, rfl⟩
  | dry => exact .inl nofun
  | bad b => exact .inr ⟨b, rfl⟩

theorem writeRest_ends {s : State} (n : Nat) (h : s.txn = .writing) : (writeRest n s).Ends HangsOrBadDigit fun _ t =>
    t.txn = .writing ∧ t.hostOut = s.hostOut := by
  induction n generalizing s with
  | zero => exact ⟨h, rfl⟩
  | succ n ih =>
    refine (payloadByte_ends s).andThen fun v t ⟨ho, ht, _⟩ => ?_
    refine (writeNext_ends v (ht.trans h)).orBadDigit.andThen fun _ u ⟨hk, hu⟩ => ?_
    exact (ih hu).imp fun _ _ hw => hw.imp_right (·.trans (hk.hostOut.trans ho))

theorem cmdWrite_ends {s : State} (a n : Word) (h : s.mayOpen) : (cmdWrite a n s).Ends HangsOrBadDigit fun _ t =>
    t.hostOut = s.hostOut ++ [.text lineS, .eol] := by
  rw [cmdWrite]
  split
  · exact s.emitStatus_hostOut charS
  · refine (payloadByte_ends s).andThen fun v t ⟨ho, ht, hp⟩ => ?_
    have hopen : t.mayOpen := fun he => by rw [ht]; exact h (hp ▸ he)
    refine (writeFirst_ends a v hopen.writeFirst).orBadDigit.andThen fun _ u ⟨hk, hu⟩ => ?_
    refine (writeRest_ends _ hu).andThen fun _ w ⟨hw, ho'⟩ => ?_
    refine (finishWriting_ends hw).orBadDigit.andThen fun _ x ⟨hk', _⟩ => ?_
    change (x.emitStatus charS).hostOut = _
    rw [State.emitStatus_hostOut, hk'.hostOut, ho', hk.hostOut, ho]
    rfl

theorem State.mayOpen_of_dispatcherInvariant {s : State} (h : s.dispatcherInvariant = true)
    (hb : s.blocked = .running) : s.mayOpen := by
  simp only [State.dispatcherInvariant, State.atCommandBoundary, hb, Bool.and_eq_true, Bool.or_eq_true, beq_iff_eq,
    bne_self_eq_false, Bool.false_eq_true, false_or] at h
  obtain ⟨-, htxn, -⟩ := h
  exact fun _ => htxn

end Machine
end Sys2Proof

/-! ### The obligations -/

open Sys2Proof Sys2Proof.Machine

/-- Settles O6: the eight pairs shift their bits in, the last one decided from the runs it has. -/
theorem decodeByteComparesRunLengths : Obligations.DecodeByteComparesRunLengths := by
  intro s high runs tail hl hlow hhigh hlast htail hbits
  have hruns : RunsThenTail runs tail := ⟨hlow, hhigh, hlast, htail⟩
  refine execDecodeByte_eq ?_
  rw [hbits]
  exact hruns.decodeBits_eq hl s.params.truncPolicy high

/-- Settles O26: each primitive that returns when called alone comes to the same end inside the composite. -/
theorem compositesAreTheirExpansions : Obligations.CompositesAreTheirExpansions := by
  refine ⟨?_, ?_, ?_, ?_, ?_⟩
  · intro s t w a lo hx1 hb1 hr1 hx2 hb2 hr2
    obtain ⟨s1, h1, rfl⟩ := readFirst_of_returned (.refl s) hx1 hb1 hr1
    obtain ⟨s2, h2, rfl⟩ := finishReading_of_returned ⟨_, rfl⟩ hx2 hb2 hr2
    simp only [exec, execReadSingleByte, readSingleByte, h1, h2, Res.andThen_done, Res.report_done]
    rfl
  · intro s t u w a lo hi hx1 hb1 hr1 hx2 hb2 hr2 hx3 hb3 hr3
    obtain ⟨s1, h1, rfl⟩ := readFirst_of_returned (.refl s) hx1 hb1 hr1
    obtain ⟨s2, h2, rfl⟩ := readNext_of_returned ⟨_, rfl⟩ hx2 hb2 hr2
    obtain ⟨s3, h3, rfl⟩ := finishReading_of_returned ⟨_, rfl⟩ hx3 hb3 hr3
    simp only [exec, execReadSingleWord, readSingleWord, h1, h2, h3, Res.andThen_done, Res.report_done, wordOfBytes_eq]
    rfl
  · intro s t w a v hx1 hb1 hr1 hx2 hb2 hr2
    obtain ⟨s1, h1, rfl⟩ := writeFirst_of_returned (.refl s) hx1 hb1 hr1
    obtain ⟨s2, h2, rfl⟩ := finishWriting_of_returned ⟨_, rfl⟩ hx2 hb2 hr2
    simp only [exec, execWriteSingleByte, writeSingleByte, h1, h2, Res.andThen_done, Res.report_done]
  · intro s t u w a v hx1 hb1 hr1 hx2 hb2 hr2 hx3 hb3 hr3
    obtain ⟨s1, h1, rfl⟩ := writeFirst_of_returned (.refl s) hx1 hb1 hr1
    obtain ⟨s2, h2, rfl⟩ := writeNext_of_returned ⟨_, rfl⟩ hx2 hb2 hr2
    obtain ⟨s3, h3, rfl⟩ := finishWriting_of_returned ⟨_, rfl⟩ hx3 hb3 hr3
    simp only [exec, execWriteSingleWord, writeSingleWord, lowByte, highByte, h1, h2, h3, Res.andThen_done,
      Res.report_done]
  · intro s t u x y w a v hx1 hb1 hr1 hx2 hb2 hr2 hx3 hb3 hr3 hx4 hb4 hr4 hx5 hb5 hr5
    obtain ⟨s1, h1, rfl⟩ := writeFirst_of_returned (.refl s) hx1 hb1 hr1
    obtain ⟨s2, h2, rfl⟩ := writeNext_of_returned ⟨_, rfl⟩ hx2 hb2 hr2
    obtain ⟨s3, h3, rfl⟩ := writeNext_of_returned ⟨_, rfl⟩ hx3 hb3 hr3
    obtain ⟨s4, h4, rfl⟩ := writeNext_of_returned ⟨_, rfl⟩ hx4 hb4 hr4
    obtain ⟨s5, h5, rfl⟩ := finishWriting_of_returned ⟨_, rfl⟩ hx5 hb5 hr5
    simp only [exec, execWriteSingleQuad, writeSingleQuad, quadByte, Nat.mul_zero, Nat.mul_one, Nat.reduceMul, h1, h2, h3,
      h4, h5, Res.andThen_done, Res.report_done]

/-- Settles O37: the byte stops the decoder in a command's fields, and `W` in its payload. -/
theorem badDigitIsRefused : Obligations.BadDigitIsRefused := by
  refine ⟨?_, ?_⟩
  · intro s verb digits bad more hb hc hfields hbad hin
    exact step_badDigit hb hc (hin ▸ decode_badDigit hfields hbad)
  · intro s a n payload first bad more cs rest ho hn hp hfirst hbad hin hcs ha
    have hbehind : BadDigitBehind payload bad s := ⟨hp, hbad, ⟨first, more, hfirst, hin⟩, ⟨cs, rest, hcs, ha⟩⟩
    obtain ⟨u, hu⟩ := hbehind.cmdWrite_stops a ho hn
    simp only [exec, execCmdWrite, hu, Res.outcome]

/-- Settles O39: `hexFrom_digits` from the value 0. -/
theorem hexFieldIsMostSignificantFirst : Obligations.HexFieldIsMostSignificantFirst := by
  intro cs ds rest h
  simpa [readHex] using hexFrom_digits h 0 rest

/-- Settles O41: by the verb, with what its fields take. -/
theorem decodeTakesExactlyTheCommand : Obligations.DecodeTakesExactlyTheCommand := by
  intro stream rest i h
  cases stream with
  | nil => cases h
  | cons verb args =>
    simp only [decode] at h
    split_ifs at h with hi hr hs hR hW
    · cases h
      exact ⟨verb, [], rfl, rfl, rfl, rfl⟩
    · obtain ⟨flag, v, left, hl, rfl, hmade⟩ := HexRead.next_takes h
      cases hmade
      exact ⟨verb, flag, rfl, rfl, rfl, by rw [hl]⟩
    · cases h
      exact ⟨verb, [], rfl, rfl, rfl, rfl⟩
    · obtain ⟨fields, a, n, hl, rfl, rfl⟩ := decodeBlock_takes h
      exact ⟨verb, fields, rfl, rfl, rfl, by rw [hl]⟩
    · obtain ⟨fields, a, n, hl, rfl, rfl⟩ := decodeBlock_takes h
      exact ⟨verb, fields, rfl, rfl, rfl, by rw [hl]⟩
    · cases h
      exact ⟨verb, [], rfl, rfl, (Instr.wellFormed_cmdOther_iff verb).mpr ⟨hR, hW, hi, hr, hs⟩, rfl⟩

/-- Settles O42: a written field reads back as its value, whatever follows. -/
theorem hostCommandDecodesInFrontOfAnything : Obligations.HostCommandDecodesInFrontOfAnything := by
  intro i bytes rest hwf henc
  cases i with
  | cmdInit => cases henc; rfl
  | cmdShow => cases henc; rfl
  | cmdReset f =>
    cases henc
    rw [List.cons_append, decode_r, readHex_hexField 1 _ _ f.isLt]
    simp [HexRead.next]
  | cmdRead a n =>
    cases henc
    rw [blockBytes, List.cons_append, decode_R, List.append_assoc, decodeBlock_digits]
  | cmdWrite a n =>
    cases henc
    rw [blockBytes, List.cons_append, decode_W, List.append_assoc, decodeBlock_digits]
  | cmdOther verb =>
    cases henc
    exact decode_cmdOther hwf rest
  | _ => cases henc

/-- Settles O59: at a command boundary a command that does not hang comes to its last line. -/
theorem everyFinishedCommandReplies : Obligations.EveryFinishedCommandReplies := by
  intro i s t hinv hb hhost hx hbt
  have hopen : s.mayOpen := State.mayOpen_of_dispatcherInvariant hinv hb
  cases i with
  | cmdInit =>
    cases hx
    obtain ⟨_, success, hconn, ho⟩ := (cmdInit_ends hopen).of_running hbt
    refine ⟨_, ho, ?_⟩
    cases success with
    | true => exact .inl ⟨hconn, rfl⟩
    | false => exact .inr ⟨hconn, rfl⟩
  | cmdReset flag =>
    cases hx
    refine ⟨[.text lineS, .eol], ?_, rfl⟩
    rw [cmdReset]
    split <;> exact State.emitStatus_hostOut _ _
  | cmdShow =>
    cases hx
    obtain ⟨_, id, ho⟩ := (cmdShow_ends hopen).of_running hbt
    exact ⟨_, ho, rfl⟩
  | cmdRead a n =>
    cases hx
    by_cases hn : n = 0
    · subst hn
      exact ⟨_, s.emitStatus_hostOut charS, rfl⟩
    · rw [cmdRead, if_neg hn] at hbt ⊢
      obtain ⟨_, bytes, hl, ho⟩ := (cmdReadSome_ends a (fun h0 => hn (BitVec.eq_of_toNat_eq h0)) hopen).of_running hbt
      refine ⟨_, ho, ?_⟩
      simp only [if_neg hn]
      exact ⟨bytes, hl, replyLines_payload bytes⟩
  | cmdWrite a n => exact ⟨_, (cmdWrite_ends a n hopen).of_outcome hx hbt, rfl⟩
  | cmdOther verb =>
    cases hx
    refine ⟨[.text lineQuestion, .eol, .diag (.unrecognized verb), .eol], ?_, rfl⟩
    rw [cmdOther, State.emitDiag_hostOut, State.emitStatus_hostOut, List.append_assoc]
    rfl
  | _ => cases hhost

/-- Settles O2: the encodings are these bits by definition. -/
theorem encodingsAreSymbolsMostSignificantFirst : Obligations.EncodingsAreSymbolsMostSignificantFirst :=
  ⟨rfl, rfl, fun _ => rfl, fun b => ⟨byteBits b, rfl, byteBits_length b, rfl⟩, fun _ => rfl, fun _ => rfl, fun _ => rfl⟩

/-- Settles O40: the three ranges of digits are disjoint, so their order in `hexValue` does not matter. -/
theorem hexDigitsInBothCases : Obligations.HexDigitsInBothCases := by
  refine ⟨fun c => ?_, fun n hn => ?_, hex2_eq_lowerPair⟩
  · unfold hexValue
    split_ifs <;> grind
  · unfold hexDigit
    split_ifs <;> simp only [BitVec.toNat_ofNat] <;> omega

/-- Settles O44: by running the decoder. -/
theorem sampleWordsDecode : Obligations.SampleWordsDecode := ⟨rfl, rfl, rfl, rfl, rfl, rfl, rfl⟩

/-- Settles O60: every marked byte of a frame is a row of symbols. -/
theorem framesAreSpelledInSymbols : Obligations.FramesAreSpelledInSymbols := by
  unfold Obligations.FramesAreSpelledInSymbols
  intro baked start high low value
  have hbaked (bits : List Bool) : baked bits = bits.flatMap symbolBits :=
    congrArg (bits.flatMap ·) (funext fun b => (symbolBits_eq_ite b).symm)
  simp only [hbaked]
  refine ⟨fun a => ?_, rfl, rfl, fun a v => ?_, fun v => ?_, fun _ => rfl, rfl, rfl, rfl, fun _ _ => rfl, fun _ => rfl⟩
  · simp only [frameRF, dataWordBits, markedBits_eq_symbols, ← List.flatMap_append, msbFirst_highByte, msbFirst_lowByte]
    rfl
  · simp only [frameWF, dataWordBits, markedBits_eq_symbols, ← List.flatMap_append, msbFirst_highByte, msbFirst_lowByte]
    rfl
  · rw [frameWN, markedBits_eq_symbols]
    rfl

end

section
/-! PROOFS. The statements about the line encoder (40_line_encoder.md): what a write stores, and the runs of symbols. -/

namespace Sys2Proof.Machine

/-! ### Every line-encoder write appends its encoding (R80 to R87) -/

/-- How many raw bits a format of the L0 rows has (R51 to R54). -/
def formatLength : LineFormat → Nat
  | .rawBit => 1
  | .symbol => 5
  | .byte => 45
  | .markedByte => 50
  | .dataWord => 100

theorem length_of_encode_line {i : Instr} {f : LineFormat} {bits : List Bool} (h : encode i = .line f bits) :
    bits.length = formatLength f := by
  cases i with
  | writeRawBit b => cases h; rfl
  | writeBakedOne => cases h; rfl
  | writeBakedZero => cases h; rfl
  | writeByte b => cases h; exact byteBits_length b
  | writeCmdByte b => cases h; exact markedBits_length _ b
  | writeDataByte b => cases h; exact markedBits_length _ b
  | writeDataWord w => cases h; exact dataWordBits_length w
  | _ => cases h

/-- An L0 operation with an encoding is a run of raw-bit writes of that encoding (R87). -/
theorem exec_of_encode_line {i : Instr} {f : LineFormat} {bits : List Bool} (h : encode i = .line f bits) (s : State) :
    exec i s = .next ((appendBits bits s).returns .done) := by
  cases i with
  | writeRawBit b => cases h; rfl
  | writeBakedOne => cases h; rw [← writeBakedBit_eq]; rfl
  | writeBakedZero => cases h; rw [← writeBakedBit_eq]; rfl
  | writeByte b => cases h; rw [← writeByte_eq]; rfl
  | writeCmdByte b => cases h; rw [← writeCmdByte_eq]; rfl
  | writeDataByte b => cases h; rw [← writeDataByte_eq]; rfl
  | writeDataWord w => cases h; rw [← writeDataWord_eq]; rfl
  | _ => cases h

/-! ### The raw bits of a sequence of symbols (R51, R88) -/

theorem symbolBits_first (b : Bool) : (symbolBits b)[0]? = some false := by cases b <;> rfl

theorem symbolBits_last (b : Bool) : (symbolBits b)[4]? = some true := by cases b <;> rfl

/-- Raw bit `k` of symbol `i` of a sequence. -/
theorem symbols_getElem? (bs : List Bool) (i : Nat) {k : Nat} (hk : k < 5) :
    (bs.flatMap symbolBits)[5 * i + k]? = bs[i]?.bind fun b => (symbolBits b)[k]? := by
  induction bs generalizing i with
  | nil => rfl
  | cons b bs ih =>
    rw [List.flatMap_cons]
    cases i with
    | zero => rw [List.getElem?_append_left (by rw [symbolBits_length]; omega)]; simp
    | succ i =>
      rw [List.getElem?_append_right (by rw [symbolBits_length]; omega), symbolBits_length, List.getElem?_cons_succ, ← ih i]
      congr 1
      omega

/-- Every symbol of a sequence starts low. -/
theorem symbols_first {bs : List Bool} {i : Nat} (hi : i < bs.length) :
    (bs.flatMap symbolBits)[5 * i]? = some false := by
  have h := symbols_getElem? bs i (k := 0) (by decide)
  rwa [List.getElem?_eq_getElem hi, Option.bind_some, symbolBits_first] at h

/-- Every symbol of a sequence ends high. -/
theorem symbols_last {bs : List Bool} {i : Nat} (hi : i < bs.length) :
    (bs.flatMap symbolBits)[5 * i + 4]? = some true := by
  rw [symbols_getElem? bs i (by decide), List.getElem?_eq_getElem hi, Option.bind_some, symbolBits_last]

theorem symbols_length (bs : List Bool) : (bs.flatMap symbolBits).length = 5 * bs.length := by
  simp [List.length_flatMap, Nat.mul_comm]

/-- The bits inside a run between two lists have the run's level. -/
theorem getElem?_of_run (before after : List Bool) {n j : Nat} (level : Bool) (hlow : before.length ≤ j)
    (hhigh : j < before.length + n) : (before ++ List.replicate n level ++ after)[j]? = some level := by
  rw [List.append_assoc, List.getElem?_append_right hlow, List.getElem?_append_left (by rw [List.length_replicate]; omega),
    List.getElem?_replicate, if_pos (by omega)]

/-- Any five raw bits in a row of a sequence of symbols have the first bit of a symbol among them, which is low, and
the last bit of one, which is high. -/
theorem symbols_ne_run_of_five (bs : List Bool) (level : Bool) (before after : List Bool) :
    bs.flatMap symbolBits ≠ before ++ List.replicate 5 level ++ after := by
  intro h
  have hfit : before.length + 5 ≤ 5 * bs.length := by
    rw [← symbols_length, h, List.length_append, List.length_append, List.length_replicate]
    exact Nat.le_add_right _ _
  have hlow : some false = some level :=
    calc some false = (bs.flatMap symbolBits)[5 * ((before.length + 4) / 5)]? := (symbols_first (by omega)).symm
      _ = some level := by rw [h, getElem?_of_run _ _ _ (by omega) (by omega)]
  have hhigh : some true = some level :=
    calc some true = (bs.flatMap symbolBits)[5 * (before.length / 5) + 4]? := (symbols_last (by omega)).symm
      _ = some level := by rw [h, getElem?_of_run _ _ _ (by omega) (by omega)]
  cases hlow.trans hhigh.symm

end Sys2Proof.Machine

/-! ### The obligations -/

open Sys2Proof Sys2Proof.Machine

/-- Settles O1: the operation appends its encoding, and `appendBits` saturates at the capacity. -/
theorem lineOperationAppendsItsEncoding : Obligations.LineOperationAppendsItsEncoding := by
  intro i f bits s henc hcur
  refine ⟨length_of_encode_line henc, _, exec_of_encode_line henc s, ?_, ?_, ?_, ?_⟩
  · exact appendBits_outCur bits s hcur
  · exact appendBits_outBits bits s hcur
  · exact appendBits_keeps_above bits s hcur
  · exact congrArg (·.returns .done) (appendBits_frame bits s)

/-- Settles O5: the run lengths by the bit; five bits in a row meet both ends of a symbol. -/
theorem symbolRunsRecoverTheBitAndStayShort : Obligations.SymbolRunsRecoverTheBitAndStayShort :=
  ⟨by decide, symbols_ne_run_of_five⟩

/-- Settles O4: the meaning of `reset_out` writes the cursor and nothing else. -/
theorem resetOutClearsOnlyTheCursor : Obligations.ResetOutClearsOnlyTheCursor := fun _ => rfl

end

section
/-! PROOFS. The statements about the line decoder (41_line_decoder.md): the loopback of what the encoder writes,
captures that end early, silent and stuck lines, and what `decode_byte` writes. -/

namespace Sys2Proof.Machine

/-! ### Captures of symbols (R51, R93) -/

/-- `decode_byte` takes the first eight of a row of symbols, whatever stands behind the ninth (R93, R94). -/
theorem decodeBits_symbols {bs : List Bool} (hl : bs.length = 8) (policy : TruncPolicy) (high : Nat) (next : Bool)
    (more others : List Bool) :
    decodeBits policy (List.replicate high true ++ (bs ++ next :: more).flatMap symbolBits ++ others) =
      (ofMsbFirst bs, high + 40) := by
  have hpos : ∀ r ∈ bs.map symbolRuns, 0 < r.1 ∧ 0 < r.2 := by
    intro r hr
    obtain ⟨b, -, rfl⟩ := List.mem_map.mp hr
    exact symbolRuns_pos b
  have hlow : ((next :: more).flatMap symbolBits ++ others).head? ≠ some true := by cases next <;> exact nofun
  have hruns : RunsThenTail (bs.map symbolRuns) ((next :: more).flatMap symbolBits ++ others) :=
    ⟨fun r hr => (hpos r hr).1, fun r hr => (hpos r (List.mem_of_mem_dropLast hr)).2, .inr fun r hr => (hpos r hr).2,
      hlow⟩
  have hraw : ((bs.map symbolRuns).map fun r => r.1 + r.2).sum = 40 := by
    rw [← pairs_length, ← symbols_eq_pairs, symbols_length, hl]
  have hdecoded := hruns.decodeBits_eq (by rw [List.length_map, hl]) policy high
  rw [← symbols_eq_pairs, symbolRuns_bits, hraw] at hdecoded
  rw [List.flatMap_append, ← hdecoded]
  simp only [List.append_assoc]

/-- The byte format decodes to its byte: the framing symbol ends the eighth high-run (R93). -/
theorem decodeBits_byteBits (policy : TruncPolicy) (high : Nat) (b : Byte) (others : List Bool) :
    decodeBits policy (List.replicate high true ++ byteBits b ++ others) = (b, high + 40) := by
  have hsymbols : byteBits b = (msbFirst b ++ [false]).flatMap symbolBits := by simp [byteBits]
  rw [hsymbols, decodeBits_symbols rfl, ofMsbFirst_msbFirst]

/-- The marker shifted in ahead of a byte pushes the byte's last bit out. -/
theorem ofMsbFirst_marker_msbFirst (marker : Bool) (b : Byte) :
    ofMsbFirst (marker :: (msbFirst b).dropLast) = BitVec.ofBool marker ++ b.extractLsb' 1 7 := by
  revert marker b
  decide +kernel

/-- The decoder knows nothing of markers: it returns the marker and the byte's upper seven bits (R93, R94). -/
theorem decodeBits_markedBits (policy : TruncPolicy) (high : Nat) (marker : Bool) (b : Byte) (others : List Bool) :
    decodeBits policy (List.replicate high true ++ markedBits marker b ++ others) =
      (BitVec.ofBool marker ++ b.extractLsb' 1 7, high + 40) := by
  have hsymbols : markedBits marker b =
      (marker :: (msbFirst b).dropLast ++ b.getLsbD 0 :: [false]).flatMap symbolBits := markedBits_eq_symbols marker b
  rw [hsymbols, decodeBits_symbols rfl, ofMsbFirst_marker_msbFirst]

/-- `write_byte(b)` after `reset_out` leaves the byte format as the valid outbound bits (R86, R87). -/
theorem outBits_of_resetOut_writeByte {s t u : State} {b : Byte} (ht : exec .resetOut s = .next t)
    (hu : exec (.writeByte b) t = .next u) : u.outBits u.outCur = byteBits b := by
  have hempty : t.outCur = 0 := by cases ht; rfl
  have hroom : 45 ≤ Config.bufCap := by decide
  rw [exec_of_encode_line (i := .writeByte b) rfl] at hu
  cases hu
  change (appendBits (byteBits b) t).outBits (appendBits (byteBits b) t).outCur = byteBits b
  rw [appendBits_outBits _ _ (by rw [hempty]; exact Nat.zero_le _), hempty, Nat.sub_zero,
    List.take_of_length_le (by rwa [byteBits_length])]
  rfl

/-! ### Captures that end early (R92) -/

/-- Where fewer than eight pairs stand in a capture, the bits to go meet its end (R92). -/
theorem decodeBits_truncated {runs : List (Nat × Nat)} (h : RunsThenTail runs []) (hl : runs.length < 8)
    (policy : TruncPolicy) (high : Nat) :
    decodeBits policy (List.replicate high true ++ runs.flatMap pairBits) =
      ((decodeRuns policy (8 - runs.length) (ofMsbFirst (runs.map fun r => decide (r.1 > r.2))) []).1,
        high + (runs.map fun r => r.1 + r.2).sum) := by
  have hhead := h.head
  have hruns := h.decodeRuns_eq policy (8 - runs.length) 0
  have hleft := decodeRuns_length_le policy (8 - runs.length) (ofMsbFirst (runs.map fun r => decide (r.1 > r.2))) []
  rw [Nat.add_sub_cancel' hl.le, ← ofMsbFirst_eq_foldl] at hruns
  rw [List.append_nil] at hhead hruns
  rw [decodeBits, afterRun_replicate _ _ _ hhead, hruns, Nat.le_zero.mp hleft, Nat.sub_zero, List.length_append,
    List.length_replicate, pairs_length]

/-! ### What `decode_byte` writes (R14, R90) -/

theorem State.inBits_length_le (s : State) : s.inBits.length ≤ s.inLen := List.length_take_le _ _

theorem decodeBits_pos_le (policy : TruncPolicy) (bits : List Bool) : (decodeBits policy bits).2 ≤ bits.length :=
  Nat.sub_le _ _

end Sys2Proof.Machine

/-! ### The obligations -/

open Sys2Proof Sys2Proof.Machine

/-- Settles O7: the encoder writes symbols, and the decoder takes the first eight of them. -/
theorem loopbackReproducesEveryByte : Obligations.LoopbackReproducesEveryByte := by
  refine ⟨fun s t u b ht hu => ?_, fun s b high others hbits => ?_, fun s marker b high others hbits => ?_⟩
  · have hloop := decodeBits_byteBits u.params.truncPolicy 0 b []
    rw [List.replicate_zero, List.nil_append, List.append_nil, Nat.zero_add,
      ← outBits_of_resetOut_writeByte ht hu] at hloop
    exact execDecodeByte_eq (s := { u with inBuf := u.outBuf, inLen := u.outCur }) hloop
  · exact execDecodeByte_eq (hbits ▸ decodeBits_byteBits s.params.truncPolicy high b others)
  · exact execDecodeByte_eq (hbits ▸ decodeBits_markedBits s.params.truncPolicy high marker b others)

/-- Settles O8: the pairs shift their bits in; at the end of the capture EarlyReturn stops, and ZeroFill shifts zeros in
for the bits to go. -/
theorem truncatedDecodeFollowsThePolicy : Obligations.TruncatedDecodeFollowsThePolicy := by
  intro s high runs hl hlow hhigh hbits
  have hruns : RunsThenTail runs [] := ⟨hlow, hhigh, .inl rfl, nofun⟩
  refine execDecodeByte_eq ?_
  rw [hbits]
  refine (decodeBits_truncated hruns hl _ high).trans ?_
  cases s.params.truncPolicy with
  | earlyReturn => rw [decodeRuns_exhausted_early]
  | zeroFill => rw [decodeRuns_exhausted_fill]

/-- Settles O9: an all-high capture has no pair, an all-low one has one pair without its high-run. -/
theorem silentAndStuckLinesDecodeToFixedBytes : Obligations.SilentAndStuckLinesDecodeToFixedBytes := by
  refine ⟨fun s n hbits => ?_, fun s n hn hbits => ?_⟩
  · have hdecoded := truncatedDecodeFollowsThePolicy s n [] (by decide) nofun nofun (by simpa using hbits)
    rw [hdecoded]
    cases s.params.truncPolicy <;> rfl
  · have hdecoded := truncatedDecodeFollowsThePolicy s 0 [(n, 0)] (by simp) (by simpa using hn) nofun
      (by simpa using hbits)
    have hbit : decide (n > 0) = true := decide_eq_true hn
    rw [hdecoded]
    simp only [List.map_cons, List.map_nil, hbit, List.sum_cons, List.sum_nil, Nat.add_zero, Nat.zero_add]
    cases s.params.truncPolicy <;> rfl

/-- Settles O10: the meaning writes `in.pos` and the result, and no more bits are consumed than are valid. -/
theorem decodeByteAlwaysReturnsAByte : Obligations.DecodeByteAlwaysReturnsAByte := fun s =>
  ⟨_, decodedByte s, rfl, (decodeBits_pos_le _ _).trans s.inBits_length_le, rfl⟩

end

section
/-! PROOFS. The statements about the wire transport (42_wire_transport.md): what one call of `Transport` does, and which
frames every other operation sends. -/

namespace Sys2Proof.Machine

/-! ### A direct call (R100, R102) -/

/-- Inside its "requires", a direct Transport call is the call itself, reported. -/
theorem exec_transport_within {n m : Nat} {s : State} (hn : n ≤ s.outCur) (hcur : s.outCur ≤ Config.bufCap)
    (hm : m ≤ Config.bufCap) : exec (.transport n m) s = .next ((transport n m s).report fun _ => .done) :=
  if_pos ⟨hn, hcur, hm⟩

/-- A completed call refills the inbound buffer with the capture and is one event (R100, R105). -/
theorem transport_completes {s : State} {c : List Bool} (h : s.nextAnswer = .completes c) (n m : Nat) :
    transport n m s = .done () { s.drawAnswer with
      inBuf := storeFrom 0 (capture m c s.draws) s.inBuf
      inLen := m
      trace := s.trace ++ [.wire (s.outBits n) (capture m c s.draws)] } := by
  rw [transport, h]

/-- A call that never completes stops in a state that is blocked inside it (R102). -/
theorem transport_stalls {s : State} (h : s.nextAnswer = .stalls) (n m : Nat) :
    transport n m s = .stopped .stall { s.drawAnswer with blocked := .inTransport } := by
  rw [transport, h]

/-- Where the inbound buffer is a refilled one, its valid bits are the capture. -/
theorem inBits_of_storeFrom {s : State} {bits : List Bool} {buf : Vector Bool Config.bufCap}
    (hbuf : s.inBuf = storeFrom 0 bits buf) (hlen : s.inLen = bits.length) (hfits : bits.length ≤ Config.bufCap) :
    s.inBits = bits := by
  rw [State.inBits, hbuf, hlen, storeFrom_take bits buf hfits]

/-- A refill keeps the bits above the capture. -/
theorem storeFrom_getElem_above {bits : List Bool} (buf : Vector Bool Config.bufCap) {k : Nat} (hk : k < Config.bufCap)
    (habove : bits.length ≤ k) : (storeFrom 0 bits buf)[k] = buf[k] := by
  rw [storeFrom_getElem, if_neg (by omega)]

/-! ### What the other operations put on the wire (R62, R104) -/

/-- The trace gains events, and each that is a Transport call sends one of the five frames with its sizes. -/
def SendsOnlyFrames (s t : State) : Prop :=
  ∃ events, t.trace = s.trace ++ events ∧ ∀ e ∈ events, ProtocolEvent e

namespace SendsOnlyFrames

variable {s t u : State}

theorem of_trace_eq (h : t.trace = s.trace) : SendsOnlyFrames s t := ⟨[], by simp [h], nofun⟩

theorem of_event {e : Event} (h : t.trace = s.trace ++ [e]) (he : ProtocolEvent e) : SendsOnlyFrames s t :=
  ⟨[e], h, List.forall_mem_singleton.mpr he⟩

theorem trans (h : SendsOnlyFrames s t) (k : SendsOnlyFrames t u) : SendsOnlyFrames s u := by
  obtain ⟨es, hes, hframes⟩ := h
  obtain ⟨fs, hfs, kframes⟩ := k
  exact ⟨es ++ fs, by rw [hfs, hes, List.append_assoc], List.forall_mem_append.mpr ⟨hframes, kframes⟩⟩

/-- The outcome of a called operation: handing back its result is no event. -/
theorem of_reported {α : Type} {r : Res α} {f : α → Ret}
    (hx : (.next (r.report f) : Host.Outcome State Fault Refusal) = .next t) (h : SendsOnlyFrames s r.state) :
    SendsOnlyFrames s t := by
  cases hx
  cases r with
  | done a u => exact h.trans (.of_trace_eq rfl)
  | stopped e u => exact h

end SendsOnlyFrames

/-- No effect of an L1 operation, of the initializer or of a host command sends anything but the five frames. -/
theorem sendsOnlyFrames_effects : CommandEffects SendsOnlyFrames where
  refl _ := .of_trace_eq rfl
  trans := .trans
  called s f m c hcall := .of_event rfl <| by
    rw [ProtocolEvent, capture_length]
    exact hcall
  hung _ _ _ _ := .of_trace_eq rfl
  decoded _ := .of_trace_eq rfl
  txn _ _ := .of_trace_eq rfl
  rejected _ _ _ := .of_trace_eq rfl
  rst _ _ := .of_event rfl trivial
  delay _ _ := .of_event rfl trivial
  conn _ _ := .of_trace_eq rfl
  put _ _ := .of_trace_eq rfl
  hostIn _ _ _ _ := .of_trace_eq rfl
  dry _ := .of_trace_eq rfl

/-- A line-encoder write only fills the outbound buffer: it sends nothing (R80 to R85). -/
theorem sendsOnlyFrames_of_encode_line {i : Instr} {f : LineFormat} {bits : List Bool} {s t : State}
    (h : encode i = .line f bits) (hx : exec i s = .next t) : SendsOnlyFrames s t := by
  rw [exec_of_encode_line h, appendBits_frame] at hx
  cases hx
  exact .of_trace_eq rfl

end Sys2Proof.Machine

/-! ### The obligations -/

open Sys2Proof Sys2Proof.Machine

/-- Settles O54: an L0 operation sends nothing, and each of the others is made of effects that send only frames. -/
theorem onlyTheFiveFramesAreSent : Obligations.OnlyTheFiveFramesAreSent := by
  intro i s t hdirect hx
  change SendsOnlyFrames s t
  have effects := sendsOnlyFrames_effects
  cases i with
  | writeRawBit b => exact sendsOnlyFrames_of_encode_line rfl hx
  | writeBakedOne => exact sendsOnlyFrames_of_encode_line rfl hx
  | writeBakedZero => exact sendsOnlyFrames_of_encode_line rfl hx
  | writeByte b => exact sendsOnlyFrames_of_encode_line rfl hx
  | writeCmdByte b => exact sendsOnlyFrames_of_encode_line rfl hx
  | writeDataByte b => exact sendsOnlyFrames_of_encode_line rfl hx
  | writeDataWord w => exact sendsOnlyFrames_of_encode_line rfl hx
  | resetOut => exact Host.Outcome.next.inj hx ▸ .of_trace_eq rfl
  | decodeByte => exact Host.Outcome.next.inj hx ▸ .of_trace_eq rfl
  | transport n m => exact absurd rfl (hdirect n m)
  | readFirst a => exact .of_reported hx (effects.readFirst a s)
  | readNext => exact .of_reported hx (effects.readNext s)
  | finishReading => exact .of_reported hx (effects.finishReading s)
  | writeFirst a v => exact .of_reported hx (effects.writeFirst a v s)
  | writeNext v => exact .of_reported hx (effects.writeNext v s)
  | finishWriting => exact .of_reported hx (effects.finishWriting s)
  | readSingleByte a => exact .of_reported hx (effects.readSingleByte a s)
  | readSingleWord a => exact .of_reported hx (effects.readSingleWord a s)
  | writeSingleByte a v => exact .of_reported hx (effects.writeSingleByte a v s)
  | writeSingleWord a v => exact .of_reported hx (effects.writeSingleWord a v s)
  | writeSingleQuad a v => exact .of_reported hx (effects.writeSingleQuad a v s)
  | init => exact .of_reported hx (effects.initTarget s)
  | cmdInit => exact Host.Outcome.next.inj hx ▸ effects.cmdInit s
  | cmdReset flag => exact Host.Outcome.next.inj hx ▸ effects.cmdReset flag s
  | cmdShow => exact Host.Outcome.next.inj hx ▸ effects.cmdShow s
  | cmdRead a n => exact Host.Outcome.next.inj hx ▸ effects.cmdRead a n s
  | cmdWrite a n => exact Res.outcome_next hx ▸ effects.cmdWrite a n s
  | cmdOther verb => exact Host.Outcome.next.inj hx ▸ effects.cmdOther verb s

/-- Settles O11: the refilled buffer holds the capture, which is as long as M, and nothing above it changes. -/
theorem transportCapturesExactlyM : Obligations.TransportCapturesExactlyM := by
  intro s n m c hn hcur hm hanswer
  have hlen : (capture m c s.draws).length = m := capture_length m c s.draws
  refine ⟨_, by rw [exec_transport_within hn hcur hm, transport_completes hanswer, Res.report_done], ?_⟩
  have hbits := inBits_of_storeFrom (s := { s with inBuf := storeFrom 0 (capture m c s.draws) s.inBuf, inLen := m })
    rfl hlen.symm (hlen.trans_le hm)
  exact ⟨hbits, fun hlong => hbits.trans (capture_of_long m c s.draws hlong),
    fun k hk hmk => storeFrom_getElem_above s.inBuf hk (hlen.trans_le hmk), rfl⟩

/-- Settles O12: each hypothesis breaks one of the three bounds of R100. -/
theorem transportOutsideItsRequiresIsRefused : Obligations.TransportOutsideItsRequiresIsRefused := by
  intro s n m houtside
  refine if_neg fun ⟨hn, hcur, hm⟩ => ?_
  rcases houtside with h | h | h
  · exact Nat.not_le_of_lt h hn
  · exact Nat.not_le_of_lt h hcur
  · exact Nat.not_le_of_lt h hm

/-- Settles O13: a stalled call is reported as it stopped, and `step` looks at `blocked` first. -/
theorem stalledTransportHangsTheBlock : Obligations.StalledTransportHangsTheBlock := by
  refine ⟨fun s n m hn hcur hm hanswer => ?_, fun s hblocked => ?_⟩
  · rw [exec_transport_within hn hcur hm, transport_stalls hanswer, Res.report_stopped]
    rfl
  · rw [step, hblocked]

end

section
/-! PROOFS. The statements about the register protocol (43_register_protocol.md): what each primitive and each composite
leaves where its calls complete, and what the admission table of R110 stops. -/

namespace Sys2Proof.Machine

/-! ### One completed call of an operation (R111 to R116, R118) -/

/-- What an L1 operation with one completed call of frame `f` leaves, but for `txn`: the call, the engine's answer used
up, and the rest of the block as it was; a call that captures nothing decodes nothing, so it leaves in.pos alone. -/
structure State.MakesCall (s t : State) (f : List Bool) (m : Nat) (c : List Bool) : Prop where
  completed : CompletedCall s t f m c
  kept : s.KeptByL1 t
  answers : t.answers = s.answers.tail
  draws : t.draws = s.draws + 1
  inPos : m = 0 → t.inPos = s.inPos

/-- The frame fills the outbound buffer's valid part, the capture the inbound one's (R100, R118). -/
theorem State.called_completedCall (s : State) {f : List Bool} {m : Nat} (c : List Bool)
    (hf : f.length ≤ Config.bufCap) (hm : m ≤ Config.bufCap) : CompletedCall s (s.called f m c) f m c := by
  have habove := s.called_keptAbove f m c le_rfl le_rfl hf
  exact ⟨rfl, s.called_outBits f m c hf, habove.out, rfl, called_inBits s f m c hm, habove.inb, rfl⟩

theorem State.called_makesCall (s : State) {f : List Bool} {m : Nat} (c : List Bool) (h : ProtocolCall f m) :
    s.MakesCall (s.called f m c) f m c :=
  ⟨s.called_completedCall c h.fits.1 h.fits.2, by constructor <;> rfl, rfl, rfl, fun _ => rfl⟩

/-- The decode behind a call that captures writes in.pos, which the call leaves free (R90, R112). -/
theorem State.readCalled_makesCall (s : State) {f : List Bool} (c : List Bool) (h : ProtocolCall f Config.rxMargin) :
    s.MakesCall (s.readCalled f c) f Config.rxMargin c := by
  obtain ⟨completed, kept, answers, draws, -⟩ := s.called_makesCall c h
  exact ⟨completed, kept.trans (by constructor <;> rfl), answers, draws, nofun⟩

/-- `txn` is no part of what a call leaves (R118). -/
theorem State.MakesCall.setTxn {s t : State} {f : List Bool} {m : Nat} {c : List Bool} (h : s.MakesCall t f m c)
    (x : Txn) : s.MakesCall (t.setTxn x) f m c := by
  obtain ⟨completed, kept, answers, draws, inPos⟩ := h
  exact ⟨completed, kept.trans (by constructor <;> rfl), answers, draws, inPos⟩

section calls

variable {s : State} {c : List Bool}

theorem readFirst_makesCall (a : Word) (h : s.mayRun .readFirst = true) (ha : s.nextAnswer = .completes c) :
    ∃ t, readFirst a s = .done (s.readByte c) t ∧ t.txn = .reading ∧ s.MakesCall t (frameRF a) 100 c ∧
      t.inPos = (decodeBits s.params.truncPolicy (capture 100 c s.draws)).2 :=
  ⟨(s.readCalled (frameRF a) c).setTxn .reading, by rw [readFirst_eq, if_pos h, ha], rfl,
    (s.readCalled_makesCall c (protocol_RF a)).setTxn .reading, s.readCalled_inPos (frameRF a) c⟩

theorem readNext_makesCall (h : s.mayRun .readNext = true) (ha : s.nextAnswer = .completes c) :
    ∃ t, readNext s = .done (s.readByte c) t ∧ t.txn = s.txn ∧ s.MakesCall t frameRN 100 c ∧
      t.inPos = (decodeBits s.params.truncPolicy (capture 100 c s.draws)).2 :=
  ⟨s.readCalled frameRN c, by rw [readNext_eq, if_pos h, ha], rfl, s.readCalled_makesCall c protocol_RN,
    s.readCalled_inPos frameRN c⟩

theorem finishReading_makesCall (h : s.mayRun .finishReading = true) (ha : s.nextAnswer = .completes c) :
    ∃ t, finishReading s = .done () t ∧ t.txn = .closed ∧ s.MakesCall t frameEND 0 c :=
  ⟨(s.called frameEND 0 c).setTxn .closed, by rw [finishReading_eq, if_pos h, ha], rfl,
    (s.called_makesCall c protocol_END).setTxn .closed⟩

theorem writeFirst_makesCall (a : Word) (v : Byte) (h : s.mayRun .writeFirst = true)
    (ha : s.nextAnswer = .completes c) :
    ∃ t, writeFirst a v s = .done () t ∧ t.txn = .writing ∧ s.MakesCall t (frameWF a v) 0 c :=
  ⟨(s.called (frameWF a v) 0 c).setTxn .writing, by rw [writeFirst_eq, if_pos h, ha], rfl,
    (s.called_makesCall c (protocol_WF a v)).setTxn .writing⟩

theorem writeNext_makesCall (v : Byte) (h : s.mayRun .writeNext = true) (ha : s.nextAnswer = .completes c) :
    ∃ t, writeNext v s = .done () t ∧ t.txn = s.txn ∧ s.MakesCall t (frameWN v) 0 c :=
  ⟨s.called (frameWN v) 0 c, by rw [writeNext_eq, if_pos h, ha], rfl, s.called_makesCall c (protocol_WN v)⟩

theorem finishWriting_makesCall (h : s.mayRun .finishWriting = true) (ha : s.nextAnswer = .completes c) :
    ∃ t, finishWriting s = .done () t ∧ t.txn = .closed ∧ s.MakesCall t frameEND 0 c :=
  ⟨(s.called frameEND 0 c).setTxn .closed, by rw [finishWriting_eq, if_pos h, ha], rfl,
    (s.called_makesCall c protocol_END).setTxn .closed⟩

end calls

/-! ### The state a completed operation hands back -/

/-- A meaning that is a completed operation's report. -/
theorem exec_completes {i : Instr} {α : Type} {r : Res α} {f : α → Ret} {s t : State} {a : α}
    (hx : exec i s = .next (r.report f)) (hr : r = .done a t) : exec i s = .next (t.returns (f a)) := by
  rw [hx, hr, Res.report_done]

/-- A completed L1 operation changes the buffers and their cursors, `txn`, the trace and the engine's answers; then its
result is handed back. -/
theorem State.KeptByL1.returns_eq {s t : State} (h : s.KeptByL1 t) (r : Ret) {x : Txn} {cur len pos draws : Nat}
    {trace : List Event} {answers : List Answer} (hx : t.txn = x) (hcur : t.outCur = cur) (hlen : t.inLen = len)
    (hpos : t.inPos = pos) (htrace : t.trace = trace) (hanswers : t.answers = answers) (hdraws : t.draws = draws) :
    t.returns r = { s with
      outBuf := t.outBuf, outCur := cur, inBuf := t.inBuf, inLen := len, inPos := pos, txn := x, ret := r
      trace := trace, answers := answers, draws := draws } :=
  State.ext_fields rfl hcur rfl hlen hpos h.conn hx h.rst h.greeted h.params h.hostIn h.presence hanswers h.calls
    h.hostOut htrace rfl h.blocked hdraws

/-- The same for an operation with one call, whose frame and capture give the cursors. -/
theorem State.MakesCall.returns_eq {s t : State} {f : List Bool} {m : Nat} {c : List Bool} (h : s.MakesCall t f m c)
    (r : Ret) {x : Txn} {n pos : Nat} (hx : t.txn = x) (hn : f.length = n) (hpos : t.inPos = pos) :
    t.returns r = { s with
      outBuf := t.outBuf, outCur := n, inBuf := t.inBuf, inLen := m, inPos := pos, txn := x, ret := r
      trace := t.trace, answers := s.answers.tail, draws := s.draws + 1 } := by
  obtain ⟨hcur, -, -, hlen, -, -, -⟩ := h.completed
  exact h.kept.returns_eq r hx (hcur.trans hn) hlen hpos rfl h.answers h.draws

/-! ### Several calls of one operation (R120 to R124) -/

/-- What the completed calls `events` leave, of which none sends more than `n` bits or captures more than `m`; `rest` are
the engine's answers still to come. -/
structure State.MakesCalls (s t : State) (n m : Nat) (events : List Event) (rest : List Answer) : Prop where
  kept : s.KeptByL1 t
  above : s.KeptAbove n m t
  trace : t.trace = s.trace ++ events
  answers : t.answers = rest
  draws : t.draws = s.draws + events.length
  inPos : m = 0 → t.inPos = s.inPos

theorem CompletedCall.keptAbove {s t : State} {f c : List Bool} {m n m' : Nat} (h : CompletedCall s t f m c)
    (hn : f.length ≤ n) (hm : m ≤ m') : s.KeptAbove n m' t := by
  obtain ⟨-, -, hout, -, -, hinb, -⟩ := h
  exact ⟨fun k hk hle => hout k hk (hn.trans hle), fun k hk hle => hinb k hk (hm.trans hle)⟩

namespace State.MakesCalls

variable {s t u : State} {n m : Nat} {events : List Event} {c : List Bool} {rest : List Answer}

theorem none (n m : Nat) (h : s.answers = rest) : s.MakesCalls s n m [] rest :=
  ⟨.refl s, .refl s, (List.append_nil _).symm, h, rfl, fun _ => rfl⟩

/-- One more call. -/
theorem call (h : s.MakesCalls t n m events (.completes c :: rest)) {f : List Bool} {m' : Nat}
    (k : t.MakesCall u f m' c) (hn : f.length ≤ n) (hm : m' ≤ m) :
    s.MakesCalls u n m (events ++ [.wire f (capture m' c (s.draws + events.length))]) rest := by
  obtain ⟨-, -, -, -, -, -, htrace⟩ := k.completed
  exact {
    kept := h.kept.trans k.kept
    above := h.above.trans (k.completed.keptAbove hn hm)
    trace := by rw [htrace, h.trace, h.draws, List.append_assoc]
    answers := by rw [k.answers, h.answers, List.tail_cons]
    draws := by rw [k.draws, h.draws, List.length_append, List.length_singleton, Nat.add_assoc]
    inPos := fun h0 => (k.inPos (Nat.le_zero.mp (h0 ▸ hm))).trans (h.inPos h0) }

/-- The call of END is the last one of a transaction (R57). -/
theorem endCall (h : s.MakesCalls t n m events (.completes c :: rest)) (k : t.MakesCall u frameEND 0 c) (hn : 50 ≤ n) :
    s.MakesCalls u n m (events ++ [.wire frameEND []]) rest ∧ EndsTransaction s u n m := by
  have hcalls := h.call k (by rwa [frameEND_length]) (Nat.zero_le m)
  obtain ⟨hcur, hbits, -, hlen, -, -, -⟩ := k.completed
  rw [frameEND_length] at hcur hbits
  exact ⟨hcalls, hcalls.above.endsTransaction hcur hbits hlen⟩

theorem writeFirst (h : s.MakesCalls t n m events (.completes c :: rest)) (a : Word) (v : Byte)
    (hmay : t.mayRun .writeFirst = true) (hn : 250 ≤ n) :
    ∃ u, writeFirst a v t = .done () u ∧ u.txn = .writing ∧
      s.MakesCalls u n m (events ++ [.wire (frameWF a v) []]) rest := by
  obtain ⟨u, hdone, hx, hcall⟩ := writeFirst_makesCall a v hmay (State.nextAnswer_cons h.answers)
  exact ⟨u, hdone, hx, h.call hcall (by rwa [frameWF_length]) (Nat.zero_le m)⟩

theorem writeNext (h : s.MakesCalls t n m events (.completes c :: rest)) (v : Byte) (hx : t.txn = .writing)
    (hn : 50 ≤ n) :
    ∃ u, writeNext v t = .done () u ∧ u.txn = .writing ∧ s.MakesCalls u n m (events ++ [.wire (frameWN v) []]) rest := by
  obtain ⟨u, hdone, hxu, hcall⟩ :=
    writeNext_makesCall v (State.mayRun_of_txn .writing hx rfl) (State.nextAnswer_cons h.answers)
  exact ⟨u, hdone, hxu.trans hx, h.call hcall (by rwa [frameWN_length]) (Nat.zero_le m)⟩

theorem finishWriting (h : s.MakesCalls t n m events (.completes c :: rest)) (hx : t.txn = .writing) (hn : 50 ≤ n) :
    ∃ u, finishWriting t = .done () u ∧ u.txn = .closed ∧ s.MakesCalls u n m (events ++ [.wire frameEND []]) rest ∧
      EndsTransaction s u n m := by
  obtain ⟨u, hdone, hxu, hcall⟩ :=
    finishWriting_makesCall (State.mayRun_of_txn .writing hx rfl) (State.nextAnswer_cons h.answers)
  exact ⟨u, hdone, hxu, h.endCall hcall hn⟩

theorem finishReading (h : s.MakesCalls t n m events (.completes c :: rest)) (hx : t.txn = .reading) (hn : 50 ≤ n) :
    ∃ u, finishReading t = .done () u ∧ u.txn = .closed ∧ s.MakesCalls u n m (events ++ [.wire frameEND []]) rest ∧
      EndsTransaction s u n m := by
  obtain ⟨u, hdone, hxu, hcall⟩ :=
    finishReading_makesCall (State.mayRun_of_txn .reading hx rfl) (State.nextAnswer_cons h.answers)
  exact ⟨u, hdone, hxu, h.endCall hcall hn⟩

/-- A finished write composite hands back no result and leaves the buffers as END does. -/
theorem write_returns_eq (h : s.MakesCalls t n 0 events rest) (hx : t.txn = .closed) (hend : EndsTransaction s t n 0) :
    t.returns .done = { s with
      outBuf := t.outBuf, outCur := 50, inBuf := t.inBuf, inLen := 0, txn := .closed, ret := .done
      trace := s.trace ++ events, answers := rest, draws := s.draws + events.length } := by
  obtain ⟨hcur, -, hlen, -, -⟩ := hend
  exact h.kept.returns_eq .done hx hcur hlen (h.inPos rfl) h.trace h.answers h.draws

end State.MakesCalls

/-- `read_single_byte` where both calls complete (R120). -/
theorem readSingleByte_completes {s : State} (a : Word) {c0 c1 : List Bool} {rest : List Answer} (ho : s.mayOpen)
    (ha : s.answers = completing [c0, c1] ++ rest) :
    ∃ t, readSingleByte a s = .done (s.readByte c0) t ∧ t.txn = .closed ∧
      s.MakesCalls t 204 100 [.wire (frameRF a) (capture 100 c0 s.draws), .wire frameEND []] rest ∧
      EndsTransaction s t 204 100 := by
  obtain ⟨t, ht, hxt, hcall, -⟩ := readFirst_makesCall a ho.readFirst (State.nextAnswer_cons ha)
  have hcalls := (State.MakesCalls.none 204 100 ha).call hcall (frameRF_length a).le le_rfl
  obtain ⟨u, hu, hxu, hcalls, hend⟩ := hcalls.finishReading hxt (by decide)
  exact ⟨u, by simp only [readSingleByte, ht, hu, Res.andThen_done], hxu, hcalls, hend⟩

/-- `write_single_word` where its three calls complete (R123). -/
theorem writeSingleWord_completes {s : State} (a v : Word) {c0 c1 c2 : List Bool} {rest : List Answer}
    (ho : s.mayOpen) (ha : s.answers = completing [c0, c1, c2] ++ rest) :
    ∃ t, writeSingleWord a v s = .done () t ∧ t.txn = .closed ∧
      s.MakesCalls t 250 0 [.wire (frameWF a (lowByte v)) [], .wire (frameWN (highByte v)) [], .wire frameEND []] rest ∧
      EndsTransaction s t 250 0 := by
  obtain ⟨t, ht, hx, hcalls⟩ := (State.MakesCalls.none 250 0 ha).writeFirst a (lowByte v) ho.writeFirst le_rfl
  obtain ⟨u, hu, hx, hcalls⟩ := hcalls.writeNext (highByte v) hx (by decide)
  obtain ⟨w, hw, hx, hcalls, hend⟩ := hcalls.finishWriting hx (by decide)
  exact ⟨w, by simp only [writeSingleWord, ht, hu, hw, Res.andThen_done], hx, hcalls, hend⟩

/-- `write_single_quad` where its five calls complete (R124). -/
theorem writeSingleQuad_completes {s : State} (a : Word) (v : Quad) {c0 c1 c2 c3 c4 : List Bool} {rest : List Answer}
    (ho : s.mayOpen) (ha : s.answers = completing [c0, c1, c2, c3, c4] ++ rest) :
    ∃ t, writeSingleQuad a v s = .done () t ∧ t.txn = .closed ∧
      s.MakesCalls t 250 0 [.wire (frameWF a (quadByte 0 v)) [], .wire (frameWN (quadByte 1 v)) [],
        .wire (frameWN (quadByte 2 v)) [], .wire (frameWN (quadByte 3 v)) [], .wire frameEND []] rest ∧
      EndsTransaction s t 250 0 := by
  obtain ⟨t0, h0, hx, hcalls⟩ := (State.MakesCalls.none 250 0 ha).writeFirst a (quadByte 0 v) ho.writeFirst le_rfl
  obtain ⟨t1, h1, hx, hcalls⟩ := hcalls.writeNext (quadByte 1 v) hx (by decide)
  obtain ⟨t2, h2, hx, hcalls⟩ := hcalls.writeNext (quadByte 2 v) hx (by decide)
  obtain ⟨t3, h3, hx, hcalls⟩ := hcalls.writeNext (quadByte 3 v) hx (by decide)
  obtain ⟨t4, h4, hx, hcalls, hend⟩ := hcalls.finishWriting hx (by decide)
  exact ⟨t4, by simp only [writeSingleQuad, h0, h1, h2, h3, h4, Res.andThen_done], hx, hcalls, hend⟩

/-! ### What R110's table stops (R117) -/

/-- R110's table as the list of its admitted entries. -/
theorem Txn.admits_iff (x : Txn) (op : Primitive) : x.admits op = true ↔
    (x, op) ∈ [(Txn.idle, Primitive.readFirst), (.closed, .readFirst), (.idle, .writeFirst), (.closed, .writeFirst),
      (.reading, .readNext), (.reading, .finishReading), (.writing, .writeNext), (.writing, .finishWriting)] := by
  cases x <;> cases op <;> decide

theorem State.mayRun_eq_admits {s : State} (h : s.params.enforceSequence = true) (op : Primitive) :
    s.mayRun op = s.txn.admits op := by
  rw [State.mayRun, h, Bool.not_true, Bool.false_or]

/-- Inside a transaction no other one can be opened (R110). -/
theorem State.mayRun_opening_inside {s : State} (he : s.params.enforceSequence = true)
    (hx : s.txn = .reading ∨ s.txn = .writing) : s.mayRun .readFirst = false ∧ s.mayRun .writeFirst = false := by
  rw [State.mayRun_eq_admits he, State.mayRun_eq_admits he]
  rcases hx with hx | hx <;> rw [hx] <;> exact ⟨rfl, rfl⟩

section refused

variable {s : State}

theorem readFirst_refused (a : Word) (h : s.mayRun .readFirst = false) :
    readFirst a s = sequenceError .readFirst s := by
  rw [readFirst_eq, if_neg (Bool.eq_false_iff.mp h)]

theorem writeFirst_refused (a : Word) (v : Byte) (h : s.mayRun .writeFirst = false) :
    writeFirst a v s = sequenceError .writeFirst s := by
  rw [writeFirst_eq, if_neg (Bool.eq_false_iff.mp h)]

/-- A meaning that is a refused primitive's report. -/
theorem exec_refused {i : Instr} {op : Primitive} {α : Type} {r : Res α} {f : α → Ret}
    (hx : exec i s = .next (r.report f)) (hr : r = sequenceError op s) :
    exec i s = .next { s with ret := .sequenceError op s.txn } := by
  rw [hx, hr]
  rfl

/-- An operation whose first primitive is refused is stopped there (R117). -/
theorem andThen_refused {α β : Type} {op : Primitive} {r : Res α} (h : r = sequenceError op s)
    (f : α → State → Res β) : r.andThen f = sequenceError op s := by
  rw [h]
  rfl

theorem readSingleWord_refused (a : Word) (h : s.mayRun .readFirst = false) :
    readSingleWord a s = sequenceError .readFirst s := andThen_refused (readFirst_refused a h) _

theorem writeSingleByte_refused (a : Word) (v : Byte) (h : s.mayRun .writeFirst = false) :
    writeSingleByte a v s = sequenceError .writeFirst s := andThen_refused (writeFirst_refused a v h) _

/-- A refused `init` has made its reset pulse and stands at Resetting (R141; log 10). -/
theorem initTarget_refused (h : s.mayRun .writeFirst = false) :
    initTarget s = sequenceError .writeFirst ((resetPulse s).setConn .resetting) :=
  andThen_refused (writeSingleByte_refused (s := (resetPulse s).setConn .resetting) _ _ h) _

end refused

/-- The reset pulse is four events and leaves the line deasserted (R141). -/
theorem resetPulse_eq (s : State) :
    resetPulse s = { s with rst := true, trace := s.trace ++ pulseEvents s.params.resetHold } := by
  have htrace : (resetPulse s).trace = s.trace ++ pulseEvents s.params.resetHold := by
    simp [resetPulse, pulseEvents]
  rw [← htrace]
  rfl

/-! ### Without enforcement nothing is refused (R110, D9) -/

/-- Where the table is void, the parameters are kept, and a SequenceError is handed back only if one was before. -/
def AddsNoSequenceError (s t : State) : Prop :=
  s.params.enforceSequence = false →
    t.params = s.params ∧ ∀ op x, t.ret = .sequenceError op x → s.ret = .sequenceError op x

namespace AddsNoSequenceError

theorem of_eq {s t : State} (h : (t.params, t.ret) = (s.params, s.ret)) : AddsNoSequenceError s t := by
  simp only [Prod.mk.injEq] at h
  exact fun _ => ⟨h.1, fun _ _ hr => h.2 ▸ hr⟩

theorem trans {s t u : State} (h : AddsNoSequenceError s t) (k : AddsNoSequenceError t u) : AddsNoSequenceError s u := by
  intro he
  obtain ⟨hp, hr⟩ := h he
  obtain ⟨kp, kr⟩ := k (hp ▸ he)
  exact ⟨kp.trans hp, fun op x hx => hr op x (kr op x hx)⟩

end AddsNoSequenceError

/-- The one effect that hands a SequenceError back is a refusal, and a void table refuses nothing. -/
theorem addsNoSequenceError_effects : AllEffects AddsNoSequenceError where
  refl _ := .of_eq rfl
  trans := .trans
  called _ _ _ _ _ := .of_eq rfl
  hung _ _ _ _ := .of_eq rfl
  decoded _ := .of_eq rfl
  txn _ _ := .of_eq rfl
  rejected s op h he := by
    rw [State.mayRun, he] at h
    cases h
  rst _ _ := .of_eq rfl
  delay _ _ := .of_eq rfl
  conn _ _ := .of_eq rfl
  put _ _ := .of_eq rfl
  hostIn _ _ _ _ := .of_eq rfl
  dry _ := .of_eq rfl
  rawBit s b := by
    rw [writeRawBit_frame]
    exact .of_eq rfl
  cursor _ := .of_eq rfl
  ret _ _ hr _ := ⟨rfl, fun op x hx => absurd hx (hr op x)⟩
  wire s n m _ _ _ := by
    rcases transport_cases n m s with h | ⟨c, h⟩ <;> rw [h] <;> exact .of_eq rfl

end Sys2Proof.Machine

/-! ### The obligations -/

open Sys2Proof Sys2Proof.Machine

/-- Settles O17: the one completed call of `read_first`, with the decoded byte handed back. -/
theorem readFirstSendsRFAndReturnsTheByte : Obligations.ReadFirstSendsRFAndReturnsTheByte := by
  intro s a c ho ha
  obtain ⟨t, hdone, hx, hcall, hpos⟩ := readFirst_makesCall a (State.mayOpen.readFirst ho) ha
  exact ⟨_, exec_completes rfl hdone, hcall.completed,
    hcall.returns_eq _ hx (frameRF_length a) hpos⟩

/-- Settles O18: the one completed call of `read_next`, with the decoded byte handed back. -/
theorem readNextClocksOneByte : Obligations.ReadNextClocksOneByte := by
  intro s c hreading ha
  have hmay : s.mayRun .readNext = true := State.mayRun_of fun he => hreading he ▸ rfl
  obtain ⟨t, hdone, hx, hcall, hpos⟩ := readNext_makesCall hmay ha
  exact ⟨_, exec_completes rfl hdone, hcall.completed,
    hcall.returns_eq _ hx frameRN_length hpos⟩

/-- Settles O19: either finish is one completed call of END that closes the transaction. -/
theorem finishOperationsSendENDAndClose : Obligations.FinishOperationsSendENDAndClose := by
  intro s c ha
  refine ⟨fun hreading => ?_, fun hwriting => ?_⟩
  · have hmay : s.mayRun .finishReading = true := State.mayRun_of fun he => hreading he ▸ rfl
    obtain ⟨t, hdone, hx, hcall⟩ := finishReading_makesCall hmay ha
    exact ⟨_, exec_completes rfl hdone, hcall.completed,
      hcall.returns_eq .done hx frameEND_length (hcall.inPos rfl)⟩
  · have hmay : s.mayRun .finishWriting = true := State.mayRun_of fun he => hwriting he ▸ rfl
    obtain ⟨t, hdone, hx, hcall⟩ := finishWriting_makesCall hmay ha
    exact ⟨_, exec_completes rfl hdone, hcall.completed,
      hcall.returns_eq .done hx frameEND_length (hcall.inPos rfl)⟩

/-- Settles O20: the one completed call of `write_first`, which captures nothing. -/
theorem writeFirstSendsWF : Obligations.WriteFirstSendsWF := by
  intro s a v c ho ha
  obtain ⟨t, hdone, hx, hcall⟩ := writeFirst_makesCall a v (State.mayOpen.writeFirst ho) ha
  exact ⟨_, exec_completes rfl hdone, hcall.completed,
    hcall.returns_eq .done hx (frameWF_length a v) (hcall.inPos rfl)⟩

/-- Settles O21: the one completed call of `write_next`, whose frame is the data byte. -/
theorem writeNextSendsOneDataByte : Obligations.WriteNextSendsOneDataByte := by
  intro s v c hwriting ha
  have hmay : s.mayRun .writeNext = true := State.mayRun_of fun he => hwriting he ▸ rfl
  obtain ⟨t, hdone, hx, hcall⟩ := writeNext_makesCall v hmay ha
  exact ⟨_, exec_completes rfl hdone, hcall.completed,
    hcall.returns_eq .done hx (frameWN_length v) (hcall.inPos rfl)⟩

/-- Settles O22: no effect of an operation adds a SequenceError where the table is void. -/
theorem unenforcedSequenceAdmitsEverything : Obligations.UnenforcedSequenceAdmitsEverything := by
  intro s i t he hret hx op x herror
  obtain ⟨-, hbefore⟩ := addsNoSequenceError_effects.exec hx he
  cases hret.symm.trans (hbefore op x herror)

/-- Settles O23: `readSingleByte_completes`, with the byte of the first capture handed back. -/
theorem readSingleByteReturnsTheFirstCapture : Obligations.ReadSingleByteReturnsTheFirstCapture := by
  intro s a c0 c1 rest ho ha
  obtain ⟨t, hdone, hx, hcalls, hend⟩ := readSingleByte_completes a ho ha
  exact ⟨_, exec_completes rfl hdone, hend, hcalls.trace,
    hcalls.kept.returns_eq _ hx rfl rfl rfl rfl hcalls.answers hcalls.draws⟩

/-- Settles O24: `readSingleWord_completes`, with the second byte read above the first. -/
theorem readSingleWordIsLittleEndian : Obligations.ReadSingleWordIsLittleEndian := by
  intro s a c0 c1 c2 rest ho ha
  obtain ⟨t, hdone, hend, hkept, hx, hanswers, hdraws, htrace⟩ := readSingleWord_completes a ho ha
  exact ⟨_, exec_completes rfl hdone, hend, htrace,
    hkept.returns_eq _ hx rfl rfl rfl rfl hanswers hdraws⟩

/-- Settles O25: the calls of each write composite, with no result handed back. -/
theorem writeCompositesSendLowByteFirst : Obligations.WriteCompositesSendLowByteFirst := by
  intro s a rest ho
  refine ⟨fun v c0 c1 ha => ?_, fun v c0 c1 c2 ha => ?_, fun v c0 c1 c2 c3 c4 ha => ?_⟩
  · obtain ⟨t, hdone, hend, hkept, hx, hpos, hanswers, hdraws, htrace⟩ := writeSingleByte_completes a v ho ha
    obtain ⟨hcur, -, hlen, -, -⟩ := id hend
    exact ⟨_, exec_completes rfl hdone, hend,
      hkept.returns_eq .done hx hcur hlen hpos htrace hanswers hdraws⟩
  · obtain ⟨t, hdone, hx, hcalls, hend⟩ := writeSingleWord_completes a v ho ha
    exact ⟨_, exec_completes rfl hdone, hend,
      hcalls.write_returns_eq hx hend⟩
  · obtain ⟨t, hdone, hx, hcalls, hend⟩ := writeSingleQuad_completes a v ho ha
    exact ⟨_, exec_completes rfl hdone, hend,
      hcalls.write_returns_eq hx hend⟩

/-- Settles O15: where the table has no entry the primitive is its SequenceError. -/
theorem outOfOrderPrimitiveIsRejected : Obligations.OutOfOrderPrimitiveIsRejected := by
  intro s op i hprimitive he htable
  have hmay : ¬ s.mayRun op = true := by
    rw [State.mayRun_eq_admits he, Txn.admits_iff]
    exact htable
  rcases hprimitive with ⟨a, rfl, rfl⟩ | ⟨rfl, rfl⟩ | ⟨rfl, rfl⟩ | ⟨a, v, rfl, rfl⟩ | ⟨v, rfl, rfl⟩ | ⟨rfl, rfl⟩
  · exact exec_refused rfl (by rw [readFirst_eq, if_neg hmay])
  · exact exec_refused rfl (by rw [readNext_eq, if_neg hmay])
  · exact exec_refused rfl (by rw [finishReading_eq, if_neg hmay])
  · exact exec_refused rfl (by rw [writeFirst_eq, if_neg hmay])
  · exact exec_refused rfl (by rw [writeNext_eq, if_neg hmay])
  · exact exec_refused rfl (by rw [finishWriting_eq, if_neg hmay])

/-- Settles O16: each composite is stopped by its first primitive. -/
theorem compositeInsideATransactionIsRejected : Obligations.CompositeInsideATransactionIsRejected := by
  intro s a he hx
  obtain ⟨hread, hwrite⟩ := State.mayRun_opening_inside he hx
  refine ⟨?_, ?_, fun v => ?_, fun v => ?_, fun v => ?_⟩
  · exact exec_refused rfl (andThen_refused (readFirst_refused a hread) _)
  · exact exec_refused rfl (readSingleWord_refused a hread)
  · exact exec_refused rfl (writeSingleByte_refused a v hwrite)
  · exact exec_refused rfl (andThen_refused (writeFirst_refused a _ hwrite) _)
  · exact exec_refused rfl (andThen_refused (writeFirst_refused a _ hwrite) _)

/-- Settles O38: each command ends where its first primitive is refused, `W` behind its first payload byte and `init`
behind its reset pulse. -/
theorem commandInsideAnOpenTransactionRepliesNothing : Obligations.CommandInsideAnOpenTransactionRepliesNothing := by
  intro s a n he hx hn
  obtain ⟨hread, hwrite⟩ := State.mayRun_opening_inside he hx
  refine ⟨?_, ?_, fun c1 c2 b more hspelled hin => ?_, ?_⟩
  · have hshow : cmdShow s = sequenceError .readFirst s := andThen_refused (readSingleWord_refused _ hread) _
    rw [exec, execCmdShow, hshow]
    rfl
  · have hsome : cmdReadSome a n.toNat s = sequenceError .readFirst s := andThen_refused (readFirst_refused a hread) _
    rw [exec, execCmdRead, cmdRead, if_neg hn, hsome]
    rfl
  · have hsome : cmdWriteSome a n.toNat s = sequenceError .writeFirst { s with hostIn := more } := by
      rw [cmdWriteSome, payloadByte_spelled hspelled hin, Res.andThen_done]
      exact andThen_refused (writeFirst_refused (s := { s with hostIn := more }) a b hwrite) _
    rw [exec, execCmdWrite, cmdWrite, if_neg hn, hsome]
    rfl
  · have hinit := initTarget_refused hwrite
    rw [resetPulse_eq] at hinit
    rintro i (rfl | rfl)
    · have hcmd := andThen_refused hinit fun ok t => .done () (t.emitStatus (if ok then charS else charE))
      rw [exec, execCmdInit, cmdInit, hcmd]
      rfl
    · rw [exec, execInit, hinit]
      rfl

end

section
/-! PROOFS. The statements about the initializer (44_target_initializer.md): the transactions of an `init` whose calls all
complete, the dividers it tries, and what it leaves at its end. -/

namespace Sys2Proof.Machine

/-! ### Whole transactions (R120 to R124) -/

/-- Behind a whole transaction: closed by END, the last frame sent, which captures nothing (R57, R110). -/
structure State.AtRest (t : State) : Prop where
  closed : t.txn = .closed
  cursor : t.outCur = 50
  frame : t.outBits 50 = frameEND
  captured : t.inLen = 0

theorem State.AtRest.mayOpen {t : State} (h : t.AtRest) : t.mayOpen := State.mayOpen_of_txn h.closed

/-- What whole transactions with the completed calls `events` leave; `rest` are the engine's answers still to come. The
longest frame is WF with 250 bits, the longest capture has 100 (R63). -/
structure State.Transacts (s t : State) (events : List Event) (rest : List Answer) : Prop extends
  s.MakesCalls t 250 100 events rest, t.AtRest

namespace State.Transacts

variable {s t u : State} {events events' : List Event} {rest rest' : List Answer}

theorem refl (h : s.AtRest) (ha : s.answers = rest) : s.Transacts s [] rest := ⟨.none 250 100 ha, h⟩

theorem trans (h : s.Transacts t events rest) (k : t.Transacts u events' rest') :
    s.Transacts u (events ++ events') rest' where
  kept := h.kept.trans k.kept
  above := h.above.trans k.above
  trace := by rw [k.trace, h.trace, List.append_assoc]
  answers := k.answers
  draws := by rw [k.draws, h.draws, List.length_append, Nat.add_assoc]
  inPos := nofun
  toAtRest := k.toAtRest

/-- No call reads or writes `conn` (R15). -/
theorem setConn (h : s.Transacts t events rest) (c : Conn) : (s.setConn c).Transacts (t.setConn c) events rest where
  kept := { h.kept with conn := rfl }
  above := ⟨h.above.out, h.above.inb⟩
  trace := h.trace
  answers := h.answers
  draws := h.draws
  inPos := nofun
  toAtRest := ⟨h.closed, h.cursor, h.frame, h.captured⟩

/-- One composite, of which no frame is longer than WF and no capture longer than RF's. -/
theorem of_composite {n m : Nat} (hend : EndsTransaction s t n m) (hn : n ≤ 250) (hm : m ≤ 100) (kept : s.KeptByL1 t)
    (closed : t.txn = .closed) (answers : t.answers = rest) (draws : t.draws = s.draws + events.length)
    (trace : t.trace = s.trace ++ events) : s.Transacts t events rest := by
  obtain ⟨cursor, frame, captured, hout, hinb⟩ := hend
  exact {
    kept, closed, answers, draws, trace, cursor, frame, captured
    above := ⟨fun k hk hle => hout k hk (hn.trans hle), fun k hk hle => hinb k hk (hm.trans hle)⟩
    inPos := nofun }

end State.Transacts

/-- An answer that gives every bit of a capture is the capture (R103). -/
theorem capture_of_length {m : Nat} {bits : List Bool} (h : bits.length = m) (draw : Nat) :
    capture m bits draw = bits := by
  rw [capture_of_long m bits draw h.ge, List.take_of_length_le h.le]

section composites

variable {s : State} {rest : List Answer}

theorem writeSingleByte_transacts (a : Word) (v : Byte) (ho : s.mayOpen)
    (ha : s.answers = completing [[], []] ++ rest) :
    ∃ t, writeSingleByte a v s = .done () t ∧ s.Transacts t [.wire (frameWF a v) [], .wire frameEND []] rest := by
  obtain ⟨t, hdone, hend, hkept, hx, -, hanswers, hdraws, htrace⟩ := writeSingleByte_completes a v ho ha
  exact ⟨t, hdone, .of_composite hend le_rfl (by decide) hkept hx hanswers hdraws htrace⟩

theorem readSingleWord_transacts (a : Word) {lo hi : List Bool} (hlo : lo.length = 100) (hhi : hi.length = 100)
    (ho : s.mayOpen) (ha : s.answers = completing [lo, hi, []] ++ rest) :
    ∃ t, readSingleWord a s = .done (identityOf s.params.truncPolicy lo hi) t ∧
      s.Transacts t [.wire (frameRF a) lo, .wire frameRN hi, .wire frameEND []] rest := by
  obtain ⟨t, hdone, hend, hkept, hx, hanswers, hdraws, htrace⟩ := readSingleWord_completes a ho ha
  simp only [capture_of_length hlo, capture_of_length hhi] at hdone htrace
  exact ⟨t, hdone, .of_composite hend (by decide) le_rfl hkept hx hanswers hdraws htrace⟩

theorem writeSingleQuad_transacts (a : Word) (v : Quad) (ho : s.mayOpen)
    (ha : s.answers = completing [[], [], [], [], []] ++ rest) :
    ∃ t, writeSingleQuad a v s = .done () t ∧ s.Transacts t [.wire (frameWF a (quadByte 0 v)) [],
      .wire (frameWN (quadByte 1 v)) [], .wire (frameWN (quadByte 2 v)) [], .wire (frameWN (quadByte 3 v)) [],
      .wire frameEND []] rest := by
  obtain ⟨t, hdone, hx, hcalls, hend⟩ := writeSingleQuad_completes a v ho ha
  exact ⟨t, hdone, .of_composite hend le_rfl (by decide) hcalls.kept hx hcalls.answers hcalls.draws hcalls.trace⟩

end composites

/-! ### The candidate dividers (R143) -/

theorem candidates_eq_range' (p : Params) : candidates p = List.range' 3 (candidateCount p) p.divStep :=
  List.ext_getElem (by simp [candidates]) (by simp [candidates, Config.divFirst, Nat.mul_comm])

/-- The count is that of the loop `while d <= DIV_LAST`. -/
theorem lt_candidateCount_iff {p : Params} (h : p.legal = true) (k : Nat) :
    k < candidateCount p ↔ 3 + k * p.divStep ≤ p.divLast := by
  simp only [Params.legal, Config.divFirst, Bool.and_eq_true, decide_eq_true_eq] at h
  obtain ⟨⟨hfirst, -⟩, hstep⟩ := h
  rw [candidateCount, ← Nat.succ_le_iff, Nat.le_div_iff_mul_le hstep, Nat.succ_mul]
  simp only [Config.divFirst]
  omega

/-- A divider in range is tried behind all smaller candidates. -/
theorem candidates_split {p : Params} {k : Nat} (h : k < candidateCount p) :
    ∃ ds, candidates p = List.range' 3 k p.divStep ++ (3 + k * p.divStep) :: ds := by
  obtain ⟨n, hn⟩ := Nat.exists_eq_add_of_lt h
  refine ⟨List.range' (3 + k * p.divStep + p.divStep) n p.divStep, ?_⟩
  rw [candidates_eq_range', hn, Nat.add_assoc, ← List.range'_append, List.range'_succ, Nat.mul_comm p.divStep k]

theorem missEvents_length (first step : Nat) (misses : List (List Bool × List Bool)) :
    (missEvents first step misses).length = 5 * misses.length := by
  induction misses generalizing first with
  | nil => rfl
  | cons m misses ih =>
    rw [missEvents, List.length_append, ih, List.length_cons, Nat.mul_succ, Nat.add_comm]
    rfl

/-! ### The scan where its calls complete (R143, R144) -/

/-- A candidate's two captures that are no identity. -/
def IsMiss (policy : TruncPolicy) (m : List Bool × List Bool) : Prop :=
  m.1.length = 100 ∧ m.2.length = 100 ∧ identityOf policy m.1 m.2 ≠ 0x5316

section scan

variable {s : State} {rest : List Answer}

/-- One candidate: its divider is programmed and the identity read. -/
theorem scan_probes (d : Nat) (ds : List Nat) {lo hi : List Bool} (hlo : lo.length = 100) (hhi : hi.length = 100)
    (ho : s.mayOpen) (ha : s.answers = probeAnswers (lo, hi) ++ rest) :
    ∃ t, scan (d :: ds) s =
        (if identityOf s.params.truncPolicy lo hi = Config.idExpect then onMatch d t else scan ds t) ∧
      s.Transacts t (probeEvents d lo hi) rest := by
  obtain ⟨t, hwrite, ht⟩ := writeSingleByte_transacts Config.clkDivAddr (dividerByte d) ho
    (rest := completing [lo, hi, []] ++ rest) ha
  obtain ⟨u, hread, hu⟩ := readSingleWord_transacts Config.idAddr hlo hhi ht.mayOpen ht.answers
  refine ⟨u, ?_, ht.trans hu⟩
  rw [scan, hwrite, Res.andThen_done, hread, Res.andThen_done, ht.kept.params]

/-- Candidates that miss are passed over in ascending order. -/
theorem scan_passes_misses {misses : List (List Bool × List Bool)} (first step : Nat) (ds : List Nat) (hs : s.AtRest)
    (hm : ∀ m ∈ misses, IsMiss s.params.truncPolicy m) (ha : s.answers = misses.flatMap probeAnswers ++ rest) :
    ∃ t, scan (List.range' first misses.length step ++ ds) s = scan ds t ∧
      s.Transacts t (missEvents first step misses) rest := by
  induction misses generalizing s first with
  | nil => exact ⟨s, rfl, .refl hs ha⟩
  | cons m misses ih =>
    rw [List.flatMap_cons, List.append_assoc] at ha
    obtain ⟨hlo, hhi, hid⟩ := hm m List.mem_cons_self
    obtain ⟨t, hprobe, ht⟩ :=
      scan_probes first (List.range' (first + step) misses.length step ++ ds) hlo hhi hs.mayOpen ha
    have hothers : ∀ m ∈ misses, IsMiss t.params.truncPolicy m := fun m' hm' =>
      ht.kept.params ▸ hm m' (List.mem_cons_of_mem m hm')
    obtain ⟨u, hscan, hu⟩ := ih (first + step) ht.toAtRest hothers ht.answers
    exact ⟨u, hprobe.trans ((if_neg hid).trans hscan), ht.trans hu⟩

/-- A match: the doubled divider, Connected, timer-control cleared. -/
theorem onMatch_connects (d : Nat) (ho : s.mayOpen)
    (ha : s.answers = completing [[], [], [], [], [], [], []] ++ rest) :
    ∃ t, onMatch d s = .done true t ∧ (s.setConn .connected).Transacts t (matchEvents d) rest := by
  obtain ⟨t, hdivider, ht⟩ := writeSingleByte_transacts Config.clkDivAddr (dividerByte (2 * d)) ho
    (rest := completing [[], [], [], [], []] ++ rest) ha
  have htc := ht.setConn .connected
  obtain ⟨u, hclear, hu⟩ := writeSingleQuad_transacts Config.tmrCtlAddr 0 htc.mayOpen htc.answers
  exact ⟨u, by rw [onMatch, hdivider, Res.andThen_done, hclear, Res.andThen_done], htc.trans hu⟩

end scan

/-- `init` up to its scan: the pulse and the halt write (R141, R142). -/
theorem initTarget_scans {s : State} {rest : List Answer} (ho : s.mayOpen)
    (ha : s.answers = completing [[], []] ++ rest) :
    ∃ t, initTarget s = scan (candidates s.params) t ∧
      ((resetPulse s).setConn .scanningSpeed).Transacts t haltEvents rest := by
  obtain ⟨t, hhalt, ht⟩ := writeSingleByte_transacts (s := (resetPulse s).setConn .resetting) Config.runStateAddr
    Config.haltValue ho ha
  refine ⟨t.setConn .scanningSpeed, ?_, ht.setConn .scanningSpeed⟩
  rw [initTarget, hhalt, Res.andThen_done, ht.kept.params]
  rfl

/-! ### An `init` that comes to its end, called directly and as `i` (R140, R155) -/

theorem State.emitStatus_eq (s : State) (c : Byte) :
    s.emitStatus c = { s with hostOut := s.hostOut ++ [.text [c], .eol] } := by
  rw [← State.emitStatus_hostOut]
  rfl

theorem execCmdInit_of_done {s t : State} {success : Bool} (hdone : initTarget s = .done success t)
    (hret : t.ret = s.ret) (hout : t.hostOut = s.hostOut) :
    exec .cmdInit s = .next { t.returns (.initResult success) with
      ret := s.ret, hostOut := s.hostOut ++ [.text (if success then lineS else lineE), .eol] } := by
  have hline : [if success then charS else charE] = if success then lineS else lineE := by cases success <;> rfl
  rw [exec, execCmdInit, cmdInit, hdone, Res.andThen_done, Res.state_done, State.emitStatus_eq, hline, hout, ← hret]
  rfl

/-- The transactions `events` behind the reset pulse, with `conn` at `c` in the end. -/
theorem execInit_of_transacts {s t : State} {success : Bool} {c : Conn} {events trace : List Event}
    {rest : List Answer} {draws : Nat} (hdone : initTarget s = .done success t)
    (h : ((resetPulse s).setConn c).Transacts t events rest)
    (htrace : s.trace ++ pulseEvents s.params.resetHold ++ events = trace) (hdraws : s.draws + events.length = draws) :
    ∃ t, exec .init s = .next t ∧
      exec .cmdInit s = .next { t with
        ret := s.ret, hostOut := s.hostOut ++ [.text (if success then lineS else lineE), .eol] } ∧
      EndsTransaction s t 250 100 ∧
      t = { s with
        outBuf := t.outBuf, outCur := 50, inBuf := t.inBuf, inLen := 0, inPos := t.inPos
        conn := c, txn := .closed, rst := true, ret := .initResult success
        trace := trace, answers := rest, draws := draws } := by
  refine ⟨t.returns (.initResult success), exec_completes rfl hdone, execCmdInit_of_done hdone h.kept.ret h.kept.hostOut,
    ⟨h.cursor, h.frame, h.captured, h.above.out, h.above.inb⟩, ?_⟩
  have hpulse : ((resetPulse s).setConn c).trace ++ events = trace := by
    rw [resetPulse_eq]
    exact htrace
  exact h.kept.returns_eq (.initResult success) h.closed h.cursor h.captured rfl (h.trace.trans hpulse) h.answers
    (h.draws.trans hdraws)

/-! ### Every `init` that comes to its end (R141, R146) -/

/-- No SequenceError and no result of a call is an `init`'s result. -/
def AddsNoInitResult (s t : State) : Prop := ∀ success, t.ret = .initResult success → s.ret = .initResult success

theorem addsNoInitResult_effects : InitEffects AddsNoInitResult where
  refl _ _ := id
  trans h k success ht := h success (k success ht)
  called _ _ _ _ _ _ := id
  hung _ _ _ _ _ := id
  decoded _ _ := id
  txn _ _ _ := id
  rejected _ _ _ _ := nofun
  rst _ _ _ := id
  delay _ _ _ := id
  conn _ _ _ := id

/-- What an operation that comes to its end leaves. -/
theorem Res.Ends.of_done {α : Type} {stops : Stop → State → Prop} {post : α → State → Prop} {r : Res α} {a : α}
    {s : State} (h : r.Ends stops post) (hr : r = .done a s) : post a s := by
  subst hr
  exact h

section line

variable {s : State}

theorem onMatch_keeps_rst (d : Nat) (h : s.mayOpen) : (onMatch d s).Ends Hangs fun _ t => t.rst = s.rst :=
  (writeSingleByte_ends _ _ h).andThen fun _ t ⟨hk, ht⟩ =>
    (writeSingleQuad_ends (s := t.setConn .connected) _ _ (State.mayOpen_of_txn ht)).andThen fun _ _ ⟨hk', _⟩ =>
      hk'.rst.trans hk.rst

theorem scan_keeps_rst (ds : List Nat) (h : s.txn = .closed) : (scan ds s).Ends Hangs fun _ t => t.rst = s.rst := by
  induction ds generalizing s with
  | nil => exact rfl
  | cons d ds ih =>
    refine (writeSingleByte_ends _ _ (State.mayOpen_of_txn h)).andThen fun _ t ⟨hk, ht⟩ => ?_
    refine ((readSingleWord_ends _ (State.mayOpen_of_txn ht)).kept hk).andThen fun id u ⟨hk, hu⟩ => ?_
    rw [← hk.rst]
    split
    · exact onMatch_keeps_rst d (State.mayOpen_of_txn hu)
    · exact ih hu

/-- The pulse deasserts the line, and nothing behind it drives it (R141, R145). -/
theorem initTarget_deasserts (h : s.mayOpen) : (initTarget s).Ends Hangs fun _ t => t.rst = true :=
  (writeSingleByte_ends (s := (resetPulse s).setConn .resetting) _ _ h).andThen fun _ t ⟨hk, ht⟩ =>
    (scan_keeps_rst (s := t.setConn .scanningSpeed) _ ht).imp fun _ _ hu => hu.trans hk.rst

/-- R110's table lets a write open a transaction wherever it lets a read. -/
theorem State.mayOpen_of_writeFirst (h : s.mayRun .writeFirst = true) : s.mayOpen := by
  intro he
  rw [State.mayRun_eq_admits he, Txn.admits_iff] at h
  simpa using h

end line

end Sys2Proof.Machine

/-! ### The obligations -/

open Sys2Proof Sys2Proof.Machine

/-- Settles O27: the halt write, the misses, the matching candidate's probe and the match are one row of transactions
behind the reset pulse. -/
theorem initConnectsAtTheFirstMatchingDivider : Obligations.InitConnectsAtTheFirstMatchingDivider := by
  intro s misses lo hi rest hlegal ho hlast hm hlo hhi hid ha
  simp only [List.append_assoc] at ha
  obtain ⟨ds, hcandidates⟩ := candidates_split ((lt_candidateCount_iff hlegal misses.length).mpr hlast)
  obtain ⟨t, hinit, ht⟩ := initTarget_scans ho ha
  have hp : t.params = s.params := ht.kept.params
  obtain ⟨u, hmisses, hu⟩ := scan_passes_misses 3 s.params.divStep (_ :: ds) ht.toAtRest (hp ▸ hm) ht.answers
  obtain ⟨v, hprobe, hv⟩ := scan_probes _ ds hlo hhi hu.mayOpen hu.answers
  rw [hu.kept.params, hp] at hprobe
  obtain ⟨w, hmatch, hw⟩ := onMatch_connects _ hv.mayOpen hv.answers
  have hdone : initTarget s = .done true w := by
    rw [hinit, hcandidates, hmisses, hprobe]
    exact (if_pos hid).trans hmatch
  have hall := (((ht.trans hu).trans hv).setConn .connected).trans hw
  refine execInit_of_transacts hdone hall (by simp only [List.append_assoc]) ?_
  simp only [List.length_append, missEvents_length, haltEvents, probeEvents, matchEvents, List.length_cons,
    List.length_nil]
  omega

/-- Settles O28: the candidates are exactly as many as the misses. -/
theorem initFailsWhenEveryDividerMisses : Obligations.InitFailsWhenEveryDividerMisses := by
  intro s misses rest hlegal ho hlast hexhausted hm ha
  rw [List.append_assoc] at ha
  have hcount : candidateCount s.params = misses.length := by
    have htried := (lt_candidateCount_iff hlegal (misses.length - 1)).mpr hlast
    have hnoMore := (lt_candidateCount_iff hlegal misses.length).not.mpr (Nat.not_le.mpr hexhausted)
    omega
  obtain ⟨t, hinit, ht⟩ := initTarget_scans ho ha
  have hp : t.params = s.params := ht.kept.params
  obtain ⟨u, hmisses, hu⟩ := scan_passes_misses 3 s.params.divStep [] ht.toAtRest (hp ▸ hm) ht.answers
  rw [List.append_nil] at hmisses
  have hdone : initTarget s = .done false (u.setConn .disconnected) := by
    rw [hinit, candidates_eq_range', hcount]
    exact hmisses
  refine execInit_of_transacts hdone ((ht.trans hu).setConn .disconnected) (by simp only [List.append_assoc]) ?_
  simp only [List.length_append, missEvents_length, haltEvents, List.length_cons, List.length_nil]
  omega

/-- Settles O56: an `init` that hands back a result came to its end, so its first write was not refused. -/
theorem initEndsConnectedOrDisconnected : Obligations.InitEndsConnectedOrDisconnected := by
  intro s t success hret hx ht
  obtain rfl := Host.Outcome.next.inj hx
  have hresult := addsNoInitResult_effects.initTarget s success
  cases hr : initTarget s with
  | stopped e u =>
    rw [hr] at ht hresult
    cases hret.symm.trans (hresult ht)
  | done ok u =>
    rw [hr] at ht
    obtain rfl : ok = success := Ret.initResult.inj ht
    have hmay : s.mayRun .writeFirst = true := by
      by_contra hrefused
      cases hr.symm.trans (initTarget_refused (Bool.eq_false_iff.mpr hrefused))
    have ho := State.mayOpen_of_writeFirst hmay
    obtain ⟨-, hconn, hclosed⟩ := (initTarget_ends ho).of_done hr
    have hrst := (initTarget_deasserts ho).of_done hr
    exact ⟨hconn, hrst, hclosed⟩

end

section
/-! PROOFS. The statements about the command dispatcher (45_command_dispatcher.md): what each host command does and
replies, which host bytes it reads, and where the block stands between two of them. -/

namespace Sys2Proof

/-! ### Fields that the host stream cuts short (R150, R154) -/

/-- Fewer digits than the address and the count have: the reader waits in one field or the other. -/
theorem decodeBlock_short (make : Config.Address → Word → Instr) {digits : List Byte}
    (hd : ∀ d ∈ digits, hexValue d ≠ none) (hl : digits.length < 8) : decodeBlock make digits = .dry := by
  by_cases h : digits.length < 4
  · rw [decodeBlock, readHex, hexFrom_short hd h]
    rfl
  · obtain ⟨a, ha⟩ := hexFrom_enough (v := 0) hd (Nat.le_of_not_lt h) []
    rw [List.append_nil, List.append_nil] at ha
    have hcount : readHex 4 (digits.drop 4) = .dry :=
      hexFrom_short (fun d hm => hd d (List.mem_of_mem_drop hm)) (by rw [List.length_drop]; omega)
    rw [decodeBlock, readHex, ha]
    simp only [HexRead.next, hcount]

/-- Behind `r`, `R` or `W`, fewer digits than the fields need are no command yet (R150). -/
theorem decode_short {verb : Byte} {digits : List Byte} (h : Machine.PartOfFields verb digits) :
    decode (verb :: digits) = .dry := by
  obtain ⟨hd, ⟨rfl, hl⟩ | ⟨rfl | rfl, hl⟩⟩ := h
  · rw [decode_r, readHex, hexFrom_short hd hl]
    rfl
  · rw [decode_R, decodeBlock_short _ hd hl]
  · rw [decode_W, decodeBlock_short _ hd hl]

namespace Machine

/-! ### The step of a block that no caller uses (R152, R153) -/

/-- The banner check, with R152's condition written out. -/
theorem bannerCheck_eq (s : State) : bannerCheck s = { s with
    presence := s.presence.tail, draws := s.draws + 1, greeted := s.present
    hostOut := if s.present = true ∧ s.greeted = false then s.hostOut ++ [.banner] else s.hostOut } := by
  simp [bannerCheck]

section hostDriven

variable {s : State}

theorem step_command {i : Instr} {rest : List Byte} (hb : s.blocked = .running) (hc : s.calls = [])
    (hd : decode s.hostIn = .command i rest) : step s = exec i { bannerCheck s with hostIn := rest } := by
  simp only [step, hb, fetch, hc, fetchCommand, hd]

theorem step_dry (hb : s.blocked = .running) (hc : s.calls = []) (hd : decode s.hostIn = .dry) :
    step s = .next { bannerCheck s with hostIn := [], blocked := .inHostGet } := by
  simp only [step, hb, fetch, hc, fetchCommand, hd]

theorem step_inHostGet (hb : s.blocked = .inHostGet) : step s = .fault .hostStreamDry := by
  rw [step, hb]

end hostDriven

/-! ### Command boundaries (R163) -/

theorem State.atCommandBoundary_iff (s : State) : s.atCommandBoundary = true ↔
    (s.txn = .idle ∨ s.txn = .closed) ∧ (s.conn = .disconnected ∨ s.conn = .connected) := by
  simp only [State.atCommandBoundary, Bool.and_eq_true, Bool.or_eq_true, beq_iff_eq]

theorem State.dispatcherInvariant_iff (s : State) : s.dispatcherInvariant = true ↔
    s.calls = [] ∧ (s.blocked = .running → s.atCommandBoundary = true) := by
  rw [State.dispatcherInvariant, Bool.and_eq_true, List.isEmpty_iff, Bool.or_eq_true, bne_iff_ne, ← imp_iff_not_or]

section boundary

variable {s : State}

theorem cmdInit_ends_atCommandBoundary (h : s.mayOpen) :
    (cmdInit s).Ends Hangs fun _ t => t.atCommandBoundary = true :=
  (initTarget_ends h).andThen fun success t ⟨_, hconn, hclosed⟩ => by
    refine (State.atCommandBoundary_iff _).mpr ⟨.inr hclosed, ?_⟩
    cases success with
    | true => exact .inr hconn
    | false => exact .inl hconn

theorem cmdShow_closes (h : s.mayOpen) : (cmdShow s).Ends Hangs fun _ t => t.txn = .closed :=
  (readSingleWord_ends _ h).andThen fun _ _ ⟨_, hclosed⟩ => hclosed

theorem cmdReadSome_closes (a : Word) (n : Nat) (h : s.mayOpen) :
    (cmdReadSome a n s).Ends Hangs fun _ t => t.txn = .closed :=
  (readFirst_ends a h.readFirst).andThen fun v t ⟨_, ht⟩ =>
    (readRest_ends (s := t.put (.text (hex2 v))) _ ht).andThen fun _ _ ⟨hu, _⟩ =>
      (finishReading_ends hu).andThen fun _ _ ⟨_, hclosed⟩ => hclosed

theorem cmdWriteSome_closes (a : Word) (n : Nat) (h : s.mayOpen) :
    (cmdWriteSome a n s).Ends HangsOrBadDigit fun _ t => t.txn = .closed :=
  (payloadByte_ends s).andThen fun v t ⟨_, ht, hp⟩ =>
    have hopen : t.mayOpen := fun he => ht ▸ h (hp ▸ he)
    (writeFirst_ends a v hopen.writeFirst).orBadDigit.andThen fun _ _ ⟨_, hu⟩ =>
      (writeRest_ends _ hu).andThen fun _ _ ⟨hw, _⟩ =>
        (finishWriting_ends hw).orBadDigit.andThen fun _ _ ⟨_, hclosed⟩ => hclosed

/-- Of the commands only `i` and `r` write `conn` (R15), so for another one `txn` decides. -/
theorem State.atCommandBoundary_of_txn {i : Instr} {t : State} (hs : s.atCommandBoundary = true)
    (hx : exec i s = .next t) (ht : t.txn = .idle ∨ t.txn = .closed) (hcmd : i ≠ .cmdInit := by nofun)
    (hreset : ∀ f, i ≠ .cmdReset f := by nofun) (hinit : i ≠ .init := by nofun) : t.atCommandBoundary = true := by
  obtain ⟨-, hconn⟩ := s.atCommandBoundary_iff.mp hs
  rw [State.atCommandBoundary_iff, (lineKept_effects.exec hinit hcmd hreset hx).conn]
  exact ⟨ht, hconn⟩

/-- A host command that runs from a command boundary to its end, ends at one. -/
theorem exec_ends_atCommandBoundary {i : Instr} {t : State} (hi : i.isHostCommand = true)
    (hs : s.atCommandBoundary = true) (hx : exec i s = .next t) (hb : t.blocked = .running) :
    t.atCommandBoundary = true := by
  obtain ⟨htxn, hconn⟩ := s.atCommandBoundary_iff.mp hs
  have hopen : s.mayOpen := fun _ => htxn
  cases i with
  | cmdInit =>
    cases hx
    obtain ⟨_, hends⟩ := (cmdInit_ends_atCommandBoundary hopen).of_running hb
    exact hends
  | cmdReset flag =>
    cases hx
    rw [State.atCommandBoundary_iff, cmdReset]
    split
    · exact ⟨htxn, .inl rfl⟩
    · exact ⟨htxn, hconn⟩
  | cmdShow =>
    refine State.atCommandBoundary_of_txn hs hx (.inr ?_)
    cases hx
    obtain ⟨_, hclosed⟩ := (cmdShow_closes hopen).of_running hb
    exact hclosed
  | cmdRead a n =>
    refine State.atCommandBoundary_of_txn hs hx ?_
    cases hx
    by_cases hn : n = 0
    · subst hn
      exact htxn
    · rw [cmdRead, if_neg hn] at hb ⊢
      obtain ⟨_, hclosed⟩ := (cmdReadSome_closes a n.toNat hopen).of_running hb
      exact .inr hclosed
  | cmdWrite a n =>
    refine State.atCommandBoundary_of_txn hs hx ?_
    rw [exec, execCmdWrite, cmdWrite] at hx
    split at hx
    next =>
      cases hx
      exact htxn
    next => exact .inr ((cmdWriteSome_closes a n.toNat hopen).of_outcome hx hb)
  | cmdOther verb =>
    cases hx
    exact (State.atCommandBoundary_iff _).mpr ⟨htxn, hconn⟩
  | _ => cases hi

end boundary

/-! ### Replies (R74, R151, R161) -/

/-- Several HostPuts in a row (R151). -/
def State.puts (s : State) (ps : List Put) : State := { s with hostOut := s.hostOut ++ ps }

theorem State.puts_nil (s : State) : s.puts [] = s := by
  rw [State.puts, List.append_nil]

theorem State.puts_puts (s : State) (ps qs : List Put) : (s.puts ps).puts qs = s.puts (ps ++ qs) := by
  simp only [State.puts, List.append_assoc]

theorem State.put_eq_puts (s : State) (p : Put) : s.put p = s.puts [p] := rfl

theorem State.emitStatus_eq_puts (s : State) (c : Byte) : s.emitStatus c = s.puts [.text [c], .eol] :=
  s.puts_puts [.text [c]] [.eol]

theorem State.emitDiag_eq_puts (s : State) (c : DiagContext) : s.emitDiag c = s.puts [.diag c, .eol] :=
  s.puts_puts [.diag c] [.eol]

theorem cmdOther_eq_puts (verb : Byte) (s : State) :
    cmdOther verb s = s.puts [.text lineQuestion, .eol, .diag (.unrecognized verb), .eol] := by
  rw [cmdOther, State.emitStatus_eq_puts, State.emitDiag_eq_puts, State.puts_puts]
  rfl

/-- The bytes of several HostPuts. -/
theorem State.puts_replyBytes (s : State) (ps : List Put) :
    (s.puts ps).replyBytes = s.replyBytes ++ ps.flatMap (Put.bytes s.params) :=
  State.replyBytes_append rfl rfl

/-- Where calls leave the replies and the parameters alone, the host has received the same bytes. -/
theorem State.KeptByL1.replyBytes {s t : State} (h : s.KeptByL1 t) : t.replyBytes = s.replyBytes := by
  rw [State.replyBytes, State.replyBytes, h.hostOut, h.params]

/-! ### `init` called directly and as `i` (R140, R155) -/

/-- Two runs that end the same way have both returned or have both been stopped. -/
theorem Res.Same.cases {α : Type} {Q : State → State → Prop} {r r' : Res α} (h : Res.Same Q r r') :
    (∃ a s t, r = .done a s ∧ r' = .done a t ∧ Q s t) ∨ (∃ e s t, r = .stopped e s ∧ r' = .stopped e t ∧ Q s t) := by
  cases r with
  | done a s =>
    cases r' with
    | done b t =>
      obtain ⟨rfl, hq⟩ := h
      exact .inl ⟨a, s, t, rfl, rfl, hq⟩
    | stopped f t => exact h.elim
  | stopped e s =>
    cases r' with
    | done b t => exact h.elim
    | stopped f t =>
      obtain ⟨rfl, hq⟩ := h
      exact .inr ⟨e, s, t, rfl, rfl, hq⟩

/-- What an L1 operation keeps is kept, but for `conn`. -/
def State.KeptButConn (s t : State) : Prop := (s.setConn t.conn).KeptByL1 t

theorem State.KeptByL1.butConn {s t : State} (h : s.KeptByL1 t) : s.KeptButConn t := { h with conn := rfl }

theorem State.KeptButConn.trans {s t u : State} (h : s.KeptButConn t) (k : t.KeptButConn u) : s.KeptButConn u :=
  have h' : (s.setConn u.conn).KeptByL1 (t.setConn u.conn) := { h with conn := rfl }
  h'.trans k

theorem State.setConn_keptButConn (s : State) (c : Conn) : s.KeptButConn (s.setConn c) := .refl (s.setConn c)

section init

variable {s : State}

theorem onMatch_keeps (d : Nat) (h : s.mayOpen) : (onMatch d s).Ends Hangs fun _ t => s.KeptButConn t :=
  (writeSingleByte_ends _ _ h).andThen fun _ t ⟨hk, ht⟩ =>
    (writeSingleQuad_ends (s := t.setConn .connected) _ _ (State.mayOpen_of_txn ht)).andThen fun _ _ ⟨hk', _⟩ =>
      (hk.butConn.trans (t.setConn_keptButConn .connected)).trans hk'.butConn

theorem scan_keeps (ds : List Nat) (h : s.txn = .closed) : (scan ds s).Ends Hangs fun _ t => s.KeptButConn t := by
  induction ds generalizing s with
  | nil => exact s.setConn_keptButConn .disconnected
  | cons d ds ih =>
    refine (writeSingleByte_ends _ _ (State.mayOpen_of_txn h)).andThen fun _ t ⟨hk, ht⟩ => ?_
    refine ((readSingleWord_ends _ (State.mayOpen_of_txn ht)).kept hk).andThen fun id u ⟨hk, hu⟩ => ?_
    have hinit : (if id = Config.idExpect then onMatch d u else scan ds u).Ends Hangs fun _ t => u.KeptButConn t := by
      split
      · exact onMatch_keeps d (State.mayOpen_of_txn hu)
      · exact ih hu
    exact hinit.imp fun _ _ => hk.butConn.trans

/-- Behind its reset pulse, an `init` that comes to its end keeps what an L1 operation keeps, but for `conn`. -/
theorem initTarget_keeps (h : s.mayOpen) : (initTarget s).Ends Hangs fun _ t => (resetPulse s).KeptButConn t :=
  (writeSingleByte_ends (s := (resetPulse s).setConn .resetting) _ _ h).andThen fun _ t ⟨hk, ht⟩ =>
    (scan_keeps (s := t.setConn .scanningSpeed) _ ht).imp fun _ _ =>
      (((resetPulse s).setConn_keptButConn .resetting).trans
        (hk.butConn.trans (t.setConn_keptButConn .scanningSpeed))).trans

/-- An `init` that comes to its end hands back nothing on its way and replies nothing. -/
theorem initTarget_done {success : Bool} {t : State} (h : initTarget s = .done success t) :
    t.ret = s.ret ∧ t.hostOut = s.hostOut := by
  have hmay : s.mayRun .writeFirst = true := by
    by_contra hrefused
    cases h.symm.trans (initTarget_refused (Bool.eq_false_iff.mpr hrefused))
  have hkept := (initTarget_keeps (State.mayOpen_of_writeFirst hmay)).of_done h
  exact ⟨hkept.ret, hkept.hostOut⟩

end init

/-- No effect of an `init` is a HostPut. -/
theorem hostOut_initEffects : InitEffects fun s t => t.hostOut = s.hostOut where
  refl _ := rfl
  trans h k := k.trans h
  called _ _ _ _ _ := rfl
  hung _ _ _ _ := rfl
  decoded _ := rfl
  txn _ _ := rfl
  rejected _ _ _ := rfl
  rst _ _ := rfl
  delay _ _ := rfl
  conn _ _ := rfl

/-- An `init` that is stopped, called directly or as `i`, ends in the state it was stopped in. -/
theorem exec_initTarget_stopped {s t : State} {e : Stop} (h : initTarget s = .stopped e t) :
    exec .init s = .next t ∧ exec .cmdInit s = .next t := by
  rw [exec, execInit, exec, execCmdInit, cmdInit, h]
  exact ⟨rfl, rfl⟩

/-! ### `R` and `W` with a count above 0 (R158, R159) -/

section count

variable {n : Word} {k : Nat}

theorem ne_zero_of_lt_toNat (h : k < n.toNat) : n ≠ 0 := by
  rintro rfl
  exact Nat.not_lt_zero k h

theorem exec_cmdRead_of_count (a : Word) (s : State) (h : k < n.toNat) :
    exec (.cmdRead a n) s = .next (cmdReadSome a n.toNat s).state := by
  rw [exec, execCmdRead, cmdRead, if_neg (ne_zero_of_lt_toNat h)]

theorem exec_cmdWrite_of_count (a : Word) (s : State) (h : k < n.toNat) :
    exec (.cmdWrite a n) s = (cmdWriteSome a n.toNat s).outcome := by
  rw [exec, execCmdWrite, cmdWrite, if_neg (ne_zero_of_lt_toNat h)]

end count

/-! ### Calls behind host bytes and replies (R158, R159) -/

/-- What completed L1 operations change. -/
theorem State.KeptByL1.eq_of {s t : State} (h : s.KeptByL1 t) {x : Txn} {pos draws : Nat} {trace : List Event}
    {answers : List Answer} (hx : t.txn = x) (hpos : t.inPos = pos) (htrace : t.trace = trace)
    (hanswers : t.answers = answers) (hdraws : t.draws = draws) :
    t = { s with
      outBuf := t.outBuf, outCur := t.outCur, inBuf := t.inBuf, inLen := t.inLen, inPos := pos, txn := x
      trace := trace, answers := answers, draws := draws } :=
  State.ext_fields rfl rfl rfl rfl hpos h.conn hx h.rst h.greeted h.params h.hostIn h.presence hanswers h.calls
    h.hostOut htrace h.ret h.blocked hdraws

/-- The host bytes still to come (R150). -/
def State.setHostIn (s : State) (more : List Byte) : State := { s with hostIn := more }

/-- The block waiting in HostGet with every byte read (R150). -/
def State.starved (s : State) : State := { s with hostIn := [], blocked := .inHostGet }

namespace State.MakesCalls

variable {s t u : State} {n m : Nat} {events : List Event} {c : List Bool} {rest : List Answer}

/-- No call reads or writes a reply (R151). -/
theorem puts (h : s.MakesCalls t n m events rest) (ps : List Put) :
    (s.puts ps).MakesCalls (t.puts ps) n m events rest where
  kept := { h.kept with hostOut := congrArg (· ++ ps) h.kept.hostOut }
  above := ⟨h.above.out, h.above.inb⟩
  trace := h.trace
  answers := h.answers
  draws := h.draws
  inPos := h.inPos

/-- No call reads or writes the host stream (R150). -/
theorem setHostIn (h : s.MakesCalls t n m events rest) (more : List Byte) :
    (s.setHostIn more).MakesCalls (t.setHostIn more) n m events rest where
  kept := { h.kept with hostIn := rfl }
  above := ⟨h.above.out, h.above.inb⟩
  trace := h.trace
  answers := h.answers
  draws := h.draws
  inPos := h.inPos

theorem readFirst (h : s.MakesCalls t n m events (.completes c :: rest)) (a : Word) (hmay : t.mayRun .readFirst = true)
    (hc : c.length = 100) (hn : 204 ≤ n) (hm : 100 ≤ m) :
    ∃ u, readFirst a t = .done (byteOf s.params.truncPolicy c) u ∧ u.txn = .reading ∧
      s.MakesCalls u n m (events ++ [.wire (frameRF a) c]) rest := by
  obtain ⟨u, hdone, hx, hcall, -⟩ := readFirst_makesCall a hmay (State.nextAnswer_cons h.answers)
  have hcalls := h.call hcall (by rwa [frameRF_length]) hm
  rw [State.readByte_eq, h.kept.params, capture_of_length hc] at hdone
  rw [capture_of_length hc] at hcalls
  exact ⟨u, hdone, hx, hcalls⟩

theorem readNext (h : s.MakesCalls t n m events (.completes c :: rest)) (hx : t.txn = .reading)
    (hc : c.length = 100) (hn : 4 ≤ n) (hm : 100 ≤ m) :
    ∃ u, readNext t = .done (byteOf s.params.truncPolicy c) u ∧ u.txn = .reading ∧
      s.MakesCalls u n m (events ++ [.wire frameRN c]) rest := by
  obtain ⟨u, hdone, hxu, hcall, -⟩ :=
    readNext_makesCall (State.mayRun_of_txn .reading hx rfl) (State.nextAnswer_cons h.answers)
  have hcalls := h.call hcall (by rwa [frameRN_length]) hm
  rw [State.readByte_eq, h.kept.params, capture_of_length hc] at hdone
  rw [capture_of_length hc] at hcalls
  exact ⟨u, hdone, hxu.trans hx, hcalls⟩

end State.MakesCalls

/-! ### `R` where its calls complete (R158) -/

/-- The loop of `R`: one call for each byte, whose two characters are put as it is read. -/
theorem readRest_prints {s t : State} {events : List Event} {caps : List (List Bool)} {rest : List Answer}
    (h : s.MakesCalls t 204 100 events (completing caps ++ rest)) (hx : t.txn = .reading)
    (hcaps : ∀ c ∈ caps, c.length = 100) :
    ∃ u, readRest caps.length t = .done () u ∧ u.txn = .reading ∧
      (s.puts (bytePuts (caps.map (byteOf s.params.truncPolicy)))).MakesCalls u 204 100
        (events ++ caps.map fun c => .wire frameRN c) rest := by
  induction caps generalizing s t events with
  | nil =>
    refine ⟨t, rfl, hx, ?_⟩
    change (s.puts []).MakesCalls t 204 100 (events ++ []) rest
    rw [State.puts_nil, List.append_nil]
    exact h
  | cons c caps ih =>
    obtain ⟨hc, hcaps⟩ := List.forall_mem_cons.mp hcaps
    obtain ⟨u, hread, hxu, hu⟩ := h.readNext hx hc (by decide) le_rfl
    obtain ⟨w, hrest, hxw, hw⟩ := ih (hu.puts [.text (hex2 (byteOf s.params.truncPolicy c))]) hxu hcaps
    refine ⟨w, ?_, hxw, ?_⟩
    · rw [List.length_cons, readRest, hread, Res.andThen_done]
      exact hrest
    · rw [State.puts_puts, List.append_assoc, hex2_eq_lowerPair] at hw
      exact hw

theorem readFrames_length (a : Word) (caps : List (List Bool)) : (readFrames a caps).length = caps.length := by
  cases caps <;> simp [readFrames]

/-- `R` where its calls complete: RF, then RN for each further byte, then END. -/
theorem cmdReadSome_prints {s : State} (a : Word) {caps : List (List Bool)} {c : List Bool} {rest : List Answer}
    (ho : s.mayOpen) (hne : caps ≠ []) (hcaps : ∀ c ∈ caps, c.length = 100)
    (ha : s.answers = completing (caps ++ [c]) ++ rest) :
    ∃ t, cmdReadSome a caps.length s = .done () (t.puts [.eol, .text lineS, .eol]) ∧ t.txn = .closed ∧
      EndsTransaction s t 204 100 ∧
      (s.puts (bytePuts (caps.map (byteOf s.params.truncPolicy)))).MakesCalls t 204 100
        (readFrames a caps ++ [.wire frameEND []]) rest := by
  obtain ⟨c0, caps, rfl⟩ := List.exists_cons_of_ne_nil hne
  obtain ⟨hc0, hcaps⟩ := List.forall_mem_cons.mp hcaps
  have ha' : s.answers = .completes c0 :: (completing caps ++ .completes c :: rest) := by
    rw [ha]
    simp [completing]
  obtain ⟨t, hfirst, hx, ht⟩ := (State.MakesCalls.none 204 100 ha').readFirst a ho.readFirst hc0 le_rfl le_rfl
  obtain ⟨u, hloop, hx, hu⟩ := readRest_prints (ht.puts [.text (hex2 (byteOf s.params.truncPolicy c0))]) hx hcaps
  obtain ⟨w, hend, hx, hw, htransaction⟩ := hu.finishReading hx (by decide)
  refine ⟨w, ?_, hx, htransaction, ?_⟩
  · rw [cmdReadSome, hfirst, Res.andThen_done, List.length_cons, Nat.add_sub_cancel, State.put_eq_puts, hloop,
      Res.andThen_done, hend, Res.andThen_done, State.put_eq_puts, State.emitStatus_eq_puts, State.puts_puts]
    rfl
  · rw [State.puts_puts, hex2_eq_lowerPair] at hw
    exact hw

/-! ### `W` where its calls complete (R159) -/

section payload

variable {s t : State} {payload : List ((Byte × Byte) × Byte)} {more : List Byte} {cs : List (List Bool)}
  {rest : List Answer}

theorem payloadByte_payload {p : (Byte × Byte) × Byte} (hp : Spells p.1.1 p.1.2 p.2)
    (hin : s.hostIn = payloadText (p :: payload) ++ more) :
    payloadByte s = .done p.2 (s.setHostIn (payloadText payload ++ more)) := payloadByte_spelled hp hin

/-- The loop of `W` sends a payload; its further rounds find what follows. -/
theorem writeRest_sends {events : List Event} (h : s.MakesCalls t 250 0 events (completing cs ++ rest))
    (hx : t.txn = .writing) (hp : SpelledPayload payload) (hcs : cs.length = payload.length)
    (hin : t.hostIn = payloadText payload ++ more) (k : Nat) :
    ∃ u, writeRest (payload.length + k) t = writeRest k u ∧ u.txn = .writing ∧
      (s.setHostIn more).MakesCalls u 250 0 (events ++ payload.map fun p => .wire (frameWN p.2) []) rest := by
  induction payload generalizing s t events cs with
  | nil =>
    obtain rfl := List.length_eq_zero_iff.mp hcs
    obtain rfl : t.hostIn = more := hin
    refine ⟨t, by rw [List.length_nil, Nat.zero_add], hx, ?_⟩
    rw [List.map_nil, List.append_nil]
    exact h.setHostIn t.hostIn
  | cons p payload ih =>
    obtain ⟨c, cs, rfl⟩ := List.exists_cons_of_length_eq_add_one hcs
    obtain ⟨hspelled, hp⟩ : Spells p.1.1 p.1.2 p.2 ∧ SpelledPayload payload := List.forall_mem_cons.mp hp
    obtain ⟨u, hsend, hxu, hu⟩ := (h.setHostIn (payloadText payload ++ more)).writeNext p.2 hx (by decide)
    obtain ⟨w, hrest, hxw, hw⟩ := ih hu hxu hp (Nat.succ.inj hcs) hu.kept.hostIn
    refine ⟨w, ?_, hxw, ?_⟩
    · rw [List.length_cons, Nat.add_right_comm, writeRest, payloadByte_payload hspelled hin, Res.andThen_done, hsend,
        Res.andThen_done, hrest]
    · rw [List.append_assoc] at hw
      exact hw

/-- `W` up to the rounds behind a payload: WF with the first byte, then WN for each further one. -/
theorem cmdWriteSome_sends (a : Word) (ho : s.mayOpen) (hne : payload ≠ []) (hp : SpelledPayload payload)
    (hcs : cs.length = payload.length) (hin : s.hostIn = payloadText payload ++ more)
    (ha : s.answers = completing cs ++ rest) (k : Nat) :
    ∃ u, cmdWriteSome a (payload.length + k) s =
        ((writeRest k u).andThen fun _ t => (finishWriting t).andThen fun _ t => .done () (t.emitStatus charS)) ∧
      u.txn = .writing ∧ (s.setHostIn more).MakesCalls u 250 0 (payloadFrames a (payload.map Prod.snd)) rest := by
  obtain ⟨p, payload, rfl⟩ := List.exists_cons_of_ne_nil hne
  obtain ⟨c, cs, rfl⟩ := List.exists_cons_of_length_eq_add_one hcs
  obtain ⟨hspelled, hp⟩ : Spells p.1.1 p.1.2 p.2 ∧ SpelledPayload payload := List.forall_mem_cons.mp hp
  have hnone := (State.MakesCalls.none 250 0 ha).setHostIn (payloadText payload ++ more)
  obtain ⟨t, hsend, hx, ht⟩ := hnone.writeFirst a p.2 (State.mayOpen.writeFirst ho) le_rfl
  obtain ⟨u, hrest, hxu, hu⟩ := writeRest_sends ht hx hp (Nat.succ.inj hcs) ht.kept.hostIn k
  refine ⟨u, ?_, hxu, ?_⟩
  · rw [cmdWriteSome, payloadByte_payload hspelled hin, Res.andThen_done, hsend, Res.andThen_done, List.length_cons,
      Nat.add_right_comm, Nat.add_sub_cancel, hrest]
  · have hframes : payloadFrames a ((p :: payload).map Prod.snd) =
        .wire (frameWF a p.2) [] :: payload.map fun p => .wire (frameWN p.2) [] := by
      simp [payloadFrames, payloadSent]
    rw [hframes]
    exact hu

theorem payloadFrames_length (a : Word) (payload : List Byte) : (payloadFrames a payload).length = payload.length := by
  cases payload <;> simp [payloadFrames, payloadSent]

/-- Fewer than two digits are no payload byte: the block waits for the rest (R150). -/
theorem payloadByte_starved (hd : ∀ d ∈ s.hostIn, hexValue d ≠ none) (hl : s.hostIn.length < 2) :
    payloadByte s = .stopped .hostDry s.starved := by
  rw [payloadByte, hostHex, readHex, hexFrom_short hd hl]
  rfl

end payload

end Machine
end Sys2Proof

/-! ### The obligations -/

open Sys2Proof Sys2Proof.Machine

/-- Settles O52: a step is a host command run from a command boundary, or it leaves the block waiting in HostGet. -/
theorem everyStepEndsAtACommandBoundary : Obligations.EveryStepEndsAtACommandBoundary := by
  intro s t hs hstep
  rw [State.dispatcherInvariant_iff] at hs ⊢
  obtain ⟨hcalls, hboundary⟩ := hs
  refine ⟨List.suffix_nil.mp (hcalls ▸ (onlyAppends_effects.step hstep).calls), fun hb => ?_⟩
  obtain ⟨hrunning, ⟨i, calls, hc, -⟩ | ⟨i, rest, -, hd, hx⟩ | ⟨-, -, rfl⟩⟩ := step_cases hstep
  · cases hcalls.symm.trans hc
  · obtain ⟨-, -, -, hi, -⟩ := decodeTakesExactlyTheCommand _ _ _ hd
    exact exec_ends_atCommandBoundary (s := { bannerCheck s with hostIn := rest }) hi (hboundary hrunning) hx hb
  · cases hb

/-- Settles O29: `init` and `i` are two runs that differ in what was handed back before. -/
theorem initCommandIsInitAndAReply : Obligations.InitCommandIsInitAndAReply := by
  intro s
  have hsame : Res.Same EqualButRet (initTarget s) (initTarget (s.returns .none)) :=
    equalButRet_twoRuns.initTarget ⟨.none, rfl⟩
  rcases hsame.cases with ⟨success, u, _, hi, hinit, r, rfl⟩ | ⟨e, u, _, hi, hinit, r, rfl⟩
  · obtain ⟨hret, hout⟩ := initTarget_done hi
    refine ⟨_, _, exec_completes rfl hinit, execCmdInit_of_done hi hret hout, fun success' ht => ?_,
      fun hno => absurd rfl (hno success)⟩
    obtain rfl : success = success' := Ret.initResult.inj ht
    rw [← hout]
    rfl
  · have hret := addsNoInitResult_effects.initTarget (s.returns .none)
    have hout := hostOut_initEffects.initTarget s
    rw [hinit] at hret
    rw [hi] at hout
    refine ⟨_, u, (exec_initTarget_stopped hinit).1, (exec_initTarget_stopped hi).2, fun success ht => ?_,
      fun _ => ⟨rfl, hout⟩⟩
    cases hret success ht

/-- Settles O30: by the flag. -/
theorem resetCommandDrivesTheLine : Obligations.ResetCommandDrivesTheLine := by
  intro s
  refine ⟨?_, fun flag hflag => ?_⟩
  · rw [exec, execCmdReset, cmdReset, if_pos rfl, State.emitStatus_eq]
    rfl
  · rw [exec, execCmdReset, cmdReset, if_neg hflag, State.emitStatus_eq]
    rfl

/-- Settles O34: four puts and nothing else. -/
theorem unrecognizedVerbRepliesQuestionMark : Obligations.UnrecognizedVerbRepliesQuestionMark := by
  intro s verb
  refine ⟨_, _, diagText s.params.eol (.unrecognized verb), congrArg Host.Outcome.next (cmdOther_eq_puts verb s),
    rfl, rfl, ?_, fun heol => not_isInfix_diagText heol _, rfl⟩
  rw [State.puts_replyBytes]
  simp [Put.bytes, lineQuestion, charHash]

/-- Settles O31: `readSingleWord_completes` and then four puts. -/
theorem showCommandReportsTheIdentity : Obligations.ShowCommandReportsTheIdentity := by
  intro s c0 c1 c2 rest ho ha
  obtain ⟨t, hdone, hend, hkept, hx, hanswers, hdraws, htrace⟩ := readSingleWord_completes Config.idAddr ho ha
  generalize identityOf s.params.truncPolicy _ _ = id at hdone ⊢
  have heq := congrArg (State.puts · [.diag (.identity id), .eol, .text lineS, .eol])
    (hkept.eq_of hx rfl htrace hanswers hdraws)
  refine ⟨t.puts _, _, diagText s.params.eol (.identity id), ?_, hend, rfl, ?_,
    fun heol => not_isInfix_diagText heol _, rfl, heq⟩
  · rw [exec, execCmdShow, cmdShow, hdone, Res.andThen_done, Res.state_done, State.emitDiag_eq_puts,
      State.emitStatus_eq_puts, State.puts_puts]
    rfl
  · rw [State.puts_replyBytes, hkept.replyBytes, hkept.params]
    simp [Put.bytes, lineS, charHash]

/-- Settles O32: `cmdReadSome_prints`, and the status line for count 0. -/
theorem readCommandPrintsThePayload : Obligations.ReadCommandPrintsThePayload := by
  refine ⟨fun s a n caps c rest ho hn hlen hcaps ha => ?_, fun s a => ?_⟩
  · have hne : caps ≠ [] := List.length_pos_iff.mp (hlen ▸ hn)
    obtain ⟨t, hdone, hx, hend, hcalls⟩ := cmdReadSome_prints a ho hne hcaps ha
    have heq := congrArg (State.puts · [.eol, .text lineS, .eol])
      (hcalls.kept.eq_of hx rfl hcalls.trace hcalls.answers hcalls.draws)
    refine ⟨t.puts _, bytePuts (caps.map (byteOf s.params.truncPolicy)) ++ [.eol, .text lineS, .eol], ?_, hend, ?_, ?_,
      heq.trans ?_⟩
    · rw [exec_cmdRead_of_count a s hn, ← hlen, hdone, Res.state_done]
    · rw [replyLines_payload, List.flatMap_map]
    · rw [bytePuts, List.map_map]
      rfl
    · simp only [State.puts, List.append_assoc, List.length_append, readFrames_length, hlen]
      rfl
  · rw [exec, execCmdRead, cmdRead, if_pos rfl, State.emitStatus_eq]
    rfl

/-- Settles O33: `cmdWriteSome_sends` with the whole payload, END, and the status line. -/
theorem writeCommandSendsThePayload : Obligations.WriteCommandSendsThePayload := by
  refine ⟨fun s a n payload more cs rest ho hn hlen hp hin hcs ha => ?_, fun s a => ?_⟩
  · have hpayload : payload ≠ [] := List.length_pos_iff.mp (hlen ▸ hn)
    obtain ⟨init, c, rfl⟩ := (List.eq_nil_or_concat' cs).resolve_left (by rintro rfl; cases hcs)
    have hinit : init.length = payload.length := by
      rw [hlen]
      simpa using hcs
    have ha' : s.answers = completing init ++ .completes c :: rest := by
      rw [ha]
      simp [completing]
    obtain ⟨u, hsend, hx, hu⟩ := cmdWriteSome_sends a ho hpayload hp hinit hin ha' 0
    obtain ⟨w, hfinish, hx, hw, hend⟩ := hu.finishWriting hx (by decide)
    have heq := congrArg (State.puts · [.text lineS, .eol])
      (hw.kept.eq_of hx (hw.inPos rfl) hw.trace hw.answers hw.draws)
    refine ⟨w.puts _, ?_, hend, heq.trans ?_⟩
    · rw [exec_cmdWrite_of_count a s hn, ← hlen, ← Nat.add_zero payload.length, hsend, writeRest, Res.andThen_done,
        hfinish, Res.andThen_done, State.emitStatus_eq_puts]
      rfl
    · simp only [List.length_append, payloadFrames_length, List.length_map, hlen, ← List.append_assoc]
      rfl
  · rw [exec, execCmdWrite, cmdWrite, if_pos rfl, State.emitStatus_eq]
    rfl

/-- Settles O36: behind the payload's calls the loop of `W` finds fewer than two digits. -/
theorem starvedWriteCommandWaitsInHostGet : Obligations.StarvedWriteCommandWaitsInHostGet := by
  intro s a n payload tail cs rest ho hn hp htail hin hcs ha
  have hdigits : (∀ d ∈ tail, hexValue d ≠ none) ∧ tail.length < 2 := by
    rcases htail with rfl | ⟨c, v, rfl, hc⟩
    · exact ⟨nofun, Nat.zero_lt_two⟩
    · exact ⟨by simp [hc], Nat.one_lt_two⟩
  have hdry (u : State) (hu : u.hostIn = tail) : payloadByte u = .stopped .hostDry u.starved :=
    payloadByte_starved (hu ▸ hdigits.1) (hu ▸ hdigits.2)
  by_cases hpayload : payload = []
  · subst hpayload
    obtain rfl : s.answers = rest := by
      rw [ha, List.length_eq_zero_iff.mp hcs]
      rfl
    refine ⟨s.starved, ?_, step_inHostGet rfl, ?_⟩
    · rw [exec_cmdWrite_of_count a s hn, cmdWriteSome, hdry s hin]
      rfl
    · rw [if_pos rfl, List.map_nil, payloadFrames, payloadSent, List.map_nil, List.append_nil]
      rfl
  · obtain ⟨k, hk⟩ := Nat.exists_eq_add_of_lt hn
    obtain ⟨u, hsend, hx, hu⟩ := cmdWriteSome_sends a ho hpayload hp hcs hin ha (k + 1)
    have heq := congrArg State.starved (hu.kept.eq_of hx (hu.inPos rfl) hu.trace hu.answers hu.draws)
    refine ⟨_, ?_, step_inHostGet rfl, heq.trans ?_⟩
    · rw [exec_cmdWrite_of_count a s hn, hk, Nat.add_assoc, hsend, writeRest, hdry u hu.kept.hostIn]
      rfl
    · rw [payloadFrames_length, List.length_map, if_neg hpayload]
      rfl

/-- Settles O45: `bannerCheck_eq` in the state that the command runs in. -/
theorem stepRunsTheDecodedCommand : Obligations.StepRunsTheDecodedCommand := by
  intro s i rest hb hc hd
  rw [step_command hb hc hd, bannerCheck_eq]

/-- Settles O47: neither an empty stream nor a part of a command's fields decodes to a command. -/
theorem stepWaitsWhereTheStreamRunsDry : Obligations.StepWaitsWhereTheStreamRunsDry := by
  intro s hb hc hin
  have hdry : decode s.hostIn = .dry := by
    rcases hin with hin | ⟨verb, digits, hin, hfields⟩
    · rw [hin, decode]
    · rw [hin, decode_short hfields]
  refine ⟨_, step_dry hb hc hdry, step_inHostGet rfl, ?_⟩
  rw [bannerCheck_eq]

end

section
/-! PROOFS. The statements about errors and hangs (60_exceptions.md): what an operation leaves whose call never
completes, which inputs are refused, and that a host-driven block meets no SequenceError. -/

namespace Sys2Proof

/-! ### Refused host bytes (R73, R186) -/

/-- The byte that stops a hex field is no digit. -/
theorem hexFrom_eq_bad {v k : Nat} {bytes : List Byte} {bad : Byte} (h : hexFrom v k bytes = .bad bad) :
    hexValue bad = none := by
  induction k generalizing v bytes with
  | zero => cases h
  | succ k ih =>
    cases bytes with
    | nil => cases h
    | cons c bytes =>
      rw [hexFrom] at h
      split at h
      next hc =>
        cases h
        exact hc
      next => exact ih h

namespace Machine

/-- What a HostArgumentError names is no hex digit. -/
def NamesNoDigit (e : Stop) (_ : State) : Prop := ∀ bad, e = .badDigit bad → hexValue bad = none

theorem payloadByte_namesNoDigit (s : State) : (payloadByte s).Ends NamesNoDigit fun _ _ => True := by
  rw [payloadByte, hostHex]
  cases hread : readHex 2 s.hostIn with
  | value v rest => trivial
  | dry => exact nofun
  | bad b =>
    rintro bad ⟨⟩
    exact hexFrom_eq_bad hread

theorem primitive_namesNoDigit (op : Primitive) (build : State → State) (m : Nat) (s : State) :
    (primitive op build m s).Ends NamesNoDigit fun _ _ => True := by
  rw [primitive]
  split
  · rw [transport]
    split
    · exact nofun
    · trivial
  · exact nofun

theorem thenTxn_namesNoDigit {α : Type} {r : Res α} (h : r.Ends NamesNoDigit fun _ _ => True) (x : Txn) :
    (thenTxn r x).Ends NamesNoDigit fun _ _ => True := h.andThen fun _ _ _ => trivial

theorem writeRest_namesNoDigit (n : Nat) (s : State) : (writeRest n s).Ends NamesNoDigit fun _ _ => True := by
  induction n generalizing s with
  | zero => trivial
  | succ n ih =>
    exact (payloadByte_namesNoDigit s).andThen fun _ _ _ =>
      (primitive_namesNoDigit _ _ _ _).andThen fun _ u _ => ih u

theorem cmdWriteSome_namesNoDigit (a : Word) (n : Nat) (s : State) :
    (cmdWriteSome a n s).Ends NamesNoDigit fun _ _ => True :=
  (payloadByte_namesNoDigit s).andThen fun _ _ _ =>
    (thenTxn_namesNoDigit (primitive_namesNoDigit _ _ _ _) _).andThen fun _ u _ =>
      (writeRest_namesNoDigit _ u).andThen fun _ _ _ =>
        (thenTxn_namesNoDigit (primitive_namesNoDigit _ _ _ _) _).andThen fun _ _ _ => trivial

/-- A command's outcome is a next state, or the refusal of the byte that stopped it. -/
theorem Res.Ends.outcome_next_or_refused {r : Res Unit} {post : Unit → State → Prop} (h : r.Ends NamesNoDigit post) :
    (∃ t, r.outcome = .next t) ∨ ∃ bad, hexValue bad = none ∧ r.outcome = .refused (.hostArgumentError bad) := by
  cases r with
  | done a t => exact .inl ⟨t, rfl⟩
  | stopped e t =>
    cases e with
    | badDigit bad => exact .inr ⟨bad, h bad rfl, rfl⟩
    | stall => exact .inl ⟨t, rfl⟩
    | hostDry => exact .inl ⟨t, rfl⟩
    | sequenceError => exact .inl ⟨t, rfl⟩

/-! ### A primitive whose call never completes (R181) -/

section hangs

variable {s : State}

theorem readFirst_hangs (a : Word) (h : s.mayRun .readFirst = true) (ha : s.nextAnswer = .stalls) :
    readFirst a s = .stopped .stall (s.hung (frameRF a)) := by rw [readFirst_eq, if_pos h, ha]

theorem readNext_hangs (h : s.mayRun .readNext = true) (ha : s.nextAnswer = .stalls) :
    readNext s = .stopped .stall (s.hung frameRN) := by rw [readNext_eq, if_pos h, ha]

theorem finishReading_hangs (h : s.mayRun .finishReading = true) (ha : s.nextAnswer = .stalls) :
    finishReading s = .stopped .stall (s.hung frameEND) := by rw [finishReading_eq, if_pos h, ha]

theorem writeFirst_hangs (a : Word) (v : Byte) (h : s.mayRun .writeFirst = true) (ha : s.nextAnswer = .stalls) :
    writeFirst a v s = .stopped .stall (s.hung (frameWF a v)) := by rw [writeFirst_eq, if_pos h, ha]

theorem writeNext_hangs (v : Byte) (h : s.mayRun .writeNext = true) (ha : s.nextAnswer = .stalls) :
    writeNext v s = .stopped .stall (s.hung (frameWN v)) := by rw [writeNext_eq, if_pos h, ha]

theorem finishWriting_hangs (h : s.mayRun .finishWriting = true) (ha : s.nextAnswer = .stalls) :
    finishWriting s = .stopped .stall (s.hung frameEND) := by rw [finishWriting_eq, if_pos h, ha]

/-- A called operation that is stopped ends in the state it was stopped in. -/
theorem exec_stopped {i : Instr} {α : Type} {r : Res α} {f : α → Ret} {e : Stop} {t : State}
    (hx : exec i s = .next (r.report f)) (hr : r = .stopped e t) : exec i s = .next t := by
  rw [hx, hr, Res.report_stopped]

/-- A called primitive whose one call hangs: its frame stands in out.buf, and nothing else has happened. -/
theorem exec_hangs {i : Instr} {α : Type} {r : Res α} {f : α → Ret} {frame : List Bool} {m : Nat}
    (hx : exec i s = .next (r.report f)) (hcall : ProtocolCall frame m) (hr : r = .stopped .stall (s.hung frame)) :
    ∃ t, exec i s = .next t ∧ t.outBits frame.length = frame ∧
      (∀ k (h : k < Config.bufCap), frame.length ≤ k → t.outBuf[k] = s.outBuf[k]) ∧
      t = { s with
        outBuf := t.outBuf, outCur := frame.length, blocked := .inTransport, answers := s.answers.tail
        draws := s.draws + 1 } :=
  ⟨_, exec_stopped hx hr, appendBits_outBits_of_reset frame s hcall.fits.1,
    (s.hung_keptAbove (m := 0) frame le_rfl hcall.fits.1).out, rfl⟩

end hangs

/-! ### A hung call behind completed ones (R181) -/

/-- What a hung call behind completed ones changes; the engine's answer to it is used up. -/
theorem State.MakesCalls.hung_eq {s t : State} {n m k pos : Nat} {x : Txn} {events : List Event} {rest : List Answer}
    (h : s.MakesCalls t n m events rest) (f : List Bool) (hx : t.txn = x) (hpos : t.inPos = pos)
    (hk : events.length = k) :
    t.hung f = { s with
      outBuf := (t.hung f).outBuf, outCur := (t.hung f).outCur, inBuf := (t.hung f).inBuf, inLen := (t.hung f).inLen
      inPos := pos, txn := x, trace := s.trace ++ events
      blocked := .inTransport, answers := rest.tail, draws := s.draws + k + 1 } :=
  State.ext_fields rfl rfl rfl rfl hpos h.kept.conn hx h.kept.rst h.kept.greeted h.kept.params h.kept.hostIn
    h.kept.presence (congrArg List.tail h.answers) h.kept.calls h.kept.hostOut h.trace h.kept.ret rfl
    (congrArg (· + 1) (hk ▸ h.draws))

/-- Stopped inside the call of `f`, behind the completed calls `events` made from `s` on; `txn` is then `x`. -/
def Res.StallsBehind {α : Type} (r : Res α) (s : State) (f : List Bool) (n m : Nat) (x : Txn) (events : List Event)
    (rest : List Answer) : Prop :=
  ∃ t, r = .stopped .stall (t.hung f) ∧ f.length ≤ n ∧ t.txn = x ∧ s.MakesCalls t n m events (.stalls :: rest)

namespace Res.StallsBehind

variable {α β : Type} {r : Res α} {s : State} {f : List Bool} {n m : Nat} {x : Txn} {events : List Event}
  {rest : List Answer}

theorem andThen (h : r.StallsBehind s f n m x events rest) (g : α → State → Res β) :
    (r.andThen g).StallsBehind s f n m x events rest := by
  obtain ⟨t, rfl, hstalls⟩ := h
  exact ⟨t, rfl, hstalls⟩

/-- What such an operation leaves (R181). -/
theorem leaves (h : r.StallsBehind s f n m x events rest) (hn : n ≤ Config.bufCap) {k : Nat}
    (hk : events.length = k) :
    ∃ t, r = .stopped .stall t ∧ HangsSending s t f n m ∧ (m = 0 → t.inPos = s.inPos) ∧
      t = { s with
        outBuf := t.outBuf, outCur := t.outCur, inBuf := t.inBuf, inLen := t.inLen, inPos := t.inPos, txn := x
        trace := s.trace ++ events
        blocked := .inTransport, answers := rest, draws := s.draws + k + 1 } := by
  obtain ⟨t, hr, hf, hx, ht⟩ := h
  exact ⟨t.hung f, hr, ht.above.hangsSending f hf (hf.trans hn), ht.inPos, ht.hung_eq f hx rfl hk⟩

/-- A write captures nothing, so it leaves in.pos alone. -/
theorem write_leaves (h : r.StallsBehind s f n 0 x events rest) (hn : n ≤ Config.bufCap) {k : Nat}
    (hk : events.length = k) :
    ∃ t, r = .stopped .stall t ∧ HangsSending s t f n 0 ∧
      t = { s with
        outBuf := t.outBuf, outCur := t.outCur, inBuf := t.inBuf, inLen := t.inLen, txn := x
        trace := s.trace ++ events
        blocked := .inTransport, answers := rest, draws := s.draws + k + 1 } := by
  obtain ⟨t, hr, hhangs, hpos, ht⟩ := h.leaves hn hk
  rw [hpos rfl] at ht
  exact ⟨t, hr, hhangs, ht⟩

end Res.StallsBehind

namespace State.MakesCalls

variable {s t : State} {n m : Nat} {events : List Event} {rest : List Answer}

theorem readFirst_stalls (h : s.MakesCalls t n m events (.stalls :: rest)) (a : Word)
    (hmay : t.mayRun .readFirst = true) (hn : 204 ≤ n) :
    (Machine.readFirst a t).StallsBehind s (frameRF a) n m t.txn events rest :=
  ⟨t, Machine.readFirst_stalls a hmay h.answers, by rwa [frameRF_length], rfl, h⟩

theorem readNext_stalls (h : s.MakesCalls t n m events (.stalls :: rest)) (hx : t.txn = .reading) (hn : 4 ≤ n) :
    (Machine.readNext t).StallsBehind s frameRN n m .reading events rest :=
  ⟨t, Machine.readNext_stalls (State.mayRun_of_txn .reading hx rfl) h.answers, by rwa [frameRN_length], hx, h⟩

theorem finishReading_stalls (h : s.MakesCalls t n m events (.stalls :: rest)) (hx : t.txn = .reading) (hn : 50 ≤ n) :
    (Machine.finishReading t).StallsBehind s frameEND n m .reading events rest :=
  ⟨t, Machine.finishReading_stalls (State.mayRun_of_txn .reading hx rfl) h.answers, by rwa [frameEND_length], hx, h⟩

theorem writeFirst_stalls (h : s.MakesCalls t n m events (.stalls :: rest)) (a : Word) (v : Byte)
    (hmay : t.mayRun .writeFirst = true) (hn : 250 ≤ n) :
    (Machine.writeFirst a v t).StallsBehind s (frameWF a v) n m t.txn events rest :=
  ⟨t, Machine.writeFirst_stalls a v hmay h.answers, by rwa [frameWF_length], rfl, h⟩

theorem writeNext_stalls (h : s.MakesCalls t n m events (.stalls :: rest)) (v : Byte) (hx : t.txn = .writing)
    (hn : 50 ≤ n) : (Machine.writeNext v t).StallsBehind s (frameWN v) n m .writing events rest :=
  ⟨t, Machine.writeNext_stalls v (State.mayRun_of_txn .writing hx rfl) h.answers, by rwa [frameWN_length], hx, h⟩

theorem finishWriting_stalls (h : s.MakesCalls t n m events (.stalls :: rest)) (hx : t.txn = .writing) (hn : 50 ≤ n) :
    (Machine.finishWriting t).StallsBehind s frameEND n m .writing events rest :=
  ⟨t, Machine.finishWriting_stalls (State.mayRun_of_txn .writing hx rfl) h.answers, by rwa [frameEND_length], hx, h⟩

end State.MakesCalls

/-! ### Reads whose call after k completed ones stalls (R120, R121, R158) -/

section reads

variable {s : State} {caps : List (List Bool)} {rest : List Answer}

/-- The completed calls of the frames `sent`, as far as there are captures. -/
def readEvents (sent caps : List (List Bool)) : List Event := (sent.zip caps).map fun call => .wire call.1 call.2

theorem readEvents_length {sent : List (List Bool)} (h : caps.length ≤ sent.length) :
    (readEvents sent caps).length = caps.length := by
  rw [readEvents, List.length_map, List.length_zip, Nat.min_eq_right h]

theorem readSingleByte_stalls (a : Word) (ho : s.mayOpen) (hl : caps.length < 2) (hcaps : ∀ c ∈ caps, c.length = 100)
    (ha : s.answers = completing caps ++ .stalls :: rest) :
    (readSingleByte a s).StallsBehind s ([frameRF a, frameEND].getD caps.length []) 204 100
      (if caps = [] then s.txn else .reading) (readEvents [frameRF a, frameEND] caps) rest := by
  have hnone := State.MakesCalls.none 204 100 ha
  match caps with
  | [] => exact (hnone.readFirst_stalls a ho.readFirst le_rfl).andThen _
  | [lo] =>
    obtain ⟨t, hfirst, hx, ht⟩ := hnone.readFirst a ho.readFirst (hcaps lo (by simp)) le_rfl le_rfl
    rw [readSingleByte, hfirst]
    exact (ht.finishReading_stalls hx (by decide)).andThen _
  | _ :: _ :: _ => exact absurd hl (by simp)

theorem readSingleWord_stalls (a : Word) (ho : s.mayOpen) (hl : caps.length < 3) (hcaps : ∀ c ∈ caps, c.length = 100)
    (ha : s.answers = completing caps ++ .stalls :: rest) :
    (readSingleWord a s).StallsBehind s ([frameRF a, frameRN, frameEND].getD caps.length []) 204 100
      (if caps = [] then s.txn else .reading) (readEvents [frameRF a, frameRN, frameEND] caps) rest := by
  have hnone := State.MakesCalls.none 204 100 ha
  match caps with
  | [] => exact (hnone.readFirst_stalls a ho.readFirst le_rfl).andThen _
  | [lo] =>
    obtain ⟨t, hfirst, hx, ht⟩ := hnone.readFirst a ho.readFirst (hcaps lo (by simp)) le_rfl le_rfl
    rw [readSingleWord, hfirst]
    exact (ht.readNext_stalls hx (by decide)).andThen _
  | [lo, hi] =>
    obtain ⟨t, hfirst, hx, ht⟩ := hnone.readFirst a ho.readFirst (hcaps lo (by simp)) le_rfl le_rfl
    obtain ⟨u, hnext, hx, hu⟩ := ht.readNext hx (hcaps hi (by simp)) (by decide) le_rfl
    rw [readSingleWord, hfirst, Res.andThen_done, hnext]
    exact (hu.finishReading_stalls hx (by decide)).andThen _
  | _ :: _ :: _ :: _ => exact absurd hl (by simp)

/-- `R` behind its first byte: the loop's calls and then END, of which the one behind the captures stalls. -/
theorem readRest_stalls {t : State} {events : List Event} {n : Nat}
    (h : s.MakesCalls t 204 100 events (completing caps ++ .stalls :: rest)) (hx : t.txn = .reading)
    (hn : caps.length ≤ n) (hcaps : ∀ c ∈ caps, c.length = 100) (g : Unit → State → Res Unit) :
    ((readRest n t).andThen fun _ u => (finishReading u).andThen g).StallsBehind
      (s.puts (bytePuts (caps.map (byteOf s.params.truncPolicy)))) (if caps.length < n then frameRN else frameEND)
      204 100 .reading (events ++ caps.map fun c => .wire frameRN c) rest := by
  induction caps generalizing s t events n with
  | nil =>
    change Res.StallsBehind _ (s.puts []) _ 204 100 .reading (events ++ []) rest
    rw [State.puts_nil, List.append_nil]
    cases n with
    | zero => exact (h.finishReading_stalls hx (by decide)).andThen _
    | succ n => exact ((h.readNext_stalls hx (by decide)).andThen _).andThen _
  | cons c caps ih =>
    obtain ⟨n, rfl⟩ := Nat.exists_eq_add_one_of_ne_zero (Nat.ne_zero_of_lt hn)
    obtain ⟨hc, hcaps⟩ := List.forall_mem_cons.mp hcaps
    obtain ⟨u, hread, hxu, hu⟩ := h.readNext hx hc (by decide) le_rfl
    have hrest := ih (hu.puts [.text (hex2 (byteOf s.params.truncPolicy c))]) hxu (Nat.le_of_succ_le_succ hn) hcaps
    rw [State.puts_puts, List.append_assoc, hex2_eq_lowerPair] at hrest
    simp only [readRest, hread, Res.andThen_done, List.length_cons, Nat.add_lt_add_iff_right, State.put_eq_puts,
      hex2_eq_lowerPair]
    exact hrest

/-- `R`: the bytes of the completed calls are put, and no more. -/
theorem cmdReadSome_stalls (a : Word) (ho : s.mayOpen) {n : Nat} (hpos : 0 < n) (hn : caps.length ≤ n)
    (hcaps : ∀ c ∈ caps, c.length = 100) (ha : s.answers = completing caps ++ .stalls :: rest) :
    (cmdReadSome a n s).StallsBehind (s.puts (bytePuts (caps.map (byteOf s.params.truncPolicy))))
      (if caps = [] then frameRF a else if caps.length < n then frameRN else frameEND) 204 100
      (if caps = [] then s.txn else .reading) (readFrames a caps) rest := by
  have hnone := State.MakesCalls.none 204 100 ha
  cases caps with
  | nil =>
    change Res.StallsBehind _ (s.puts []) (frameRF a) 204 100 s.txn [] rest
    rw [State.puts_nil, cmdReadSome]
    exact (hnone.readFirst_stalls a ho.readFirst le_rfl).andThen _
  | cons c caps =>
    obtain ⟨n, rfl⟩ := Nat.exists_eq_add_one_of_ne_zero hpos.ne'
    obtain ⟨hc, hcaps⟩ := List.forall_mem_cons.mp hcaps
    obtain ⟨t, hfirst, hx, ht⟩ := hnone.readFirst a ho.readFirst hc le_rfl le_rfl
    have hrest := readRest_stalls (ht.puts [.text (hex2 (byteOf s.params.truncPolicy c))]) hx
      (Nat.le_of_succ_le_succ hn) hcaps fun _ w => .done () ((w.put .eol).emitStatus charS)
    rw [State.puts_puts, hex2_eq_lowerPair] at hrest
    rw [cmdReadSome, hfirst, Res.andThen_done, Nat.add_sub_cancel, State.put_eq_puts, hex2_eq_lowerPair,
      if_neg (List.cons_ne_nil c caps), if_neg (List.cons_ne_nil c caps), List.length_cons]
    simp only [Nat.add_lt_add_iff_right]
    exact hrest

end reads

/-! ### Writes whose call after k completed ones stalls (R122 to R124, R159) -/

section writes

variable {s t : State} {cs : List (List Bool)} {rest : List Answer}

/-- A write composite behind its first byte: WN for each further one, then END. -/
def writeAll : List Byte → State → Res Unit
  | [], s => finishWriting s
  | v :: vs, s => (writeNext v s).andThen fun _ s => writeAll vs s

theorem writeSingleByte_eq (a : Word) (v : Byte) (s : State) :
    writeSingleByte a v s = (writeFirst a v s).andThen fun _ s => writeAll [] s := rfl

theorem writeSingleWord_eq (a v : Word) (s : State) :
    writeSingleWord a v s = (writeFirst a (v.extractLsb' 0 8) s).andThen fun _ s =>
      writeAll [v.extractLsb' 8 8] s := rfl

theorem writeSingleQuad_eq (a : Word) (v : Quad) (s : State) :
    writeSingleQuad a v s = (writeFirst a (v.extractLsb' 0 8) s).andThen fun _ s =>
      writeAll [v.extractLsb' 8 8, v.extractLsb' 16 8, v.extractLsb' 24 8] s := rfl

/-- The first `k` of the frames `sent`, completed: no write captures a bit. -/
def writeEvents (sent : List (List Bool)) (k : Nat) : List Event := (sent.take k).map fun frame => .wire frame []

theorem writeEvents_length {sent : List (List Bool)} {k : Nat} (h : k ≤ sent.length) :
    (writeEvents sent k).length = k := by
  rw [writeEvents, List.length_map, List.length_take, Nat.min_eq_left h]

/-- A write composite behind its first byte: the calls of WN and then END, of which the one behind `cs` stalls. -/
theorem writeAll_stalls {events : List Event} (h : s.MakesCalls t 250 0 events (completing cs ++ .stalls :: rest))
    (hx : t.txn = .writing) {vs : List Byte} (hl : cs.length ≤ vs.length) :
    (writeAll vs t).StallsBehind s ((vs.map frameWN ++ [frameEND]).getD cs.length []) 250 0 .writing
      (events ++ writeEvents (vs.map frameWN ++ [frameEND]) cs.length) rest := by
  induction cs generalizing t events vs with
  | nil =>
    change Res.StallsBehind _ s _ 250 0 .writing (events ++ []) rest
    rw [List.append_nil]
    cases vs with
    | nil => exact h.finishWriting_stalls hx (by decide)
    | cons v vs => exact (h.writeNext_stalls v hx (by decide)).andThen _
  | cons c cs ih =>
    obtain ⟨v, vs, rfl⟩ := List.exists_cons_of_length_pos (Nat.zero_lt_of_lt hl)
    obtain ⟨u, hsend, hxu, hu⟩ := h.writeNext v hx (by decide)
    have hrest := ih hu hxu (Nat.le_of_succ_le_succ hl)
    rw [List.append_assoc] at hrest
    rw [writeAll, hsend]
    exact hrest

/-- A write composite: WF with the first byte, WN for each further one, END. -/
theorem writeFirst_writeAll_stalls (a : Word) (v : Byte) {vs : List Byte} (ho : s.mayOpen)
    (hl : cs.length ≤ vs.length + 1) (ha : s.answers = completing cs ++ .stalls :: rest) :
    ((writeFirst a v s).andThen fun _ t => writeAll vs t).StallsBehind s
      ((frameWF a v :: (vs.map frameWN ++ [frameEND])).getD cs.length []) 250 0 (if cs = [] then s.txn else .writing)
      (writeEvents (frameWF a v :: (vs.map frameWN ++ [frameEND])) cs.length) rest := by
  have hnone := State.MakesCalls.none 250 0 ha
  cases cs with
  | nil => exact (hnone.writeFirst_stalls a v ho.writeFirst le_rfl).andThen _
  | cons c cs =>
    obtain ⟨t, hsend, hx, ht⟩ := hnone.writeFirst a v ho.writeFirst le_rfl
    rw [hsend]
    exact writeAll_stalls ht hx (Nat.le_of_succ_le_succ hl)

/-- A called write composite whose call behind `cs` stalls. -/
theorem exec_write_stalls {i : Instr} {f : Unit → Ret} {vs : List Byte} {a : Word} {v : Byte} {r : Res Unit}
    (hx : exec i s = .next (r.report f)) (hr : r = (writeFirst a v s).andThen fun _ t => writeAll vs t)
    (ho : s.mayOpen) (hl : cs.length < (frameWF a v :: (vs.map frameWN ++ [frameEND])).length)
    (ha : s.answers = completing cs ++ .stalls :: rest) :
    ∃ t, exec i s = .next t ∧
      HangsSending s t ((frameWF a v :: (vs.map frameWN ++ [frameEND])).getD cs.length []) 250 0 ∧
      t = { s with
        outBuf := t.outBuf, outCur := t.outCur, inBuf := t.inBuf, inLen := t.inLen
        txn := if cs = [] then s.txn else .writing
        trace := s.trace ++ writeEvents (frameWF a v :: (vs.map frameWN ++ [frameEND])) cs.length
        blocked := .inTransport, answers := rest, draws := s.draws + cs.length + 1 } := by
  have hlast : cs.length ≤ vs.length + 1 := by simpa [Nat.lt_succ_iff] using hl
  obtain ⟨t, hstopped, hhangs, ht⟩ :=
    (writeFirst_writeAll_stalls a v ho hlast ha).write_leaves (by decide) (writeEvents_length hl.le)
  exact ⟨t, exec_stopped hx (hr.trans hstopped), hhangs, ht⟩

variable {payload : List ((Byte × Byte) × Byte)} {more : List Byte} {n : Nat}

/-- `W` behind its first byte: each further payload byte is read and sent, then END; the call behind `cs` stalls. -/
theorem writeRest_stalls {events : List Event} (h : s.MakesCalls t 250 0 events (completing cs ++ .stalls :: rest))
    (hx : t.txn = .writing) (hn : cs.length ≤ n) (hl : payload.length = min (cs.length + 1) n)
    (hp : SpelledPayload payload) (hin : t.hostIn = payloadText payload ++ more) (g : Unit → State → Res Unit) :
    ((writeRest n t).andThen fun _ u => (finishWriting u).andThen g).StallsBehind (s.setHostIn more)
      (((payload.map Prod.snd).map frameWN ++ [frameEND]).getD cs.length []) 250 0 .writing
      (events ++ writeEvents ((payload.map Prod.snd).map frameWN) cs.length) rest := by
  induction cs generalizing s t events n payload with
  | nil =>
    change Res.StallsBehind _ _ _ 250 0 .writing (events ++ []) rest
    rw [List.append_nil]
    cases n with
    | zero =>
      obtain rfl := List.length_eq_zero_iff.mp hl
      obtain rfl : t.hostIn = more := hin
      exact ((h.setHostIn t.hostIn).finishWriting_stalls hx (by decide)).andThen _
    | succ n =>
      obtain ⟨p, rfl⟩ := List.length_eq_one_iff.mp (hl.trans (by simp))
      rw [writeRest, payloadByte_payload (hp p (by simp)) hin]
      exact (((h.setHostIn more).writeNext_stalls p.2 hx (by decide)).andThen _).andThen _
  | cons c cs ih =>
    obtain ⟨n, rfl⟩ := Nat.exists_eq_add_one_of_ne_zero (Nat.ne_zero_of_lt hn)
    rw [List.length_cons, Nat.add_min_add_right] at hl
    obtain ⟨p, payload, rfl⟩ := List.exists_cons_of_length_eq_add_one hl
    obtain ⟨hspelled, hp⟩ : Spells p.1.1 p.1.2 p.2 ∧ SpelledPayload payload := List.forall_mem_cons.mp hp
    obtain ⟨u, hsend, hxu, hu⟩ := (h.setHostIn (payloadText payload ++ more)).writeNext p.2 hx (by decide)
    have hrest := ih hu hxu (Nat.le_of_succ_le_succ hn) (Nat.succ.inj hl) hp hu.kept.hostIn
    rw [List.append_assoc] at hrest
    rw [writeRest, payloadByte_payload hspelled hin, Res.andThen_done, hsend, Res.andThen_done]
    exact hrest

theorem payloadSent_length (a : Word) (vs : List Byte) : (payloadSent a vs).length = vs.length := by
  cases vs <;> simp [payloadSent]

/-- `W`: the payload byte whose frame stalls is the last one read. -/
theorem cmdWriteSome_stalls (a : Word) (ho : s.mayOpen) (hpos : 0 < n) (hn : cs.length ≤ n)
    (hl : payload.length = min (cs.length + 1) n) (hp : SpelledPayload payload)
    (hin : s.hostIn = payloadText payload ++ more) (ha : s.answers = completing cs ++ .stalls :: rest) :
    (cmdWriteSome a n s).StallsBehind (s.setHostIn more)
      ((payloadSent a (payload.map Prod.snd) ++ [frameEND]).getD cs.length []) 250 0
      (if cs = [] then s.txn else .writing) (writeEvents (payloadSent a (payload.map Prod.snd)) cs.length) rest := by
  obtain ⟨n, rfl⟩ := Nat.exists_eq_add_one_of_ne_zero hpos.ne'
  rw [Nat.add_min_add_right] at hl
  obtain ⟨p, payload, rfl⟩ := List.exists_cons_of_length_eq_add_one hl
  obtain ⟨hspelled, hp⟩ : Spells p.1.1 p.1.2 p.2 ∧ SpelledPayload payload := List.forall_mem_cons.mp hp
  have hnone := (State.MakesCalls.none 250 0 ha).setHostIn (payloadText payload ++ more)
  rw [cmdWriteSome, payloadByte_payload hspelled hin, Res.andThen_done]
  cases cs with
  | nil =>
    obtain rfl : payload = [] := List.length_eq_zero_iff.mp (by simpa using hl)
    exact (hnone.writeFirst_stalls a p.2 (State.mayOpen.writeFirst ho) le_rfl).andThen _
  | cons c cs =>
    obtain ⟨t, hsend, hx, ht⟩ := hnone.writeFirst a p.2 (State.mayOpen.writeFirst ho) le_rfl
    rw [hsend, Res.andThen_done]
    exact writeRest_stalls ht hx (Nat.le_of_succ_le_succ hn) (Nat.succ.inj hl) hp ht.kept.hostIn _

end writes

/-! ### Completed calls, whichever they are (R110 to R116) -/

/-- The longest frame is WF, the longest capture RF's (R63, R104). -/
theorem ProtocolCall.within {f : List Bool} {m : Nat} (h : ProtocolCall f m) : f.length ≤ 250 ∧ m ≤ 100 := by
  rcases h with ⟨-, hl, hm⟩ | ⟨-, hl, hm⟩ | ⟨-, hl, hm⟩ | ⟨-, hl, hm⟩ | ⟨-, hl, hm⟩ <;> simp [hl, hm]

/-- Exactly the calls `calls` have completed, each one of the five kinds, wherever the engine's answers came from. -/
structure State.CallsMade (s t : State) (calls : List (List Bool × List Bool)) : Prop extends
    s.MakesCalls t 250 100 (calls.map fun call => .wire call.1 call.2) (s.answers.drop calls.length) where
  protocol : ∀ call ∈ calls, ProtocolCall call.1 call.2.length
  txn : t.txn = txnAfter s.txn calls

namespace State.CallsMade

variable {s t u : State} {calls calls' : List (List Bool × List Bool)}

theorem refl (s : State) : s.CallsMade s [] := ⟨.none 250 100 rfl, nofun, rfl⟩

theorem trans (h : s.CallsMade t calls) (k : t.CallsMade u calls') : s.CallsMade u (calls ++ calls') where
  kept := h.kept.trans k.kept
  above := h.above.trans k.above
  trace := by rw [k.trace, h.trace, List.map_append, List.append_assoc]
  answers := by rw [k.answers, h.answers, List.drop_drop, List.length_append]
  draws := by simp only [k.draws, h.draws, List.length_map, List.length_append, Nat.add_assoc]
  inPos := nofun
  protocol := List.forall_mem_append.mpr ⟨h.protocol, k.protocol⟩
  txn := by rw [k.txn, h.txn, txnAfter_append]

/-- No call reads or writes `conn` (R15). -/
theorem setConn (h : s.CallsMade t calls) (c : Conn) : (s.setConn c).CallsMade (t.setConn c) calls where
  kept := { h.kept with conn := rfl }
  above := ⟨h.above.out, h.above.inb⟩
  trace := h.trace
  answers := h.answers
  draws := h.draws
  inPos := nofun
  protocol := h.protocol
  txn := h.txn

/-- One call. -/
theorem of_makesCall {f c : List Bool} {m : Nat} (h : s.MakesCall t f m c) (hcall : ProtocolCall f m)
    (htxn : t.txn = txnAfter s.txn [(f, capture m c s.draws)]) :
    s.CallsMade t [(f, capture m c s.draws)] where
  kept := h.kept
  above := h.completed.keptAbove hcall.within.1 hcall.within.2
  trace := by
    obtain ⟨-, -, -, -, -, -, htrace⟩ := h.completed
    exact htrace
  answers := h.answers.trans List.drop_one.symm
  draws := h.draws
  inPos := nofun
  protocol := List.forall_mem_singleton.mpr (by rwa [capture_length])
  txn := htxn

end State.CallsMade

/-! Only the two finish operations send END: of the other frames WN differs from it in its marker, the rest in
length. -/

theorem ne_frameEND_of_length {f : List Bool} (h : f.length ≠ 50) : f ≠ frameEND := fun he => h (he ▸ frameEND_length)

theorem frameRF_ne_END (a : Word) : frameRF a ≠ frameEND := ne_frameEND_of_length (by simp)

theorem frameRN_ne_END : frameRN ≠ frameEND := ne_frameEND_of_length (by decide)

theorem frameWF_ne_END (a : Word) (v : Byte) : frameWF a v ≠ frameEND := ne_frameEND_of_length (by simp)

theorem frameWN_ne_END (v : Byte) : frameWN v ≠ frameEND := by
  intro h
  have hmarker : symbolBits false = symbolBits true := congrArg (List.take 5) h
  cases hmarker

/-- What completed calls made from `s` on leave, the last of them with `txn` at `x`. -/
structure State.CallsTo (s : State) (x : Txn) (t : State) : Prop where
  txn : t.txn = x
  made : ∃ calls, s.CallsMade t calls

/-- Stopped inside a call of one of the five kinds, behind completed calls made from `s` on. -/
def HangsInCall (s : State) (_ : Stop) (u : State) : Prop :=
  ∃ t calls frame m, s.CallsMade t calls ∧ ProtocolCall frame m ∧ u = t.hung frame

namespace Res.Ends

variable {α : Type} {r : Res α} {s t : State} {x y : Txn}

theorem mono {stops stops' : Stop → State → Prop} {post post' : α → State → Prop} (h : r.Ends stops post)
    (hstop : ∀ e u, stops e u → stops' e u) (hdone : ∀ a u, post a u → post' a u) : r.Ends stops' post' := by
  cases r with
  | done a u => exact hdone a u h
  | stopped e u => exact hstop e u h

/-- An operation of one call. -/
theorem of_call {f : List Bool} {m : Nat} (hcall : ProtocolCall f m)
    (hx : (if f = frameEND then .closed else if m = 100 then .reading else .writing) = x)
    (hstall : s.nextAnswer = .stalls → r = .stopped .stall (s.hung f))
    (hdone : ∀ c, s.nextAnswer = .completes c → ∃ v t, r = .done v t ∧ t.txn = x ∧ s.MakesCall t f m c) :
    r.Ends (HangsInCall s) fun _ t => s.CallsTo x t := by
  cases ha : s.nextAnswer with
  | stalls =>
    rw [hstall ha]
    exact ⟨s, [], f, m, .refl s, hcall, rfl⟩
  | completes c =>
    obtain ⟨v, t, rfl, ht, hmade⟩ := hdone c ha
    refine ⟨ht, _, .of_makesCall hmade hcall ?_⟩
    simp only [ht, ← hx, txnAfter, List.getLast?_singleton, capture_length]

/-- An operation behind completed calls. -/
theorem behind (h : r.Ends (HangsInCall t) fun _ u => t.CallsTo y u) (hk : s.CallsTo x t) :
    r.Ends (HangsInCall s) fun _ u => s.CallsTo y u := by
  obtain ⟨-, calls, hcalls⟩ := hk
  refine h.mono ?_ ?_
  · rintro e u ⟨w, calls', f, m, hw, hcall, rfl⟩
    exact ⟨w, _, f, m, hcalls.trans hw, hcall, rfl⟩
  · rintro a u ⟨hy, calls', hu⟩
    exact ⟨hy, _, hcalls.trans hu⟩

end Res.Ends

section calls

variable {s : State}

theorem readFirst_calls (a : Word) (h : s.mayRun .readFirst = true) :
    (readFirst a s).Ends (HangsInCall s) fun _ t => s.CallsTo .reading t := by
  refine .of_call (protocol_RF a) (if_neg (frameRF_ne_END a)) (readFirst_hangs a h) fun c ha => ?_
  obtain ⟨t, hdone, hx, hmade, -⟩ := readFirst_makesCall a h ha
  exact ⟨_, t, hdone, hx, hmade⟩

theorem readNext_calls (h : s.txn = .reading) :
    (readNext s).Ends (HangsInCall s) fun _ t => s.CallsTo .reading t := by
  have hmay : s.mayRun .readNext = true := State.mayRun_of_txn .reading h rfl
  refine .of_call protocol_RN (if_neg frameRN_ne_END) (readNext_hangs hmay) fun c ha => ?_
  obtain ⟨t, hdone, hx, hmade, -⟩ := readNext_makesCall hmay ha
  exact ⟨_, t, hdone, hx.trans h, hmade⟩

theorem finishReading_calls (h : s.txn = .reading) :
    (finishReading s).Ends (HangsInCall s) fun _ t => s.CallsTo .closed t := by
  have hmay : s.mayRun .finishReading = true := State.mayRun_of_txn .reading h rfl
  exact .of_call protocol_END (if_pos rfl) (finishReading_hangs hmay) fun _ ha => ⟨_, finishReading_makesCall hmay ha⟩

theorem writeFirst_calls (a : Word) (v : Byte) (h : s.mayRun .writeFirst = true) :
    (writeFirst a v s).Ends (HangsInCall s) fun _ t => s.CallsTo .writing t :=
  .of_call (protocol_WF a v) (if_neg (frameWF_ne_END a v)) (writeFirst_hangs a v h) fun _ ha =>
    ⟨_, writeFirst_makesCall a v h ha⟩

theorem writeNext_calls (v : Byte) (h : s.txn = .writing) :
    (writeNext v s).Ends (HangsInCall s) fun _ t => s.CallsTo .writing t := by
  have hmay : s.mayRun .writeNext = true := State.mayRun_of_txn .writing h rfl
  refine .of_call (protocol_WN v) (if_neg (frameWN_ne_END v)) (writeNext_hangs v hmay) fun c ha => ?_
  obtain ⟨t, hdone, hx, hmade⟩ := writeNext_makesCall v hmay ha
  exact ⟨_, t, hdone, hx.trans h, hmade⟩

theorem finishWriting_calls (h : s.txn = .writing) :
    (finishWriting s).Ends (HangsInCall s) fun _ t => s.CallsTo .closed t := by
  have hmay : s.mayRun .finishWriting = true := State.mayRun_of_txn .writing h rfl
  exact .of_call protocol_END (if_pos rfl) (finishWriting_hangs hmay) fun _ ha => ⟨_, finishWriting_makesCall hmay ha⟩

theorem readSingleWord_calls (a : Word) (h : s.mayOpen) :
    (readSingleWord a s).Ends (HangsInCall s) fun _ t => s.CallsTo .closed t :=
  (readFirst_calls a h.readFirst).andThen fun _ _ ht =>
    ((readNext_calls ht.txn).behind ht).andThen fun _ _ hu =>
      ((finishReading_calls hu.txn).behind hu).andThen fun _ _ hw => hw

theorem writeSingleByte_calls (a : Word) (v : Byte) (h : s.mayOpen) :
    (writeSingleByte a v s).Ends (HangsInCall s) fun _ t => s.CallsTo .closed t :=
  (writeFirst_calls a v h.writeFirst).andThen fun _ _ ht => (finishWriting_calls ht.txn).behind ht

theorem writeSingleQuad_calls (a : Word) (v : Quad) (h : s.mayOpen) :
    (writeSingleQuad a v s).Ends (HangsInCall s) fun _ t => s.CallsTo .closed t :=
  (writeFirst_calls a _ h.writeFirst).andThen fun _ _ h0 =>
    ((writeNext_calls _ h0.txn).behind h0).andThen fun _ _ h1 =>
      ((writeNext_calls _ h1.txn).behind h1).andThen fun _ _ h2 =>
        ((writeNext_calls _ h2.txn).behind h2).andThen fun _ _ h3 => (finishWriting_calls h3.txn).behind h3

end calls

/-! ### Where `init` stalls (R140 to R145) -/

/-- What completed calls made from `s` on leave, but for `conn`, which `init` writes between them (R146). -/
def State.CallsButConn (s t : State) : Prop := ∃ calls, (s.setConn t.conn).CallsMade t calls

theorem State.CallsButConn.trans {s t u : State} (h : s.CallsButConn t) (k : t.CallsButConn u) :
    s.CallsButConn u := by
  obtain ⟨calls, h⟩ := h
  obtain ⟨calls', k⟩ := k
  exact ⟨_, (h.setConn u.conn).trans k⟩

theorem State.setConn_callsButConn (s : State) (c : Conn) : s.CallsButConn (s.setConn c) := ⟨[], .refl (s.setConn c)⟩

theorem State.CallsMade.butConn {s t : State} {calls : List (List Bool × List Bool)} (h : s.CallsMade t calls) :
    s.CallsButConn t := by
  refine ⟨calls, ?_⟩
  rw [h.kept.conn]
  exact h

/-- `conn` while `init` calls (R141 to R144). -/
def Conn.WhileInit (c : Conn) : Prop := c = .resetting ∨ c = .scanningSpeed ∨ c = .connected

/-- Stopped inside a call of an `init` that has made its reset pulse in `s`. -/
def HangsInInit (s : State) (_ : Stop) (u : State) : Prop :=
  ∃ t frame m, s.CallsButConn t ∧ t.conn.WhileInit ∧ ProtocolCall frame m ∧ u = t.hung frame

/-- One transaction of `init`. -/
theorem Res.Ends.inInit {α : Type} {r : Res α} {s t : State} {x : Txn}
    (h : r.Ends (HangsInCall t) fun _ u => t.CallsTo x u) (hk : s.CallsButConn t) (hconn : t.conn.WhileInit) :
    r.Ends (HangsInInit s) fun _ u => s.CallsButConn u ∧ u.conn = t.conn ∧ u.txn = x := by
  refine h.mono ?_ ?_
  · rintro e u ⟨w, calls, f, m, hw, hcall, rfl⟩
    exact ⟨w, f, m, hk.trans hw.butConn, hw.kept.conn ▸ hconn, hcall, rfl⟩
  · rintro a u ⟨hx, calls, hu⟩
    exact ⟨hk.trans hu.butConn, hu.kept.conn, hx⟩

section init

variable {s t : State}

theorem onMatch_inInit (d : Nat) (hk : s.CallsButConn t) (hconn : t.conn = .scanningSpeed) (hx : t.txn = .closed) :
    (onMatch d t).Ends (HangsInInit s) fun _ _ => True :=
  ((writeSingleByte_calls _ _ (State.mayOpen_of_txn hx)).inInit hk (.inr (.inl hconn))).andThen fun _ u ⟨hu, _, hx⟩ =>
    ((writeSingleQuad_calls _ _ (s := u.setConn .connected) (State.mayOpen_of_txn hx)).inInit
      (hu.trans (u.setConn_callsButConn .connected)) (.inr (.inr rfl))).andThen fun _ _ _ => trivial

theorem scan_inInit (ds : List Nat) (hk : s.CallsButConn t) (hconn : t.conn = .scanningSpeed) (hx : t.txn = .closed) :
    (scan ds t).Ends (HangsInInit s) fun _ _ => True := by
  induction ds generalizing t with
  | nil => trivial
  | cons d ds ih =>
    refine ((writeSingleByte_calls _ _ (State.mayOpen_of_txn hx)).inInit hk (.inr (.inl hconn))).andThen ?_
    rintro _ u ⟨hk, hu, hx⟩
    refine ((readSingleWord_calls _ (State.mayOpen_of_txn hx)).inInit hk (.inr (.inl (hu.trans hconn)))).andThen ?_
    rintro id w ⟨hk, hw, hx⟩
    have hconn := hw.trans (hu.trans hconn)
    split
    · exact onMatch_inInit d hk hconn hx
    · exact ih hk hconn hx

theorem initTarget_inInit (h : s.mayOpen) : (initTarget s).Ends (HangsInInit (resetPulse s)) fun _ _ => True :=
  ((writeSingleByte_calls (s := (resetPulse s).setConn .resetting) _ _ h).inInit
    ((resetPulse s).setConn_callsButConn .resetting) (.inl rfl)).andThen fun _ t ⟨hk, _, hx⟩ =>
      scan_inInit (t := t.setConn .scanningSpeed) _ (hk.trans (t.setConn_callsButConn .scanningSpeed)) rfl hx

theorem exec_init_blocked {i : Instr} (hi : i = .init ∨ i = .cmdInit) (hx : exec i s = .next t) :
    t.blocked = (initTarget s).state.blocked := by
  rcases hi with rfl | rfl <;> cases hx
  · cases initTarget s <;> rfl
  · rw [cmdInit]
    cases initTarget s <;> rfl

/-- An `init` that ends blocked has been stopped inside one of its calls: its first write was not refused. -/
theorem exec_init_hangs {i : Instr} (hi : i = .init ∨ i = .cmdInit) (hb : s.blocked = .running)
    (hx : exec i s = .next t) (ht : t.blocked = .inTransport) : ∃ e, HangsInInit (resetPulse s) e t := by
  have hstate := exec_init_blocked hi hx
  rw [ht] at hstate
  have ho : s.mayOpen := by
    refine State.mayOpen_of_writeFirst ?_
    by_contra hrefused
    rw [initTarget_refused (Bool.eq_false_iff.mpr hrefused)] at hstate
    cases hstate.trans hb
  have hhangs := initTarget_inInit ho
  cases hr : initTarget s with
  | done success u =>
    have hkept := (initTarget_keeps ho).of_done hr
    rw [hr] at hstate
    cases hstate.trans (hkept.blocked.trans hb)
  | stopped e u =>
    obtain ⟨hinit, hcmd⟩ := exec_initTarget_stopped hr
    obtain rfl : u = t := by
      rcases hi with rfl | rfl
      · exact Host.Outcome.next.inj (hinit.symm.trans hx)
      · exact Host.Outcome.next.inj (hcmd.symm.trans hx)
    rw [hr] at hhangs
    exact ⟨e, hhangs⟩

end init

/-! ### What is handed back to a direct caller (R117, R185) -/

/-- What the last direct call handed back still stands. -/
def KeepsRet (before : Ret) (_ : Stop) (t : State) : Prop := t.ret = before

/-- No call hands anything back, and one that hangs keeps what the block had. -/
theorem Res.Ends.keepsRet {α : Type} {r : Res α} {s : State} {x : Txn} {before : Ret}
    (h : r.Ends (HangsInCall s) fun _ t => s.CallsTo x t) (hs : s.ret = before) :
    r.Ends (KeepsRet before) fun _ t => t.ret = before ∧ t.txn = x := by
  refine h.mono ?_ ?_
  · rintro e u ⟨t, calls, f, m, ht, -, rfl⟩
    exact ht.kept.ret.trans hs
  · rintro a t ⟨hx, calls, ht⟩
    exact ⟨ht.kept.ret.trans hs, hx⟩

theorem Res.Ends.state_ret {α : Type} {r : Res α} {before : Ret}
    (h : r.Ends (KeepsRet before) fun _ t => t.ret = before) : r.state.ret = before := by
  cases r with
  | done a t => exact h
  | stopped e t => exact h

section handedBack

variable {s : State} {before : Ret}

theorem initTarget_keepsRet (ho : s.mayOpen) (hs : s.ret = before) :
    (initTarget s).Ends (KeepsRet before) fun _ t => t.ret = before := by
  have hhangs := initTarget_inInit ho
  cases hr : initTarget s with
  | done success t =>
    obtain ⟨hret, -⟩ := initTarget_done hr
    exact hret.trans hs
  | stopped e u =>
    rw [hr] at hhangs
    obtain ⟨t, f, m, ⟨calls, ht⟩, -, -, rfl⟩ := hhangs
    exact ht.kept.ret.trans hs

theorem cmdInit_keepsRet (ho : s.mayOpen) (hs : s.ret = before) :
    (cmdInit s).Ends (KeepsRet before) fun _ t => t.ret = before :=
  (initTarget_keepsRet ho hs).andThen fun _ _ ht => ht

theorem cmdShow_keepsRet (ho : s.mayOpen) (hs : s.ret = before) :
    (cmdShow s).Ends (KeepsRet before) fun _ t => t.ret = before :=
  ((readSingleWord_calls _ ho).keepsRet hs).andThen fun _ _ ⟨ht, _⟩ => ht

theorem readRest_keepsRet (n : Nat) (hs : s.ret = before) (hx : s.txn = .reading) :
    (readRest n s).Ends (KeepsRet before) fun _ t => t.ret = before ∧ t.txn = .reading := by
  induction n generalizing s with
  | zero => exact ⟨hs, hx⟩
  | succ n ih => exact ((readNext_calls hx).keepsRet hs).andThen fun _ _ ⟨ht, hxt⟩ => ih (s := State.put _ _) ht hxt

theorem cmdReadSome_keepsRet (a : Word) (n : Nat) (ho : s.mayOpen) (hs : s.ret = before) :
    (cmdReadSome a n s).Ends (KeepsRet before) fun _ t => t.ret = before :=
  ((readFirst_calls a ho.readFirst).keepsRet hs).andThen fun _ _ ⟨ht, hx⟩ =>
    (readRest_keepsRet (s := State.put _ _) _ ht hx).andThen fun _ _ ⟨hu, hx⟩ =>
      ((finishReading_calls hx).keepsRet hu).andThen fun _ _ ⟨hw, _⟩ => hw

theorem payloadByte_keepsRet (hs : s.ret = before) : (payloadByte s).Ends (KeepsRet before) fun _ t =>
    t.ret = before ∧ t.txn = s.txn ∧ t.params = s.params := by
  rw [payloadByte, hostHex]
  cases readHex 2 s.hostIn with
  | value v rest => exact ⟨hs, rfl, rfl⟩
  | dry => exact hs
  | bad b => exact hs

theorem writeRest_keepsRet (n : Nat) (hs : s.ret = before) (hx : s.txn = .writing) :
    (writeRest n s).Ends (KeepsRet before) fun _ t => t.ret = before ∧ t.txn = .writing := by
  induction n generalizing s with
  | zero => exact ⟨hs, hx⟩
  | succ n ih =>
    exact (payloadByte_keepsRet hs).andThen fun _ _ ⟨ht, hxt, _⟩ =>
      ((writeNext_calls _ (hxt.trans hx)).keepsRet ht).andThen fun _ _ ⟨hu, hxu⟩ => ih hu hxu

theorem cmdWriteSome_keepsRet (a : Word) (n : Nat) (ho : s.mayOpen) (hs : s.ret = before) :
    (cmdWriteSome a n s).Ends (KeepsRet before) fun _ t => t.ret = before :=
  (payloadByte_keepsRet hs).andThen fun _ t ⟨ht, hxt, hp⟩ =>
    have hopen : t.mayOpen := fun he => hxt ▸ ho (hp ▸ he)
    ((writeFirst_calls a _ hopen.writeFirst).keepsRet ht).andThen fun _ _ ⟨hu, hx⟩ =>
      (writeRest_keepsRet _ hu hx).andThen fun _ _ ⟨hw, hx⟩ =>
        ((finishWriting_calls hx).keepsRet hw).andThen fun _ _ ⟨hv, _⟩ => hv

/-- A host command run where a transaction may be opened hands nothing back: none of its primitives is refused. -/
theorem exec_hostCommand_ret {i : Instr} {t : State} (hi : i.isHostCommand = true) (ho : s.mayOpen)
    (hx : exec i s = .next t) : t.ret = s.ret := by
  cases i with
  | cmdInit =>
    cases hx
    exact (cmdInit_keepsRet ho rfl).state_ret
  | cmdReset flag =>
    cases hx
    rw [cmdReset]
    split <;> rfl
  | cmdShow =>
    cases hx
    exact (cmdShow_keepsRet ho rfl).state_ret
  | cmdRead a n =>
    cases hx
    rw [cmdRead]
    split
    · rfl
    · exact (cmdReadSome_keepsRet a n.toNat ho rfl).state_ret
  | cmdWrite a n =>
    rw [Res.outcome_next hx, cmdWrite]
    split
    · rfl
    · exact (cmdWriteSome_keepsRet a n.toNat ho rfl).state_ret
  | cmdOther verb =>
    cases hx
    rfl
  | _ => cases hi

end handedBack

end Machine
end Sys2Proof

/-! ### The obligations -/

open Sys2Proof Sys2Proof.Machine

/-- Settles O35: `R`, the read composites and `s`, the write composites and `W` are stopped by the call behind those
that complete; `init` and `i` end blocked only inside one of their calls. -/
theorem stalledReadCommandKeepsItsPrefix : Obligations.StalledReadCommandKeepsItsPrefix := by
  refine ⟨?_, ?_, ?_, ?_, ?_⟩
  · intro s a n caps rest ho hpos hn hcaps ha
    obtain ⟨t, hr, hhangs, -, ht⟩ :=
      (cmdReadSome_stalls a ho hpos hn hcaps ha).leaves (by decide) (readFrames_length a caps)
    refine ⟨t, by rw [exec_cmdRead_of_count a s hpos, hr, Res.state_stopped], hhangs, ?_⟩
    rw [bytePuts, List.map_map] at ht
    exact ht
  · intro s i sent caps rest hi ho hl hcaps ha
    have hk := readEvents_length hl.le
    rcases hi with ⟨a, rfl, rfl⟩ | ⟨a, rfl, rfl⟩ | ⟨rfl, rfl⟩
    · obtain ⟨t, hr, hhangs, -, ht⟩ := (readSingleByte_stalls a ho hl hcaps ha).leaves (by decide) hk
      exact ⟨t, exec_stopped rfl hr, hhangs, ht⟩
    · obtain ⟨t, hr, hhangs, -, ht⟩ := (readSingleWord_stalls a ho hl hcaps ha).leaves (by decide) hk
      exact ⟨t, exec_stopped rfl hr, hhangs, ht⟩
    · obtain ⟨t, hr, hhangs, -, ht⟩ := (readSingleWord_stalls Config.idAddr ho hl hcaps ha).leaves (by decide) hk
      exact ⟨t, by rw [exec, execCmdShow, cmdShow, hr, Res.andThen_stopped, Res.state_stopped], hhangs, ht⟩
  · intro s i sent cs rest hi ho hl ha
    rcases hi with ⟨a, v, rfl, rfl⟩ | ⟨a, v, rfl, rfl⟩ | ⟨a, v, rfl, rfl⟩
    · exact exec_write_stalls rfl (writeSingleByte_eq a v s) ho hl ha
    · exact exec_write_stalls rfl (writeSingleWord_eq a v s) ho hl ha
    · exact exec_write_stalls rfl (writeSingleQuad_eq a v s) ho hl ha
  · intro s a n payload more cs rest ho hpos hn hl hp hin ha
    have hsent : cs.length ≤ (payloadSent a (payload.map Prod.snd)).length := by
      rw [payloadSent_length, List.length_map, hl]
      omega
    obtain ⟨t, hr, hhangs, ht⟩ :=
      (cmdWriteSome_stalls a ho hpos hn hl hp hin ha).write_leaves (by decide) (writeEvents_length hsent)
    refine ⟨t, by rw [exec_cmdWrite_of_count a s hpos, hr, Res.outcome], hhangs, ?_⟩
    rw [writeEvents, List.map_take] at ht
    exact ht
  · intro s t i hi hb hx ht
    obtain ⟨-, u, frame, m, ⟨calls, hcalls⟩, hconn, hcall, rfl⟩ := exec_init_hangs hi hb hx ht
    rw [resetPulse_eq] at hcalls
    have heq := hcalls.hung_eq frame hcalls.txn rfl (List.length_map _)
    rw [List.tail_drop] at heq
    exact ⟨calls, frame, m, hcalls.protocol, hcall, hcalls.above.hangsSending frame hcall.within.1 hcall.fits.1, hconn,
      heq⟩

/-- Settles O14: R110 admits the primitive, so it is its one call, which hangs. -/
theorem stalledPrimitiveKeepsTxn : Obligations.StalledPrimitiveKeepsTxn := by
  intro s op i frame hprimitive hadmits ha
  have hmay := State.mayRun_of hadmits
  rcases hprimitive with ⟨a, rfl, rfl, rfl⟩ | ⟨rfl, rfl, rfl⟩ | ⟨rfl, rfl, rfl⟩ | ⟨a, v, rfl, rfl, rfl⟩ |
    ⟨v, rfl, rfl, rfl⟩ | ⟨rfl, rfl, rfl⟩
  · exact exec_hangs rfl (protocol_RF a) (readFirst_hangs a hmay ha)
  · exact exec_hangs rfl protocol_RN (readNext_hangs hmay ha)
  · exact exec_hangs rfl protocol_END (finishReading_hangs hmay ha)
  · exact exec_hangs rfl (protocol_WF a v) (writeFirst_hangs a v hmay ha)
  · exact exec_hangs rfl (protocol_WN v) (writeNext_hangs v hmay ha)
  · exact exec_hangs rfl protocol_END (finishWriting_hangs hmay ha)

/-- Settles O48: of the meanings only those of `Transport` and `W` can refuse. -/
theorem everyOperationRunsOnOrdinaryData : Obligations.EveryOperationRunsOnOrdinaryData := by
  intro i s
  cases i with
  | transport n m =>
    by_cases houtside : s.outCur < n ∨ 4096 < s.outCur ∨ 4096 < m
    · exact .inr (.inl ⟨n, m, rfl, houtside, transportOutsideItsRequiresIsRefused s n m houtside⟩)
    · simp only [not_or, Nat.not_lt] at houtside
      obtain ⟨hn, hcur, hm⟩ := houtside
      exact .inl ⟨_, exec_transport_within hn hcur hm⟩
  | cmdWrite a n =>
    by_cases hn : n = 0
    · subst hn
      exact .inl ⟨_, rfl⟩
    · have hx : exec (.cmdWrite a n) s = (cmdWriteSome a n.toNat s).outcome := by
        rw [exec, execCmdWrite, cmdWrite, if_neg hn]
      rcases (cmdWriteSome_namesNoDigit a n.toNat s).outcome_next_or_refused with ⟨t, ht⟩ | ⟨bad, hbad, hrefused⟩
      · exact .inl ⟨t, hx.trans ht⟩
      · exact .inr (.inr ⟨a, n, bad, rfl, hn, hbad, hx.trans hrefused⟩)
  | _ => exact .inl ⟨_, rfl⟩

/-- Settles O58: a step is a host command run from a command boundary, or it waits in HostGet. -/
theorem hostCommandsNeverMeetSequenceError : Obligations.HostCommandsNeverMeetSequenceError := by
  intro s t hs hstep
  obtain ⟨hcalls, -⟩ := s.dispatcherInvariant_iff.mp hs
  obtain ⟨hrunning, ⟨i, calls, hc, -⟩ | ⟨i, rest, -, hd, hx⟩ | ⟨-, -, rfl⟩⟩ := step_cases hstep
  · cases hcalls.symm.trans hc
  · obtain ⟨-, -, -, hi, -⟩ := decodeTakesExactlyTheCommand _ _ _ hd
    have ho : s.mayOpen := State.mayOpen_of_dispatcherInvariant hs hrunning
    exact exec_hostCommand_ret (s := { bannerCheck s with hostIn := rest }) hi ho hx
  · rfl

end

section
/-! PROOFS. The statement about reset and hazards (70_reset_and_hazards.md): `conn` and the stale bits of the two
buffers influence nothing. Indistinguishable states are related as Laws/TwoRuns.lean asks, so every L1 and L2 operation
keeps them so; what is left are the operations a relation of two runs does not speak of: raw-bit writes, `reset_out` and
a direct `Transport`. -/

namespace Sys2Proof.Machine

/-! ### The valid bits after a raw bit (R80, R12) and after a capture (R100) -/

/-- Below the capacity a raw bit is appended to the valid bits. -/
theorem writeRawBit_outBits (b : Bool) {s : State} (h : s.outCur < Config.bufCap) :
    (writeRawBit b s).outBits (writeRawBit b s).outCur = s.outBits s.outCur ++ [b] := by
  have happend := appendBits_outBits [b] s h.le
  rwa [List.take_of_length_le (by simp only [List.length_singleton]; omega)] at happend

/-- From the capacity on, whatever the cursor is, a raw bit is dropped. -/
theorem writeRawBit_of_not_lt (b : Bool) {s : State} (h : ¬ s.outCur < Config.bufCap) : writeRawBit b s = s := dif_neg h

/-- The valid bits after a capture of M bits are the capture, whatever the buffer held (R100). -/
theorem storeFrom_capture_take {m : Nat} (hm : m ≤ Config.bufCap) (bits : List Bool) (draw : Nat)
    (buf : Vector Bool Config.bufCap) :
    (storeFrom 0 (capture m bits draw) buf).toList.take m = capture m bits draw := by
  have htake := storeFrom_take (capture m bits draw) buf (by rwa [capture_length])
  rwa [capture_length] at htake

namespace Indistinguishable

variable {s t : State}

/-! ### What indistinguishable states share (R227) -/

theorem outCur (q : Indistinguishable s t) : t.outCur = s.outCur := (congrArg State.outCur q.2.2 :)

theorem inBits (q : Indistinguishable s t) : t.inBits = s.inBits := q.2.1.symm

theorem params (q : Indistinguishable s t) : t.params = s.params := (congrArg State.params q.2.2 :)

theorem txn (q : Indistinguishable s t) : t.txn = s.txn := (congrArg State.txn q.2.2 :)

theorem answers (q : Indistinguishable s t) : t.answers = s.answers := (congrArg State.answers q.2.2 :)

theorem draws (q : Indistinguishable s t) : t.draws = s.draws := (congrArg State.draws q.2.2 :)

theorem hostIn (q : Indistinguishable s t) : t.hostIn = s.hostIn := (congrArg State.hostIn q.2.2 :)

theorem nextAnswer (q : Indistinguishable s t) : t.nextAnswer = s.nextAnswer := by
  rw [State.nextAnswer, State.nextAnswer, q.answers, q.draws]

/-- What a call may send, no more than the valid bits, is the same. -/
theorem outBits_of_le (q : Indistinguishable s t) {n : Nat} (hn : n ≤ s.outCur) : t.outBits n = s.outBits n := by
  have ⟨hout, _, _⟩ := q
  have htake := congrArg (List.take n) hout
  simp only [State.outBits, List.take_take, q.outCur, Nat.min_eq_left hn] at htake
  exact htake.symm

/-! ### The elementary effects keep states indistinguishable -/

theorem called (q : Indistinguishable s t) {f : List Bool} {m : Nat} (c : List Bool) (hf : f.length ≤ Config.bufCap)
    (hm : m ≤ Config.bufCap) : Indistinguishable (s.called f m c) (t.called f m c) := by
  have ⟨_, _, ht⟩ := q
  refine ⟨?_, ?_, ?_⟩
  · exact (s.called_outBits f m c hf).trans (t.called_outBits f m c hf).symm
  · rw [called_inBits s f m c hm, called_inBits t f m c hm, q.draws]
  · rw [ht]
    rfl

theorem hung (q : Indistinguishable s t) {f : List Bool} (hf : f.length ≤ Config.bufCap) :
    Indistinguishable (s.hung f) (t.hung f) := by
  obtain ⟨-, hin, ht⟩ := q
  refine ⟨?_, hin, ?_⟩
  · exact (appendBits_outBits_of_reset f s hf).trans (appendBits_outBits_of_reset f t hf).symm
  · rw [ht]
    rfl

theorem afterDecode (q : Indistinguishable s t) : Indistinguishable (afterDecode s) (afterDecode t) := by
  have ⟨hout, hin, ht⟩ := q
  have hpos : (decodeBits t.params.truncPolicy t.inBits).2 = (decodeBits s.params.truncPolicy s.inBits).2 := by
    rw [q.params, q.inBits]
  refine ⟨hout, hin, ?_⟩
  rw [Machine.afterDecode, hpos]
  exact congrArg (fun u : State => { u with inPos := (decodeBits s.params.truncPolicy s.inBits).2 }) ht

theorem twoRuns : TwoRuns Indistinguishable where
  params q := q.params
  txn q := q.txn
  answers q := q.answers
  draws q := q.draws
  hostIn q := q.hostIn
  called c q hcall := q.called c hcall.fits.1 hcall.fits.2
  hung q hcall := q.hung hcall.fits.1
  decoded q := q.afterDecode
  setTxn x := fun ⟨hout, hin, ht⟩ => ⟨hout, hin, congrArg (State.setTxn · x) ht⟩
  returns r := fun ⟨hout, hin, ht⟩ => ⟨hout, hin, congrArg (State.returns · r) ht⟩
  setRst l := fun ⟨hout, hin, ht⟩ => ⟨hout, hin, congrArg (State.setRst · l) ht⟩
  delay d := fun ⟨hout, hin, ht⟩ => ⟨hout, hin, congrArg (State.delay · d) ht⟩
  setConn c := fun ⟨hout, hin, ht⟩ => ⟨hout, hin, congrArg (State.setConn · c) ht⟩
  put p := fun ⟨hout, hin, ht⟩ => ⟨hout, hin, congrArg (State.put · p) ht⟩
  consume rest := fun ⟨hout, hin, ht⟩ => ⟨hout, hin, congrArg (fun u : State => { u with hostIn := rest }) ht⟩
  dry := fun ⟨hout, hin, ht⟩ =>
    ⟨hout, hin, congrArg (fun u : State => { u with hostIn := [], blocked := .inHostGet }) ht⟩

theorem resetOut (q : Indistinguishable s t) : Indistinguishable (resetOut s) (resetOut t) := by
  obtain ⟨-, hin, ht⟩ := q
  exact ⟨rfl, hin, congrArg Machine.resetOut ht⟩

theorem writeRawBit (q : Indistinguishable s t) (b : Bool) :
    Indistinguishable (writeRawBit b s) (writeRawBit b t) := by
  by_cases h : s.outCur < Config.bufCap
  · have ⟨hout, hin, ht⟩ := q
    have h' : t.outCur < Config.bufCap := q.outCur.trans_lt h
    refine ⟨?_, ?_, ?_⟩
    · rw [writeRawBit_outBits b h, writeRawBit_outBits b h', hout]
    · rw [writeRawBit_frame b s, writeRawBit_frame b t]
      exact hin
    · rw [ht]
      simp [Machine.writeRawBit, h]
  · rw [writeRawBit_of_not_lt b h, writeRawBit_of_not_lt b (q.outCur ▸ h)]
    exact q

theorem appendBits (q : Indistinguishable s t) (bits : List Bool) :
    Indistinguishable (appendBits bits s) (appendBits bits t) := by
  induction bits generalizing s t with
  | nil => exact q
  | cons b bits ih => exact ih (q.writeRawBit b)

/-- A direct call inside its "requires" sends and captures the same bits (R100). -/
theorem transport (q : Indistinguishable s t) {n m : Nat} (hn : n ≤ s.outCur) (hm : m ≤ Config.bufCap) :
    Res.Same Indistinguishable (transport n m s) (transport n m t) := by
  have ⟨hout, hin, ht⟩ := q
  rw [Machine.transport, Machine.transport, q.nextAnswer]
  split
  next => exact ⟨rfl, hout, hin, congrArg (fun u : State => { u.drawAnswer with blocked := .inTransport }) ht⟩
  next c _ =>
    refine ⟨rfl, hout, ?_, ?_⟩
    · calc _ = capture m c s.draws := storeFrom_capture_take hm c s.draws s.inBuf
        _ = capture m c t.draws := by rw [q.draws]
        _ = _ := (storeFrom_capture_take hm c t.draws t.inBuf).symm
    · rw [q.draws, q.outBits_of_le hn, ht]
      rfl

end Indistinguishable

/-! ### The meanings -/

/-- A command that ends the same way in both runs has indistinguishable outcomes: the same refusal, or
related states. -/
theorem Res.Same.outcome {r r' : Res Unit} (h : Res.Same Indistinguishable r r') :
    IndistinguishableOutcomes r.outcome r'.outcome := by
  cases r with
  | done a s =>
    cases r' with
    | done b t => exact h.2
    | stopped g t => exact h.elim
  | stopped e s =>
    cases r' with
    | done b t => exact h.elim
    | stopped g t =>
      obtain ⟨rfl, q⟩ := h
      cases e with
      | badDigit b => exact rfl
      | stall => exact q
      | hostDry => exact q
      | sequenceError => exact q

namespace Indistinguishable

variable {s t : State}

/-- A line-encoder operation is a run of raw bits (R87). -/
theorem exec_line (q : Indistinguishable s t) {i : Instr} {f : LineFormat} {bits : List Bool}
    (h : encode i = .line f bits) : IndistinguishableOutcomes (exec i s) (exec i t) := by
  rw [exec_of_encode_line h, exec_of_encode_line h]
  exact twoRuns.returns _ (q.appendBits bits)

theorem exec_transport (q : Indistinguishable s t) (n m : Nat) :
    IndistinguishableOutcomes (exec (.transport n m) s) (exec (.transport n m) t) := by
  rw [exec, exec, execTransport, execTransport, q.outCur]
  split
  next hwithin =>
    obtain ⟨hn, -, hm⟩ := hwithin
    exact twoRuns.report _ (q.transport hn hm)
  next => exact rfl

end Indistinguishable

end Sys2Proof.Machine

/-! ### The obligation -/

open Sys2Proof Sys2Proof.Machine

/-- Settles O57: the L1 and L2 operations by the relation of two runs, the line encoder by its raw bits. -/
theorem connAndStaleBitsInfluenceNothing : Obligations.ConnAndStaleBitsInfluenceNothing := by
  intro i s t q
  have h := Indistinguishable.twoRuns
  cases i with
  | writeRawBit b => exact q.exec_line rfl
  | writeBakedOne => exact q.exec_line rfl
  | writeBakedZero => exact q.exec_line rfl
  | writeByte b => exact q.exec_line rfl
  | writeCmdByte b => exact q.exec_line rfl
  | writeDataByte b => exact q.exec_line rfl
  | writeDataWord w => exact q.exec_line rfl
  | resetOut => exact h.returns _ q.resetOut
  | decodeByte =>
    rw [exec, exec, execDecodeByte, execDecodeByte, decodedByte, decodedByte, q.params, q.inBits]
    exact h.returns _ q.afterDecode
  | transport n m => exact q.exec_transport n m
  | readFirst a => exact h.report _ (h.readFirst a q)
  | readNext => exact h.report _ (h.readNext q)
  | finishReading => exact h.report _ (h.finishReading q)
  | writeFirst a v => exact h.report _ (h.writeFirst a v q)
  | writeNext v => exact h.report _ (h.writeNext v q)
  | finishWriting => exact h.report _ (h.finishWriting q)
  | readSingleByte a => exact h.report _ (h.readSingleByte a q)
  | readSingleWord a => exact h.report _ (h.readSingleWord a q)
  | writeSingleByte a v => exact h.report _ (h.writeSingleByte a v q)
  | writeSingleWord a v => exact h.report _ (h.writeSingleWord a v q)
  | writeSingleQuad a v => exact h.report _ (h.writeSingleQuad a v q)
  | init => exact h.report _ (h.initTarget q)
  | cmdInit => exact (h.cmdInit q).state
  | cmdReset flag => exact h.cmdReset flag q
  | cmdShow => exact (h.cmdShow q).state
  | cmdRead a n => exact (h.cmdRead a n q).state
  | cmdWrite a n => exact (h.cmdWrite a n q).outcome
  | cmdOther verb => exact h.cmdOther verb q

end

section
/-! PROOFS. The statements that decoding undoes encoding for every row of the opcode table (30_encoding.md sections 1 to
3 and 5), and about the step of a block that a direct caller uses (92_eei_decisions.md D24). -/

namespace Sys2Proof

/-! ### Bits that are one piece and nothing more (R51 to R54) -/

/-- A reader that takes `bits` from in front of anything takes them as the whole sequence too. -/
theorem WireRead.whole_of_append {α : Type} {read : List Bool → WireRead α} {bits : List Bool} {a : α}
    (h : ∀ rest, read (bits ++ rest) = .ok a rest) (f : α → Instr) : (read bits).whole f = .instr (f a) := by
  have hnil := h []
  rw [List.append_nil] at hnil
  rw [hnil, whole_ok]

theorem decodeLine_symbolBits (b : Bool) :
    decodeLine .symbol (symbolBits b) = .instr (if b then .writeBakedOne else .writeBakedZero) :=
  WireRead.whole_of_append (readSymbol_symbolBits b) _

theorem decodeLine_byteBits (b : Byte) : decodeLine .byte (byteBits b) = .instr (.writeByte b) :=
  WireRead.whole_of_append (readByte_byteBits b) _

theorem decodeLine_markedBits (marker : Bool) (b : Byte) :
    decodeLine .markedByte (markedBits marker b) = .instr (if marker then .writeCmdByte b else .writeDataByte b) :=
  WireRead.whole_of_append (readMarked_markedBits marker b) _

theorem decodeLine_dataWordBits (w : Word) : decodeLine .dataWord (dataWordBits w) = .instr (.writeDataWord w) :=
  WireRead.whole_of_append (readDataWord_dataWordBits w) _

/-! ### Frames that are a composite (R76): the first frame gives the place of those behind it -/

/-- RF, then RN `k` times, then END (R120, R121). -/
theorem decodeFrames_read (a : Config.Address) (k : Nat) :
    decodeFrames (frameRF a :: (List.replicate k frameRN ++ [frameEND])) =
      ofExpansion (.instr (.readFirst a) :: (List.replicate k (.instr .readNext) ++ [.instr .finishReading])) := by
  simp only [decodeFrames, decodeFirst_frameRF, List.map_append, List.map_replicate, List.map_cons, List.map_nil,
    decodeFrame_frameRN, decodeFrame_frameEND_inRead]

/-- WF with the first byte, then WN with each of the others, then END (R122 to R124). -/
theorem decodeFrames_write (a : Config.Address) (v : Byte) (vs : List Byte) :
    decodeFrames (frameWF a v :: (vs.map frameWN ++ [frameEND])) =
      ofExpansion (.instr (.writeFirst a v) ::
        (vs.map (fun b => .instr (.writeNext b)) ++ [.instr .finishWriting])) := by
  simp only [decodeFrames, decodeFirst_frameWF, List.map_append, List.map_map, Function.comp_def, List.map_cons,
    List.map_nil, decodeFrame_frameWN, decodeFrame_frameEND_inWrite]

/-! ### Host bytes that are one command and nothing more (R64 to R72) -/

theorem decodeCode_host {i : Instr} {bytes : List Byte} (hd : decode bytes = .command i []) :
    decodeCode (.host bytes) = .instr i := by
  rw [decodeCode, hd]

/-- A host command decodes in front of anything (O42), so in front of nothing. -/
theorem decodeCode_encode_of_host {i : Instr} {bytes : List Byte} (hwf : i.wellFormed = true)
    (henc : encode i = .host bytes) : decodeCode (encode i) = .instr i := by
  have hd := hostCommandDecodesInFrontOfAnything i bytes [] hwf henc
  rw [List.append_nil] at hd
  rw [henc, decodeCode_host hd]

/-! ### The step of a block that a direct caller uses (D24) -/

theorem Machine.step_call {s : State} {i : Instr} {calls : List Instr} (hb : s.blocked = .running)
    (hc : s.calls = i :: calls) (hwf : i.wellFormed = true) (hhost : i.isHostCommand = false) :
    step s = exec i { s with calls := calls, ret := .none } := by
  have hcallable : (i.wellFormed && !i.isHostCommand) = true := by rw [hwf, hhost]; rfl
  simp only [step, hb, fetch, hc, hcallable, if_true]

end Sys2Proof

/-! ### The obligations -/

open Sys2Proof Sys2Proof.Machine

/-- Settles O43: by the row of the table: raw bits, frames, sequences of frames, names and host bytes. -/
theorem decodeOfEncodeIsTheInstruction : Obligations.DecodeOfEncodeIsTheInstruction := by
  intro i hwf
  cases i with
  | writeRawBit bit => rfl
  | writeBakedOne => exact decodeLine_symbolBits true
  | writeBakedZero => exact decodeLine_symbolBits false
  | writeByte b => exact decodeLine_byteBits b
  | writeCmdByte b => exact decodeLine_markedBits true b
  | writeDataByte b => exact decodeLine_markedBits false b
  | writeDataWord w => exact decodeLine_dataWordBits w
  | readFirst a => exact decodeFirst_frameRF a
  | readNext => exact decodeFrame_frameRN
  | finishReading => exact decodeFrame_frameEND_inRead
  | writeFirst a v => exact decodeFirst_frameWF a v
  | writeNext v => exact decodeFrame_frameWN v
  | finishWriting => exact decodeFrame_frameEND_inWrite
  | readSingleByte a => exact decodeFrames_read a 0
  | readSingleWord a => exact decodeFrames_read a 1
  | writeSingleByte a v => exact decodeFrames_write a v []
  | writeSingleWord a v =>
    exact (decodeFrames_write a (v.extractLsb' 0 8) [v.extractLsb' 8 8]).trans
      (congrArg (fun w => CodeRead.instr (.writeSingleWord a w)) (highByte_append_lowByte v))
  | writeSingleQuad a v =>
    exact (decodeFrames_write a (v.extractLsb' 0 8) [v.extractLsb' 8 8, v.extractLsb' 16 8, v.extractLsb' 24 8]).trans
      (congrArg (fun q => CodeRead.instr (.writeSingleQuad a q)) (quadBytes_append v))
  | resetOut | decodeByte | transport n m | init => rfl
  | cmdInit | cmdReset f | cmdShow | cmdRead a n | cmdWrite a n | cmdOther verb =>
    exact decodeCode_encode_of_host hwf rfl

/-- Settles O46: the first call is a callable operation, so it is what `fetch` runs. -/
theorem stepRunsTheFirstCall : Obligations.StepRunsTheFirstCall := by
  intro s i calls hb hc hwf hhost
  exact step_call hb hc hwf hhost

end
